-- ==== Sys2Proof/Word.lean ====
section
/-! DEFINITION. The shapes of GF25519-VU's values: the 32-bit word, the limb vector, the vectorized field element
(spec 00_scope.md sections 4 and 5.3; 10_state.md R20). Plain data, with one read and one build function each. -/

namespace Sys2Proof

/-- A u32: one lane, one limb, one limb-memory word, one command word, one status register. -/
abbrev Word := BitVec 32

/-- Field register number, 0 .. 15 (10_state.md R20: NFREG = 16, none hardwired). -/
abbrev FReg := Fin 16

/-- Ten like things, one per limb position 0 .. 9 (00_scope.md section 4: NLIMB = 10). -/
structure Ten (α : Type) where
  t0 : α
  t1 : α
  t2 : α
  t3 : α
  t4 : α
  t5 : α
  t6 : α
  t7 : α
  t8 : α
  t9 : α
  deriving DecidableEq, Repr, Inhabited

/-- The thing at limb position `i`. -/
def Ten.get {α : Type} (x : Ten α) : Fin 10 → α
  | 0 => x.t0 | 1 => x.t1 | 2 => x.t2 | 3 => x.t3 | 4 => x.t4
  | 5 => x.t5 | 6 => x.t6 | 7 => x.t7 | 8 => x.t8 | 9 => x.t9

/-- Ten things given position by position. -/
def Ten.ofFn {α : Type} (f : Fin 10 → α) : Ten α := ⟨f 0, f 1, f 2, f 3, f 4, f 5, f 6, f 7, f 8, f 9⟩

/-- A limb vector `x[0..9]`: the redundant representation of one field element (00_scope.md section 5.3). -/
abbrev LimbVec := Ten Word

/-- The four slots of a vectorized field element; the code of A is 0, of B 1, of C 2, of D 3 (00_scope.md 5.3). -/
inductive Slot where
  | A | B | C | D
  deriving DecidableEq, Repr, Inhabited

/-- The slot code 0 .. 3. -/
def Slot.code : Slot → Nat
  | .A => 0 | .B => 1 | .C => 2 | .D => 3

/-- The slot with a given 2-bit code. -/
def Slot.ofCode (c : BitVec 2) : Slot :=
  if c = 0 then .A else if c = 1 then .B else if c = 2 then .C else .D

/-- A vectorized field element in the logical view: four limb vectors (00_scope.md 5.3; 10_state.md R22 lets a
model hold this view and derive the physical one, which Machine/Lanes.lean does). -/
structure Vfe where
  a : LimbVec
  b : LimbVec
  c : LimbVec
  d : LimbVec
  deriving DecidableEq, Repr, Inhabited

/-- Slot `s` of a VFE. -/
def Vfe.slot (v : Vfe) : Slot → LimbVec
  | .A => v.a | .B => v.b | .C => v.c | .D => v.d

/-- A VFE given slot by slot. -/
def Vfe.ofSlots (f : Slot → LimbVec) : Vfe := ⟨f .A, f .B, f .C, f .D⟩

/-- `v[s][i]`: limb `i` of slot `s`. -/
def Vfe.limb (v : Vfe) (s : Slot) (i : Fin 10) : Word := (v.slot s).get i

end Sys2Proof
end

