-- ==== Sys2Proof/Syntax.lean ====
section
/-! DEFINITION. The commands of GF25519-VU, one constructor per row of spec/opcode_table.json (30_encoding.md R75: 19
rows, the qualifiers of VSUB, VNEG and VRED being part of the row). -/

namespace Sys2Proof

/-- A command with its operands already taken out of the word. Register numbers are 0..15 by type; a slot mask is 4
bits, a shuffle selector 8, a word address 16, a ROM index 5 (30_encoding.md R71, R73). -/
inductive Instr where
  /-- `VADD Fd, Fa, Fb` (R102). -/
  | vadd (fd fa fb : FReg)
  /-- `VSUB.P2 Fd, Fa, Fb` (R103, k = 0). -/
  | vsubP2 (fd fa fb : FReg)
  /-- `VSUB.P16 Fd, Fa, Fb` (R103, k = 1). -/
  | vsubP16 (fd fa fb : FReg)
  /-- `VNEG.P2 Fd, Fa, m` (R104, k = 0). -/
  | vnegP2 (fd fa : FReg) (m : BitVec 4)
  /-- `VNEG.P16 Fd, Fa, m` (R104, k = 1). -/
  | vnegP16 (fd fa : FReg) (m : BitVec 4)
  /-- `VMUL Fd, Fa, Fb` (R107). -/
  | vmul (fd fa fb : FReg)
  /-- `VSQ Fd, Fa` (R108). -/
  | vsq (fd fa : FReg)
  /-- `VRED.L Fd, Fa` (R109, full = 0). -/
  | vredL (fd fa : FReg)
  /-- `VRED.F Fd, Fa` (R110, full = 1). -/
  | vredF (fd fa : FReg)
  /-- `VSHUF Fd, Fa, wxyz` (R134). -/
  | vshuf (fd fa : FReg) (sel : BitVec 8)
  /-- `VBLEND Fd, Fa, Fb, m` (R135). -/
  | vblend (fd fa fb : FReg) (m : BitVec 4)
  /-- `VLD Fd, #addr` (R136); `fr` is the register loaded. -/
  | vld (fr : FReg) (addr : BitVec 16)
  /-- `VST Fs, #addr` (R137); `fr` is the register stored. -/
  | vst (fr : FReg) (addr : BitVec 16)
  /-- `VLDC Fd, #e` (R138). -/
  | vldc (fd : FReg) (e : BitVec 5)
  /-- `PDBL Fd, Fa` (R154). -/
  | pdbl (fd fa : FReg)
  /-- `PADD Fd, Fa, Fb` (R157). -/
  | padd (fd fa fb : FReg)
  /-- `PADDC Fd, Fa, Fc` (R156); the cached operand goes into the fb field (R79). -/
  | paddc (fd fa fc : FReg)
  /-- `PCACHE Fd, Fa` (R155). -/
  | pcache (fd fa : FReg)
  /-- `PNEG Fd, Fa` (R158). -/
  | pneg (fd fa : FReg)
  deriving DecidableEq, Repr

/-- The pseudo-commands of 30_encoding.md R80: other spellings of VSHUF and VLDC words. -/
inductive Pseudo where
  | vmov (fd fa : FReg)
  | vzero (fd : FReg)
  | vone (fd : FReg)
  | pident (fd : FReg)
  /-- `PLUT Fd, #i`, i = 0..7: table entry (2i+1)B. -/
  | plut (fd : FReg) (i : Fin 8)
  /-- `PLUTC Fd, #i`, i = 0..7: the cached table entry. -/
  | plutc (fd : FReg) (i : Fin 8)
  deriving DecidableEq, Repr

/-- The one real command each pseudo-command is (30_encoding.md R80). -/
def Pseudo.expand : Pseudo → Instr
  | .vmov fd fa => .vshuf fd fa 0xE4#8
  | .vzero fd => .vldc fd 0#5
  | .vone fd => .vldc fd 1#5
  | .pident fd => .vldc fd 5#5
  | .plut fd i => .vldc fd (8#5 + BitVec.ofNat 5 i.val)
  | .plutc fd i => .vldc fd (16#5 + BitVec.ofNat 5 i.val)

end Sys2Proof
end

