-- ==== Sys2Proof/WellFormed.lean ====
section
/-! DEFINITION. Which commands are legal (30_encoding.md R78 (c)). Every other field is legal at every value its width
admits ("all 16 register numbers, all 16 masks, all 256 shuffle selectors, ... all 65536 addresses"), so the only check
is the ROM index of VLDC. -/

namespace Sys2Proof

/-- The 22 populated ROM indices, 0..5 and 8..23 (20_memory.md R56); 6, 7 and 24..31 are reserved. -/
def romPopulated (e : BitVec 5) : Bool := decide (e.toNat ≤ 5) || (decide (8 ≤ e.toNat) && decide (e.toNat ≤ 23))

/-- A command some legal word spells. -/
def Instr.wellFormed : Instr → Bool
  | .vldc _ e => romPopulated e
  | .vadd _ _ _ | .vsubP2 _ _ _ | .vsubP16 _ _ _ | .vnegP2 _ _ _ | .vnegP16 _ _ _ | .vmul _ _ _ | .vsq _ _
  | .vredL _ _ | .vredF _ _ | .vshuf _ _ _ | .vblend _ _ _ _ | .vld _ _ | .vst _ _ | .pdbl _ _ | .padd _ _ _
  | .paddc _ _ _ | .pcache _ _ | .pneg _ _ => true

end Sys2Proof
end

