-- ==== Sys2Proof/Decode.lean ====
section
/-! DEFINITION. Decoding and encoding of the 32-bit command word (30_encoding.md R70 to R78), and the opcode table of
R75 as data. A command word arrives as one 32-bit value on the command port and has no byte order (20_memory.md R53). -/

namespace Sys2Proof

/-! ### Fields of a word (R71) -/

/-- `cw[31:26]`. -/
def opField (w : Word) : BitVec 6 := w.extractLsb' 26 6
/-- `cw[25:22]`: fd of format R, fr of format M. -/
def fdField (w : Word) : BitVec 4 := w.extractLsb' 22 4
/-- `cw[21:18]`. -/
def faField (w : Word) : BitVec 4 := w.extractLsb' 18 4
/-- `cw[17:14]`. -/
def fbField (w : Word) : BitVec 4 := w.extractLsb' 14 4
/-- `cw[13:0]`. -/
def immField (w : Word) : BitVec 14 := w.extractLsb' 0 14
/-- `cw[21:16]` of format M, which must be 0. -/
def zeroField (w : Word) : BitVec 6 := w.extractLsb' 16 6
/-- `cw[15:0]` of format M. -/
def addrField (w : Word) : BitVec 16 := w.extractLsb' 0 16

/-- A register number from its 4 bits. -/
def regOfBits (b : BitVec 4) : FReg := ⟨b.toNat, b.isLt⟩
/-- The 4 bits of a register number. -/
def regBits (r : FReg) : BitVec 4 := BitVec.ofNat 4 r.val

/-! ### Decoding -/

/-- Why a word is illegal: the three conditions of 30_encoding.md R78. -/
inductive Reject where
  /-- R78 (a): op is not one of the 16 values of R74. -/
  | reservedOp
  /-- R78 (b): a field the sub-format says must be zero is not zero. -/
  | nonzeroField
  /-- R78 (c): VLDC of a ROM index that is not populated. -/
  | reservedRomIndex
  deriving DecidableEq, Repr

/-- A command that needs `ok`, the must-be-zero fields of its sub-format being zero. -/
def requireZero (ok : Bool) (i : Instr) : Except Reject Instr := if ok then .ok i else .error .nonzeroField

/-- Sub-formats R3, R3K, R3M (R72): three registers; `hi` are the immediate bits that must be zero. -/
def decodeR3 (w : Word) (hiZero : Bool) (mk : FReg → FReg → FReg → Instr) : Except Reject Instr :=
  requireZero hiZero (mk (regOfBits (fdField w)) (regOfBits (faField w)) (regOfBits (fbField w)))

/-- Sub-formats R2, R2K, R2KM, R2S (R72): two registers, fb zero. -/
def decodeR2 (w : Word) (hiZero : Bool) (mk : FReg → FReg → Instr) : Except Reject Instr :=
  requireZero (decide (fbField w = 0) && hiZero) (mk (regOfBits (fdField w)) (regOfBits (faField w)))

/-- Format M (R71): one register and a 16-bit address, bits 21:16 zero. -/
def decodeM (w : Word) (mk : FReg → BitVec 16 → Instr) : Except Reject Instr :=
  requireZero (decide (zeroField w = 0)) (mk (regOfBits (fdField w)) (addrField w))

/-- Sub-format R1C (R72): VLDC; fa, fb and imm[13:5] zero, then the index must be populated (R78 (c)). -/
def decodeVldc (w : Word) : Except Reject Instr :=
  if faField w = 0 ∧ fbField w = 0 ∧ (immField w).extractLsb' 5 9 = 0 then
    if romPopulated ((immField w).extractLsb' 0 5) then
      .ok (.vldc (regOfBits (fdField w)) ((immField w).extractLsb' 0 5))
    else .error .reservedRomIndex
  else .error .nonzeroField

/-- The decoder, total on every 32-bit word (R74, R77, R78). -/
def decode (w : Word) : Except Reject Instr :=
  match (opField w).toNat with
  | 0x01 => decodeR3 w (immField w = 0) .vadd
  | 0x02 => decodeR3 w ((immField w).extractLsb' 1 13 = 0) (if (immField w).getLsbD 0 then .vsubP16 else .vsubP2)
  | 0x03 => decodeR2 w ((immField w).extractLsb' 5 9 = 0) fun fd fa =>
      if (immField w).getLsbD 4 then .vnegP16 fd fa ((immField w).extractLsb' 0 4)
      else .vnegP2 fd fa ((immField w).extractLsb' 0 4)
  | 0x04 => decodeR3 w (immField w = 0) .vmul
  | 0x05 => decodeR2 w (immField w = 0) .vsq
  | 0x06 => decodeR2 w ((immField w).extractLsb' 1 13 = 0) (if (immField w).getLsbD 0 then .vredF else .vredL)
  | 0x08 => decodeR2 w ((immField w).extractLsb' 8 6 = 0) fun fd fa => .vshuf fd fa ((immField w).extractLsb' 0 8)
  | 0x09 => decodeR3 w ((immField w).extractLsb' 4 10 = 0) fun fd fa fb => .vblend fd fa fb ((immField w).extractLsb' 0 4)
  | 0x10 => decodeM w .vld
  | 0x11 => decodeM w .vst
  | 0x12 => decodeVldc w
  | 0x20 => decodeR2 w (immField w = 0) .pdbl
  | 0x21 => decodeR3 w (immField w = 0) .padd
  | 0x22 => decodeR3 w (immField w = 0) .paddc
  | 0x23 => decodeR2 w (immField w = 0) .pcache
  | 0x24 => decodeR2 w (immField w = 0) .pneg
  | _ => .error .reservedOp

/-! ### Encoding -/

/-- A format R word from its fields (R71). -/
def wordR (op : BitVec 6) (fd fa fb : BitVec 4) (imm : BitVec 14) : Word := op ++ fd ++ fa ++ fb ++ imm

/-- A format M word from its fields (R71). -/
def wordM (op : BitVec 6) (fr : BitVec 4) (addr : BitVec 16) : Word := op ++ fr ++ 0#6 ++ addr

/-- The one word that spells a command (R71, R72, R74; unused fields zero). -/
def encode : Instr → Word
  | .vadd fd fa fb => wordR 0x01#6 (regBits fd) (regBits fa) (regBits fb) 0#14
  | .vsubP2 fd fa fb => wordR 0x02#6 (regBits fd) (regBits fa) (regBits fb) 0#14
  | .vsubP16 fd fa fb => wordR 0x02#6 (regBits fd) (regBits fa) (regBits fb) 1#14
  | .vnegP2 fd fa m => wordR 0x03#6 (regBits fd) (regBits fa) 0#4 (0#10 ++ m)
  | .vnegP16 fd fa m => wordR 0x03#6 (regBits fd) (regBits fa) 0#4 (1#10 ++ m)
  | .vmul fd fa fb => wordR 0x04#6 (regBits fd) (regBits fa) (regBits fb) 0#14
  | .vsq fd fa => wordR 0x05#6 (regBits fd) (regBits fa) 0#4 0#14
  | .vredL fd fa => wordR 0x06#6 (regBits fd) (regBits fa) 0#4 0#14
  | .vredF fd fa => wordR 0x06#6 (regBits fd) (regBits fa) 0#4 1#14
  | .vshuf fd fa sel => wordR 0x08#6 (regBits fd) (regBits fa) 0#4 (0#6 ++ sel)
  | .vblend fd fa fb m => wordR 0x09#6 (regBits fd) (regBits fa) (regBits fb) (0#10 ++ m)
  | .vld fr addr => wordM 0x10#6 (regBits fr) addr
  | .vst fr addr => wordM 0x11#6 (regBits fr) addr
  | .vldc fd e => wordR 0x12#6 (regBits fd) 0#4 0#4 (0#9 ++ e)
  | .pdbl fd fa => wordR 0x20#6 (regBits fd) (regBits fa) 0#4 0#14
  | .padd fd fa fb => wordR 0x21#6 (regBits fd) (regBits fa) (regBits fb) 0#14
  | .paddc fd fa fc => wordR 0x22#6 (regBits fd) (regBits fa) (regBits fc) 0#14
  | .pcache fd fa => wordR 0x23#6 (regBits fd) (regBits fa) 0#4 0#14
  | .pneg fd fa => wordR 0x24#6 (regBits fd) (regBits fa) 0#4 0#14

/-! ### The opcode table as data (R75) -/

/-- One row of R75: a word spells the row's command exactly when `cw & mask = pat`. -/
structure Row where
  name : String
  pat : Word
  mask : Word
  deriving DecidableEq, Repr

/-- The 19 rows, as 30_encoding.md R75 prints them. -/
def opcodeRows : List Row :=
  [⟨"VADD", 0x04000000, 0xFC003FFF⟩, ⟨"VSUB.P2", 0x08000000, 0xFC003FFF⟩, ⟨"VSUB.P16", 0x08000001, 0xFC003FFF⟩,
   ⟨"VNEG.P2", 0x0C000000, 0xFC03FFF0⟩, ⟨"VNEG.P16", 0x0C000010, 0xFC03FFF0⟩, ⟨"VMUL", 0x10000000, 0xFC003FFF⟩,
   ⟨"VSQ", 0x14000000, 0xFC03FFFF⟩, ⟨"VRED.L", 0x18000000, 0xFC03FFFF⟩, ⟨"VRED.F", 0x18000001, 0xFC03FFFF⟩,
   ⟨"VSHUF", 0x20000000, 0xFC03FF00⟩] ++
  [⟨"VBLEND", 0x24000000, 0xFC003FF0⟩, ⟨"VLD", 0x40000000, 0xFC3F0000⟩, ⟨"VST", 0x44000000, 0xFC3F0000⟩,
   ⟨"VLDC", 0x48000000, 0xFC3FFFE0⟩, ⟨"PDBL", 0x80000000, 0xFC03FFFF⟩, ⟨"PADD", 0x84000000, 0xFC003FFF⟩,
   ⟨"PADDC", 0x88000000, 0xFC003FFF⟩, ⟨"PCACHE", 0x8C000000, 0xFC03FFFF⟩, ⟨"PNEG", 0x90000000, 0xFC03FFFF⟩]

/-- A word spells a row's command: `cw & mask = match` (R75). -/
def Row.matches (r : Row) (w : Word) : Bool := decide (w &&& r.mask = r.pat)

/-- The mnemonic of a command, as R75 spells it. -/
def Instr.name : Instr → String
  | .vadd _ _ _ => "VADD"
  | .vsubP2 _ _ _ => "VSUB.P2"
  | .vsubP16 _ _ _ => "VSUB.P16"
  | .vnegP2 _ _ _ => "VNEG.P2"
  | .vnegP16 _ _ _ => "VNEG.P16"
  | .vmul _ _ _ => "VMUL"
  | .vsq _ _ => "VSQ"
  | .vredL _ _ => "VRED.L"
  | .vredF _ _ => "VRED.F"
  | .vshuf _ _ _ => "VSHUF"
  | .vblend _ _ _ _ => "VBLEND"
  | .vld _ _ => "VLD"
  | .vst _ _ => "VST"
  | .vldc _ _ => "VLDC"
  | .pdbl _ _ => "PDBL"
  | .padd _ _ _ => "PADD"
  | .paddc _ _ _ => "PADDC"
  | .pcache _ _ => "PCACHE"
  | .pneg _ _ => "PNEG"

/-! ### The host's reading of a table word -/

/-- The 32-bit command word whose bits are `w` numbered as the table numbers them; bits from `nbits` up are 0. A
command is one whole 32-bit value (R70), so there are no bytes to lay out. -/
def tableWord (nbits w : Nat) : Word := BitVec.ofNat 32 (w % 2 ^ nbits)

/-- What the decoder reads from a table word, none where it rejects. -/
def decodeTableWord (nbits w : Nat) : Option Instr :=
  match decode (tableWord nbits w) with
  | .ok i => some i
  | .error _ => none

end Sys2Proof
end

