-- ==== Sys2Proof/Config.lean ====
section
/-! DEFINITION. What one implementation fixes (LMWORDS) and what the spec leaves without a value (the content of
never-written registers and words). Free values are opaque constants without a body: no proof can see a value of one. -/

namespace Sys2Proof

/-- The open parameter of 00_scope.md section 4 and R8. LAT, the other one, has no place in a model without time (log 14). -/
structure Config where
  /-- LMWORDS, the size of the limb memory in 32-bit words, 40 ≤ LMWORDS ≤ 65536 (20_memory.md R50). -/
  lmWords : Nat
  deriving DecidableEq, Repr

/-- The range 20_memory.md R50 gives LMWORDS. -/
def Config.legal (c : Config) : Bool := decide (40 ≤ c.lmWords) && decide (c.lmWords ≤ 65536)

/-- The value the spec's test vectors use (00_scope.md section 4); State.reset has it (DESIGN CHOICE, log 4). -/
def Config.testVectors : Config := ⟨65536⟩

/-- FREE VALUE (log 5): what a command finds in a never-written field register, by the model's counter and the
register's number (10_state.md R25; 93_implementation_defined.md U1: any value). -/
opaque Config.unwrittenRegister : Nat → FReg → Vfe

/-- FREE VALUE (log 7): what a never-written limb-memory word holds, by the model's counter and the address
(20_memory.md R52; 93_implementation_defined.md U2: any value). -/
opaque Config.unwrittenWord : Nat → Nat → Word

end Sys2Proof
end

