-- ==== Sys2Proof/Machine/State.lean ====
section
/-! DEFINITION. The state of one GF25519-VU and its host's pending moves (10_state.md sections 1 to 7), the reset state
(R35), and the reasons a step can stop. -/

namespace Sys2Proof.Machine

/-- One written word of the limb memory: its word address and its value (20_memory.md R50: an address is a word index). -/
abbrev Cell := Nat × Word

/-- What the host can do that changes the unit, between commands (20_memory.md R60; 60_exceptions.md R204;
93_implementation_defined.md U10 calls these "host moves"). Reads change nothing and are functions of the state. -/
inductive HostMove where
  /-- Issue a command word on the command port (20_memory.md R53, R63). -/
  | issue (cw : Word)
  /-- Write one word of the limb memory (20_memory.md R60). -/
  | writeLm (addr : Nat) (v : Word)
  /-- Write a status register, which is ignored (10_state.md R28). -/
  | writeStatus (n : Fin 4) (v : Word)
  /-- Apply reset (70_reset_and_hazards.md R220). -/
  | reset
  deriving DecidableEq, Repr

/-- Everything the spec gives the machine, as plain data. -/
structure State where
  /-- F[0..15] (10_state.md R20). -/
  f : Vector Vfe 16
  /-- Which field registers a command has written since the last reset (R25: the others are never-written). -/
  written : Vector Bool 16
  /-- The limb memory's written words, addresses strictly rising; a word not listed was never written (20_memory.md R50, R52). -/
  lm : List Cell
  /-- The command counter, status register 3 (R27). -/
  pc : Word
  /-- STATUS, status register 0: bit 0 FAULT, bits 31:1 hardwired 0 (R29). -/
  status : Word
  /-- CAUSE, status register 1 (R30). -/
  cause : Word
  /-- FINFO, status register 2 (R31). -/
  finfo : Word
  /-- LMWORDS (00_scope.md R8), fixed for the machine; no step changes it. -/
  cfg : Config
  /-- The host's moves still to come, oldest first (log 1). -/
  port : List HostMove
  /-- The MODEL's own counter, to which the free values are applied (log 8); no register of the unit. -/
  fresh : Nat
  deriving DecidableEq, Repr

/-- Why the model itself stops. The two faults of the spec, IllegalCommand and AddressRange, are recorded in STATUS,
CAUSE and FINFO and are next states (60_exceptions.md R203), not these. -/
inductive Fault where
  /-- Raised by the host move `writeLm` at a word the limb memory does not have (20_memory.md R50; the spec gives such
  a write no meaning). Safe: no command raises it, and no state follows it (log 11). -/
  | hostWordOutsideMemory (addr : Nat)
  deriving DecidableEq, Repr

/-- Commands without a meaning. -/
inductive Refusal where
  /-- Answered by an arm of exec whose command has no meaning yet; every command has one, so no arm answers it. Safe. -/
  | notModelled (mnemonic : String)
  deriving DecidableEq, Repr

/-- All 40 limbs zero: what a never-written register is stored as (DESIGN CHOICE, log 5: the spec gives no value, and no
command reads this one). -/
def unwrittenContent : Vfe := Vfe.ofSlots fun _ => Ten.ofFn fun _ => 0#32

/-- The unit after power-on reset with a given LMWORDS (R35; 70_reset_and_hazards.md R220): pc and the three fault
registers 0, every field register never-written, no limb-memory word written, and nothing issued yet (R221). -/
def State.powerOn (cfg : Config) : State where
  f := Vector.replicate 16 unwrittenContent
  written := Vector.replicate 16 false
  lm := []
  pc := 0#32
  status := 0#32
  cause := 0#32
  finfo := 0#32
  cfg := cfg
  port := []
  fresh := 0

/-- The machine right after reset, with the LMWORDS of the spec's test vectors (log 4). -/
def State.reset : State := State.powerOn Config.testVectors

/-- The three outcomes of a step of this machine. -/
abbrev Result := Host.Outcome State Fault Refusal

end Sys2Proof.Machine
end

