-- ==== Sys2Proof/Machine/Flags.lean ====
section
/-! DEFINITION. There are no arithmetic flags, condition codes or predicates in this unit (10_state.md R32); the only
flag is STATUS.FAULT (R29). This file holds it, the cause codes of 60_exceptions.md R201, and the host's read of the four
status registers (10_state.md R28). -/

namespace Sys2Proof.Machine

/-- STATUS bit 0, FAULT (R29). -/
def faultBit : Word := 1#32

/-- The unit is in the faulted state: STATUS.FAULT = 1 (R29). -/
def State.faulted (s : State) : Bool := s.status.getLsbD 0

/-- Cause 1, IllegalCommand (60_exceptions.md R201). -/
def causeIllegalCommand : Word := 1#32

/-- Cause 2, AddressRange (60_exceptions.md R201). -/
def causeAddressRange : Word := 2#32

/-- What the host reads at the status port (10_state.md R28): 0 STATUS (bits 31:1 read as 0), 1 CAUSE, 2 FINFO, 3 PC. -/
def State.statusPort (s : State) : Fin 4 → Word
  | 0 => s.status &&& faultBit
  | 1 => s.cause
  | 2 => s.finfo
  | 3 => s.pc

end Sys2Proof.Machine
end

