-- ==== Sys2Proof/Machine/Memory.lean ====
section
/-! DEFINITION. The limb memory as a list of written words in one canonical form: addresses strictly rising, so equal
memories are equal lists (20_memory.md R50, R55). A word that is not listed was never written (R52), so no listed entry
can equal what an unlisted address reads as. -/

namespace Sys2Proof.Machine

/-- Every address of the list is above `a`. -/
def Memory.above (a : Nat) : List Cell → Bool
  | [] => true
  | (b, _) :: rest => decide (a < b) && Memory.above a rest

/-- The canonical form: addresses strictly rising. -/
def Memory.wf : List Cell → Bool
  | [] => true
  | (a, _) :: rest => Memory.above a rest && Memory.wf rest

/-- The word written at an address, none if that word was never written. -/
def Memory.lookup : List Cell → Nat → Option Word
  | [], _ => none
  | (b, v) :: rest, a => if a = b then some v else Memory.lookup rest a

/-- Write one word, keeping the canonical form; it changes that word only (20_memory.md R55). -/
def Memory.store : List Cell → Nat → Word → List Cell
  | [], a, v => [(a, v)]
  | (b, u) :: rest, a, v =>
    if a < b then (a, v) :: (b, u) :: rest
    else if a = b then (a, v) :: rest
    else (b, u) :: Memory.store rest a v

/-- MemWrite(addr, n, v): the words of `v` at addr, addr+1, ... (00_scope.md 5.2). -/
def Memory.storeWords : List Cell → Nat → List Word → List Cell
  | m, _, [] => m
  | m, a, v :: vs => Memory.storeWords (Memory.store m a v) (a + 1) vs

/-- Every listed address is a word of a memory of `n` words (20_memory.md R50). -/
def Memory.inside (n : Nat) : List Cell → Bool
  | [] => true
  | (a, _) :: rest => decide (a < n) && Memory.inside n rest

end Sys2Proof.Machine
end

