-- ==== Sys2Proof/Machine/Radix.lean ====
section
/-! DEFINITION. The alternating 26/25-bit radix (00_scope.md R9 to R12): limb widths, weights, masks, the value of a
limb vector, the canonical limb vector of a number, and the limbs of p and of its multiples. -/

namespace Sys2Proof.Machine

/-- The prime p = 2^255 - 19 (00_scope.md section 4). -/
def prime : Nat := 2 ^ 255 - 19

/-- w(i): 26 for even i, 25 for odd i (R9). -/
def limbWidth (i : Fin 10) : Nat := if i.val % 2 = 0 then 26 else 25

/-- e(i), the exponent of limb i's weight (R9). -/
def limbExp : Fin 10 → Nat
  | 0 => 0 | 1 => 26 | 2 => 51 | 3 => 77 | 4 => 102 | 5 => 128 | 6 => 153 | 7 => 179 | 8 => 204 | 9 => 230

/-- mask(i) = 2^w(i) - 1 (R9). -/
def limbMask (i : Fin 10) : Nat := 2 ^ limbWidth i - 1

/-- mask(i) as a lane value. -/
def maskWord (i : Fin 10) : Word := BitVec.ofNat 32 (limbMask i)

/-- val(x) = sum of x[i] * 2^e(i) (R10), for every limb vector whatever the size of its limbs. -/
def val (x : LimbVec) : Nat :=
  x.t0.toNat * 2 ^ limbExp 0 + x.t1.toNat * 2 ^ limbExp 1 + x.t2.toNat * 2 ^ limbExp 2 + x.t3.toNat * 2 ^ limbExp 3
    + x.t4.toNat * 2 ^ limbExp 4 + x.t5.toNat * 2 ^ limbExp 5 + x.t6.toNat * 2 ^ limbExp 6 + x.t7.toNat * 2 ^ limbExp 7
    + x.t8.toNat * 2 ^ limbExp 8 + x.t9.toNat * 2 ^ limbExp 9

/-- canon(n), for an integer n: c[i] = ((n mod p) >> e(i)) & mask(i) (R11). The residue is in 0 .. p-1 for a negative n
too. -/
def canon (n : Int) : LimbVec :=
  Ten.ofFn fun i => BitVec.ofNat 32 (((n % (prime : Int)).toNat >>> limbExp i) &&& limbMask i)

/-- pl: the limbs of p itself, not reduced (R12). -/
def primeLimb (i : Fin 10) : Nat := if i = 0 then 2 ^ 26 - 19 else limbMask i

/-- kp(k, i) = k * pl[i] (R12), for the two multiples 2 and 16; the largest, 16 * (2^26 - 1), is below 2^32 (R181). -/
def multipleLimb (k : Nat) (i : Fin 10) : Nat := k * primeLimb i

/-- kp(k, .) as a limb vector. -/
def multiple (k : Nat) : LimbVec := Ten.ofFn fun i => BitVec.ofNat 32 (multipleLimb k i)

end Sys2Proof.Machine
end

