-- ==== Sys2Proof/Machine/Arith.lean ====
section
/-! DEFINITION. The limb-level functions on one slot (40_field_ops.md R100 to R110): every lane result is reduced mod
2^32 and every multiplier accumulator mod 2^64, silently. -/

namespace Sys2Proof.Machine

/-- VADD on one slot (R102): lane sums mod 2^32. -/
def addSlot (x y : LimbVec) : LimbVec := Ten.ofFn fun i => x.get i + y.get i

/-- VSUB on one slot (R103): x + kp(k, .) - y, lane by lane mod 2^32. -/
def subSlot (k : Nat) (x y : LimbVec) : LimbVec :=
  Ten.ofFn fun i => x.get i + BitVec.ofNat 32 (multipleLimb k i) - y.get i

/-- VNEG on one selected slot (R104): kp(k, .) - x, lane by lane mod 2^32. -/
def negSlot (k : Nat) (x : LimbVec) : LimbVec := Ten.ofFn fun i => BitVec.ofNat 32 (multipleLimb k i) - x.get i

/-! ### The multiplier (R106) -/

/-- c(i,j): 2 if i and j are both odd, else 1. -/
def oddFactor (i j : Fin 10) : Nat := if i.val % 2 = 1 ∧ j.val % 2 = 1 then 2 else 1

/-- The product that limb i of x contributes to accumulator k: its partner is the j with i + j = k, or, when i > k, the
j with i + j = k + 10, folded back by 19. -/
def productTerm (x y : LimbVec) (k i : Fin 10) : Nat :=
  let j : Fin 10 := k - i
  if i ≤ k then oddFactor i j * ((x.get i).toNat * (y.get j).toNat)
  else 19 * (oddFactor i j * ((x.get i).toNat * (y.get j).toNat))

/-- The sum of step 1 for accumulator k, before it is taken mod 2^64. -/
def productSum (x y : LimbVec) (k : Fin 10) : Nat :=
  productTerm x y k 0 + productTerm x y k 1 + productTerm x y k 2 + productTerm x y k 3 + productTerm x y k 4
    + productTerm x y k 5 + productTerm x y k 6 + productTerm x y k 7 + productTerm x y k 8 + productTerm x y k 9

/-- Step 1: the ten u64 accumulators. -/
def accumulators (x y : LimbVec) : Ten (BitVec 64) := Ten.ofFn fun k => BitVec.ofNat 64 (productSum x y k)

/-- What carries out of an accumulator at limb i: `z >> w(i)`. -/
def carryOut (i : Fin 10) (z : BitVec 64) : BitVec 64 := z >>> limbWidth i

/-- What stays in it: `z & mask(i)`. -/
def keepLow (i : Fin 10) (z : BitVec 64) : BitVec 64 := z &&& BitVec.ofNat 64 (limbMask i)

/-- Step 2: the sequential carry chain z[0] to z[9], then 19 times the carry of z[9] into z[0], then one more carry
from z[0] into z[1]; every addition mod 2^64. -/
def carryChain (z : Ten (BitVec 64)) : Ten (BitVec 64) :=
  let z1 := z.t1 + carryOut 0 z.t0
  let z2 := z.t2 + carryOut 1 z1
  let z3 := z.t3 + carryOut 2 z2
  let z4 := z.t4 + carryOut 3 z3
  let z5 := z.t5 + carryOut 4 z4
  let z6 := z.t6 + carryOut 5 z5
  let z7 := z.t7 + carryOut 6 z6
  let z8 := z.t8 + carryOut 7 z7
  let z9 := z.t9 + carryOut 8 z8
  let z0 := keepLow 0 z.t0 + 19#64 * carryOut 9 z9
  ⟨keepLow 0 z0, keepLow 1 z1 + carryOut 0 z0, keepLow 2 z2, keepLow 3 z3, keepLow 4 z4, keepLow 5 z5, keepLow 6 z6,
    keepLow 7 z7, keepLow 8 z8, keepLow 9 z9⟩

/-- Step 3: narrow to lanes, mod 2^32. -/
def narrow (z : Ten (BitVec 64)) : LimbVec := Ten.ofFn fun i => (z.get i).setWidth 32

/-- MulSlot(x, y) (R106). -/
def mulSlot (x y : LimbVec) : LimbVec := narrow (carryChain (accumulators x y))

/-! ### Reductions (R109, R110) -/

/-- VRED.L on one slot (R109): one parallel carry pass; every carry comes from a source limb. -/
def reduceLazySlot (x : LimbVec) : LimbVec :=
  Ten.ofFn fun i =>
    (x.get i &&& maskWord i)
      + (if i = 0 then 19#32 * (x.get 9 >>> limbWidth 9) else x.get (i - 1) >>> limbWidth (i - 1))

/-- VRED.F on one slot (R110): the canonical limb vector of the value. -/
def reduceFullSlot (x : LimbVec) : LimbVec := canon (val x)

end Sys2Proof.Machine
end

