-- ==== Sys2Proof/Machine/Operands.lean ====
section
/-! DEFINITION. The operand forms of the commands (30_encoding.md R73): slot masks, shuffle selectors, the multiple the
qualifier selects, the 40-word image of a VFE in limb memory; and the VFE-valued functions the field and lane commands
compute (42_point_ops.md R150 names them so). -/

namespace Sys2Proof.Machine

/-- Bit s of a slot mask: bit 0 = A, 1 = B, 2 = C, 3 = D (00_scope.md 5.3). -/
def maskHas (m : BitVec 4) (s : Slot) : Bool := m.getLsbD s.code

/-- t(s) = (sel >> 2s) & 3, the source slot of destination slot s (41_lane_and_transfer_ops.md R134). -/
def sourceSlot (sel : BitVec 8) (s : Slot) : Slot := Slot.ofCode (sel.extractLsb' (2 * s.code) 2)

/-- The qualifier `.P2` selects the multiple 2p (R103). -/
def multipleP2 : Nat := 2

/-- The qualifier `.P16` selects the multiple 16p (R103). -/
def multipleP16 : Nat := 16

/-- One raw limb array: the ten limbs of a slot, limb 0 first (20_memory.md R51). -/
def limbArray (x : LimbVec) : List Word := [x.t0, x.t1, x.t2, x.t3, x.t4, x.t5, x.t6, x.t7, x.t8, x.t9]

/-- The 40 words `v[10*s + i] = F[fs][s][i]` in address order: four consecutive raw limb arrays (R51, R137). -/
def imageOf (v : Vfe) : List Word := limbArray v.a ++ limbArray v.b ++ limbArray v.c ++ limbArray v.d

/-- The VFE whose limb i of slot s is word 10*s + i of an image (R136). -/
def ofImage (word : Nat → Word) : Vfe := Vfe.ofSlots fun s => Ten.ofFn fun i => word (10 * s.code + i.val)

/-! ### VFE-valued functions -/

/-- VADD(x, y) (R102). -/
def vaddFn (x y : Vfe) : Vfe := Vfe.ofSlots fun s => addSlot (x.slot s) (y.slot s)

/-- VSUB(x, y) with the multiple k (R103); all four slots, no mask. -/
def vsubFn (k : Nat) (x y : Vfe) : Vfe := Vfe.ofSlots fun s => subSlot k (x.slot s) (y.slot s)

/-- VNEG(x, m) with the multiple k (R104); an unselected slot is copied. -/
def vnegFn (k : Nat) (x : Vfe) (m : BitVec 4) : Vfe :=
  Vfe.ofSlots fun s => if maskHas m s then negSlot k (x.slot s) else x.slot s

/-- VMUL(x, y) (R107). -/
def vmulFn (x y : Vfe) : Vfe := Vfe.ofSlots fun s => mulSlot (x.slot s) (y.slot s)

/-- VSQ(x) (R108): MulSlot of each slot with itself. -/
def vsqFn (x : Vfe) : Vfe := Vfe.ofSlots fun s => mulSlot (x.slot s) (x.slot s)

/-- VRED.L(x) (R109). -/
def vredLFn (x : Vfe) : Vfe := Vfe.ofSlots fun s => reduceLazySlot (x.slot s)

/-- VRED.F(x) (R110). -/
def vredFFn (x : Vfe) : Vfe := Vfe.ofSlots fun s => reduceFullSlot (x.slot s)

/-- VSHUF(x, sel) (R134). -/
def vshufFn (x : Vfe) (sel : BitVec 8) : Vfe := Vfe.ofSlots fun s => x.slot (sourceSlot sel s)

/-- VBLEND(x, y, m) (R135): slots in m come from y, the others from x. -/
def vblendFn (x y : Vfe) (m : BitVec 4) : Vfe := Vfe.ofSlots fun s => if maskHas m s then y.slot s else x.slot s

/-! ### The selectors and masks the point sequences name (R134) -/

def selBADC : BitVec 8 := 0xB1#8
def selABAB : BitVec 8 := 0x44#8
def selABDC : BitVec 8 := 0xB4#8
def selAAAA : BitVec 8 := 0x00#8
def selBBBB : BitVec 8 := 0x55#8
def selCACA : BitVec 8 := 0x22#8
def selDBBD : BitVec 8 := 0xD7#8
def selADDA : BitVec 8 := 0x3C#8
def selCBCB : BitVec 8 := 0x66#8
def maskC : BitVec 4 := 0b0100#4
def maskD : BitVec 4 := 0b1000#4
def maskAB : BitVec 4 := 0b0011#4
def maskAC : BitVec 4 := 0b0101#4
def maskAD : BitVec 4 := 0b1001#4
def maskBC : BitVec 4 := 0b0110#4
def maskABCD : BitVec 4 := 0b1111#4

end Sys2Proof.Machine
end

