-- ==== Sys2Proof/Machine/Ops.lean ====
section
/-! DEFINITION. The named operations over registers and memory that the meanings share: reading and writing a field
register, reading and writing limb memory, completing a command, taking a fault (60_exceptions.md R203), reset
(70_reset_and_hazards.md R220). -/

namespace Sys2Proof.Machine

/-- F[r] as a command reads it. A written register gives its value; a never-written one gives a free value (R25; log 5),
the same one for every operand of one command that names r (log 6). -/
def State.field (s : State) (r : FReg) : Vfe :=
  if s.written.get r then s.f.get r else Config.unwrittenRegister s.fresh r

/-- F[r] <- v; r is no longer never-written (R25). -/
def State.writeField (s : State) (r : FReg) (v : Vfe) : State :=
  { s with f := s.f.set r.val v r.isLt, written := s.written.set r.val true r.isLt }

/-- LM[a], as a command or the host reads it; a word never written gives a free value (20_memory.md R52; log 7). The spec
is silent on a host read at or beyond LMWORDS, where there is no word (R50): DESIGN CHOICE, such a read answers a free
value too (log 19). A command never reads there, since an address out of range faults first (R54). -/
def State.word (s : State) (a : Nat) : Word :=
  match Memory.lookup s.lm a with
  | some v => v
  | none => Config.unwrittenWord s.fresh a

/-- The last action of every command that completes: pc <- (pc + 1) mod 2^32 (10_state.md R27). -/
def State.complete (s : State) : State := { s with pc := s.pc + 1#32, fresh := s.fresh + 1 }

/-- A command that writes its one destination register and completes (10_state.md R24, R27). -/
def State.retire (s : State) (fd : FReg) (v : Vfe) : Result := .next (s.writeField fd v).complete

/-- TAKING A FAULT (60_exceptions.md R203), as one indivisible step: CAUSE <- c, FINFO <- cw, STATUS.FAULT <- 1; pc, the
field registers and the limb memory unchanged. There is no return from it (R205): only reset leaves the faulted state. -/
def State.takeFault (s : State) (c cw : Word) : State :=
  { s with cause := c, finfo := cw, status := s.status ||| faultBit }

/-- `raise AddressRange(cw)`, for a legal VLD or VST; its command word is the one word that spells it (log 9). -/
def State.raiseAddressRange (s : State) (i : Instr) : Result := .next (s.takeFault causeAddressRange (encode i))

/-- `raise IllegalCommand(cw)` (60_exceptions.md R201). -/
def State.raiseIllegalCommand (s : State) (cw : Word) : Result := .next (s.takeFault causeIllegalCommand cw)

/-- addr + 40 <= LMWORDS: the 40 words at addr exist (20_memory.md R54). -/
def State.inRange (s : State) (addr : BitVec 16) : Bool := decide (addr.toNat + 40 ≤ s.cfg.lmWords)

/-- MemRead(addr, 40) as a VFE: limb i of slot s is LM[addr + 10*s + i] (R136). -/
def State.loadVfe (s : State) (addr : BitVec 16) : Vfe := ofImage fun k => s.word (addr.toNat + k)

/-- The state with another limb memory. -/
def State.withLm (s : State) (m : List Cell) : State := { s with lm := m }

/-- MemWrite(addr, 40, v) (R137). -/
def State.storeVfe (s : State) (addr : BitVec 16) (v : Vfe) : State :=
  s.withLm (Memory.storeWords s.lm addr.toNat (imageOf v))

/-- RESET (70_reset_and_hazards.md R220): pc, STATUS, CAUSE, FINFO 0; every field register never-written; the limb memory
not touched. What the registers are stored as is the model's (log 5); the free values move on (log 8). -/
def State.applyReset (s : State) : State :=
  { s with
    f := Vector.replicate 16 unwrittenContent
    written := Vector.replicate 16 false
    pc := 0#32
    status := 0#32
    cause := 0#32
    finfo := 0#32
    fresh := s.fresh + 1 }

/-- The host writes one word of the limb memory (20_memory.md R60). -/
def State.hostStore (s : State) (a : Nat) (v : Word) : State := s.withLm (Memory.store s.lm a v)

end Sys2Proof.Machine
end

