-- ==== Sys2Proof/Machine/Field.lean ====
section
/-! DEFINITION. The field commands (40_field_ops.md R102 to R110): each reads its sources, computes all 40 words and
writes fd (10_state.md R24); none can fault (R101) and none writes a flag (10_state.md R32). -/

namespace Sys2Proof.Machine

/-- VADD Fd, Fa, Fb (R102). -/
def execVadd (fd fa fb : FReg) (s : State) : Result := s.retire fd (vaddFn (s.field fa) (s.field fb))

/-- VSUB.P2 Fd, Fa, Fb (R103). -/
def execVsubP2 (fd fa fb : FReg) (s : State) : Result := s.retire fd (vsubFn multipleP2 (s.field fa) (s.field fb))

/-- VSUB.P16 Fd, Fa, Fb (R103). -/
def execVsubP16 (fd fa fb : FReg) (s : State) : Result := s.retire fd (vsubFn multipleP16 (s.field fa) (s.field fb))

/-- VNEG.P2 Fd, Fa, m (R104). -/
def execVnegP2 (fd fa : FReg) (m : BitVec 4) (s : State) : Result := s.retire fd (vnegFn multipleP2 (s.field fa) m)

/-- VNEG.P16 Fd, Fa, m (R104). -/
def execVnegP16 (fd fa : FReg) (m : BitVec 4) (s : State) : Result := s.retire fd (vnegFn multipleP16 (s.field fa) m)

/-- VMUL Fd, Fa, Fb (R107). -/
def execVmul (fd fa fb : FReg) (s : State) : Result := s.retire fd (vmulFn (s.field fa) (s.field fb))

/-- VSQ Fd, Fa (R108). -/
def execVsq (fd fa : FReg) (s : State) : Result := s.retire fd (vsqFn (s.field fa))

/-- VRED.L Fd, Fa (R109). -/
def execVredL (fd fa : FReg) (s : State) : Result := s.retire fd (vredLFn (s.field fa))

/-- VRED.F Fd, Fa (R110). -/
def execVredF (fd fa : FReg) (s : State) : Result := s.retire fd (vredFFn (s.field fa))

end Sys2Proof.Machine
end

