-- ==== Sys2Proof/Machine/Rom.lean ====
section
/-! DEFINITION. The constant ROM (20_memory.md R56; 43_rom_contents.md R180 to R189): 22 VFEs at indices 0..5 and 8..23,
the limbs as the spec prints them; reserved indices hold nothing (R189). Fixed, the same after every reset, written by
nothing (10_state.md R34), so it is a constant and no field of State (log 12). -/

namespace Sys2Proof.Machine

/-- A limb vector whose limbs above limb 0 are zero. -/
def small (n : Word) : LimbVec := ⟨n, 0, 0, 0, 0, 0, 0, 0, 0, 0⟩

/-- The same limb vector in all four slots. -/
def allSlots (x : LimbVec) : Vfe := Vfe.ofSlots fun _ => x

/-- kp(2, .), value 2p, as 43_rom_contents.md R181 prints it. -/
def limbsP2 : LimbVec :=
  ⟨0x07FFFFDA, 0x03FFFFFE, 0x07FFFFFE, 0x03FFFFFE, 0x07FFFFFE, 0x03FFFFFE, 0x07FFFFFE, 0x03FFFFFE, 0x07FFFFFE, 0x03FFFFFE⟩

/-- kp(16, .), value 16p, as R181 prints it. -/
def limbsP16 : LimbVec :=
  ⟨0x3FFFFED0, 0x1FFFFFF0, 0x3FFFFFF0, 0x1FFFFFF0, 0x3FFFFFF0, 0x1FFFFFF0, 0x3FFFFFF0, 0x1FFFFFF0, 0x3FFFFFF0, 0x1FFFFFF0⟩

/-- ROM[2] = P2 (R181). -/
def romP2 : Vfe := allSlots limbsP2

/-- ROM[3] = P16 (R181). -/
def romP16 : Vfe := allSlots limbsP16

/-- ROM[0] = ZERO (R183). -/
def romZero : Vfe :=
  ⟨small 0#32,
   small 0#32,
   small 0#32,
   small 0#32⟩

/-- ROM[1] = ONE (R183). -/
def romOne : Vfe :=
  ⟨small 1#32,
   small 1#32,
   small 1#32,
   small 1#32⟩

/-- ROM[4] = KCACHE = (1, 1, 2, 2d mod p) (R183). -/
def romKcache : Vfe :=
  ⟨small 1#32,
   small 1#32,
   small 2#32,
   ⟨0x02B2F159, 0x01A6E509, 0x022ADD7A, 0x00D4141D, 0x00038052, 0x00F3D130, 0x03407977, 0x019CE331, 0x01C56DFF, 0x00901B67⟩⟩

/-- ROM[5] = IDENT = (0, 1, 1, 0), the identity point (R183). -/
def romIdent : Vfe :=
  ⟨small 0#32,
   small 1#32,
   small 1#32,
   small 0#32⟩

/-- ROM[8] = T[0] = 1B as (x, y, 1, x*y) (R185). -/
def romT0 : Vfe :=
  ⟨⟨0x0325D51A, 0x018B5823, 0x00F6592A, 0x0104A92D, 0x01A4B31D, 0x01D6DC5C, 0x027118FE, 0x007FD814, 0x013CD6E5, 0x0085A4DB⟩,
   ⟨0x02666658, 0x01999999, 0x00CCCCCC, 0x01333333, 0x01999999, 0x00666666, 0x03333333, 0x00CCCCCC, 0x02666666, 0x01999999⟩,
   small 1#32,
   ⟨0x01B7DDA3, 0x01A2ACE9, 0x025EADBB, 0x0003BA8A, 0x0083C27E, 0x00ABE37D, 0x01274732, 0x00CCACDD, 0x00FD78B7, 0x019E1D7C⟩⟩

/-- ROM[9] = T[1] = 3B as (x, y, 1, x*y) (R185). -/
def romT1 : Vfe :=
  ⟨⟨0x03F8E25C, 0x009217F4, 0x0110D58C, 0x00CC0B12, 0x018D0E60, 0x00DAC83A, 0x02573A1F, 0x01E923FE, 0x00A22928, 0x019EBA71⟩,
   ⟨0x00F5B4D4, 0x00DA121E, 0x00608058, 0x00BB3920, 0x027C5BB0, 0x00269EF7, 0x0350C730, 0x01357424, 0x01177EE6, 0x00499EC7⟩,
   small 1#32,
   ⟨0x00B3A41A, 0x00423E9E, 0x038959BF, 0x005FD8B7, 0x01709CD6, 0x01B91527, 0x039BC1D6, 0x00A21D7D, 0x01CB1DD9, 0x00A93409⟩⟩

/-- ROM[10] = T[2] = 5B as (x, y, 1, x*y) (R185). -/
def romT2 : Vfe :=
  ⟨⟨0x022EF233, 0x0027300C, 0x0034B228, 0x01C9F0DF, 0x0170A067, 0x012DA5DE, 0x03BE7BE8, 0x010F7F9D, 0x03EADE35, 0x0127F69C⟩,
   ⟨0x0276C8ED, 0x0087E0F5, 0x016BA21A, 0x00544A18, 0x00C4A0BB, 0x01924666, 0x02370A44, 0x01CDFC05, 0x03298FEA, 0x017D2096⟩,
   small 1#32,
   ⟨0x03E801D0, 0x00542F3C, 0x00D7EC83, 0x00280049, 0x02BEE53A, 0x0136C7F9, 0x00752843, 0x01A9862C, 0x02C9C593, 0x01D17158⟩⟩

/-- ROM[11] = T[3] = 7B as (x, y, 1, x*y) (R185). -/
def romT3 : Vfe :=
  ⟨⟨0x010E4107, 0x016606BD, 0x01D2AB0A, 0x019DDF8E, 0x020FA027, 0x011D8107, 0x01F70CA5, 0x01A9DD3C, 0x005FCF4B, 0x00515A1A⟩,
   ⟨0x034062B8, 0x01312D67, 0x0247A258, 0x0037BD5F, 0x03C220AD, 0x0136AD41, 0x0332346E, 0x00A5F0F9, 0x0232B47D, 0x00C7158F⟩,
   small 1#32,
   ⟨0x0187ED1B, 0x01515595, 0x009C8217, 0x0150F4D5, 0x014A518C, 0x01D5BAB4, 0x0016E2C4, 0x01C3737D, 0x0311D165, 0x004679DE⟩⟩

/-- ROM[12] = T[4] = 9B as (x, y, 1, x*y) (R185). -/
def romT4 : Vfe :=
  ⟨⟨0x0185715C, 0x0008C194, 0x00529A7C, 0x00E17270, 0x021B6039, 0x019422B8, 0x019B7037, 0x002CA37E, 0x030C8007, 0x00D5F325⟩,
   ⟨0x0122F1C0, 0x01912115, 0x008618E9, 0x00991B72, 0x007DE240, 0x00F2D2FD, 0x037E74AB, 0x01BE9657, 0x002C2DD0, 0x01FCF48F⟩,
   small 1#32,
   ⟨0x00B2F465, 0x00CE1BE2, 0x024FCB87, 0x0107BB81, 0x005ECF52, 0x0147CD74, 0x033B56FB, 0x017F3B6C, 0x008EA87C, 0x0171C3F1⟩⟩

/-- ROM[13] = T[5] = 11B as (x, y, 1, x*y) (R185). -/
def romT5 : Vfe :=
  ⟨⟨0x007CF3CB, 0x01F4B048, 0x02AA5FE5, 0x01962C9E, 0x034E0696, 0x00712438, 0x0383C6EB, 0x0082F6D9, 0x031154BE, 0x005394A2⟩,
   ⟨0x02033713, 0x01CB70DA, 0x031A8611, 0x00E1E4E2, 0x00496164, 0x00FF0FCE, 0x03BE71A0, 0x0172EB4D, 0x0313F21A, 0x00B64208⟩,
   small 1#32,
   ⟨0x035BEED4, 0x0173CBB6, 0x0106FD70, 0x00EF0C7E, 0x01640007, 0x0016ADBF, 0x01535F79, 0x01144739, 0x025800F2, 0x016B9A95⟩⟩

/-- ROM[14] = T[6] = 13B as (x, y, 1, x*y) (R185). -/
def romT6 : Vfe :=
  ⟨⟨0x03C05FED, 0x00381CED, 0x02F706F0, 0x01446915, 0x02210F8F, 0x002D304F, 0x01D6F814, 0x00D99B66, 0x020D5F36, 0x0041D09F⟩,
   ⟨0x02401F80, 0x01F86BBA, 0x00E470FD, 0x019144D1, 0x00DD033E, 0x00DA89B8, 0x03301169, 0x016E8F08, 0x00DED538, 0x004B6EC0⟩,
   small 1#32,
   ⟨0x00DE2F53, 0x0137337A, 0x01DF8A45, 0x008F5974, 0x016C52A9, 0x01562338, 0x006EB0E6, 0x008C18B8, 0x03917BE6, 0x0104A01A⟩⟩

/-- ROM[15] = T[7] = 15B as (x, y, 1, x*y) (R185). -/
def romT7 : Vfe :=
  ⟨⟨0x02A18DC1, 0x005FCF99, 0x0139720C, 0x01A3B80C, 0x03658C4D, 0x0120419E, 0x01637CAE, 0x0086BB8B, 0x02AEC2EC, 0x013C58B7⟩,
   ⟨0x012E5CDF, 0x0153312B, 0x0354328D, 0x00C50CD4, 0x02B396BC, 0x00D29331, 0x017B80B2, 0x005EAA2C, 0x02D04FF2, 0x004B2FEC⟩,
   small 1#32,
   ⟨0x0092BF29, 0x015FCCD7, 0x00BEA281, 0x007F2057, 0x03E98EDA, 0x01760DE2, 0x027E9120, 0x00923564, 0x00E36B77, 0x0178CFC0⟩⟩

/-- ROM[16] = TC[0], the cached form of 1B (R186). -/
def romTC0 : Vfe :=
  ⟨⟨0x0340913E, 0x000E4175, 0x03D673A2, 0x002E8A05, 0x03F4E67C, 0x008F8A09, 0x00C21A34, 0x004CF4B8, 0x01298F81, 0x0113F4BE⟩,
   ⟨0x018C3B85, 0x0124F1BD, 0x01C325F7, 0x0037DC60, 0x033E4CB7, 0x003D42C2, 0x01A44C32, 0x014CA4E1, 0x03A33D4B, 0x001F3E74⟩,
   small 2#32,
   ⟨0x037AAA68, 0x00448161, 0x0093D579, 0x011E6556, 0x009B67A0, 0x0143598C, 0x01BEE5EE, 0x00B50B43, 0x0289F0C6, 0x01BC45ED⟩⟩

/-- ROM[17] = TC[1], the cached form of 3B (R186). -/
def romTC1 : Vfe :=
  ⟨⟨0x00FCD265, 0x0047FA29, 0x034FAACC, 0x01EF2E0D, 0x00EF4D4F, 0x014BD6BD, 0x00F98D10, 0x014C5026, 0x007555BD, 0x00AAE456⟩,
   ⟨0x00EE9730, 0x016C2A13, 0x017155E4, 0x01874432, 0x00096A10, 0x01016732, 0x01A8014F, 0x011E9823, 0x01B9A80F, 0x01E85938⟩,
   small 2#32,
   ⟨0x01D0D889, 0x01A4CFC3, 0x034C4295, 0x0110E1AE, 0x0162508C, 0x00F2DB4C, 0x0072A2C6, 0x0098DA2E, 0x02F12B9B, 0x0168A09A⟩⟩

/-- ROM[18] = TC[2], the cached form of 5B (R186). -/
def romTC2 : Vfe :=
  ⟨⟨0x0047D6BA, 0x0060B0E9, 0x0136EFF2, 0x008A5939, 0x03540053, 0x0064A087, 0x02788E5C, 0x00BE7C67, 0x033EB1B5, 0x005529F9⟩,
   ⟨0x00A5BB33, 0x00AF1102, 0x01A05442, 0x001E3AF7, 0x02354123, 0x00BFEC44, 0x01F5862D, 0x00DD7BA3, 0x03146E20, 0x00A51733⟩,
   small 2#32,
   ⟨0x012A8285, 0x00F6FC60, 0x023F9797, 0x003E85EE, 0x009C3820, 0x01BDA72D, 0x01B3858D, 0x00D35683, 0x0296B3BB, 0x010EAAF9⟩⟩

/-- ROM[19] = TC[3], the cached form of 7B (R186). -/
def romTC3 : Vfe :=
  ⟨⟨0x023221B1, 0x01CB26AA, 0x0074F74D, 0x0099DDD1, 0x01B28085, 0x00192C3A, 0x013B27C9, 0x00FC13BD, 0x01D2E531, 0x0075BB75⟩,
   ⟨0x004EA3BF, 0x00973425, 0x001A4D63, 0x01D59CEE, 0x01D1C0D4, 0x00542E49, 0x01294114, 0x004FCE36, 0x029283C9, 0x01186FA9⟩,
   small 2#32,
   ⟨0x01B8B3A2, 0x00DB7200, 0x00935E30, 0x003829F5, 0x02CC0D7D, 0x0077ADF3, 0x0220DD2C, 0x0014EA53, 0x01C6A0F9, 0x01EA7EEC⟩⟩

/-- ROM[20] = TC[4], the cached form of 9B (R186). -/
def romTC4 : Vfe :=
  ⟨⟨0x039D8064, 0x01885F80, 0x00337E6D, 0x01B7A902, 0x02628206, 0x015EB044, 0x01E30473, 0x0191F2D9, 0x011FADC9, 0x01270169⟩,
   ⟨0x02A8632F, 0x0199E2A9, 0x00D8B365, 0x017A8DE2, 0x02994279, 0x0086F5B5, 0x0119E4E3, 0x01EB39D6, 0x0338ADD7, 0x00D2E7B4⟩,
   small 2#32,
   ⟨0x0045AF1B, 0x013A2FE4, 0x0245E0D6, 0x014538CE, 0x038BFE0F, 0x01D4CF16, 0x037E14C9, 0x0160D55E, 0x0021B008, 0x01CF05C8⟩⟩

/-- ROM[21] = TC[5], the cached form of 11B (R186). -/
def romTC5 : Vfe :=
  ⟨⟨0x01864348, 0x01D6C092, 0x0070262B, 0x014BB844, 0x00FB5ACD, 0x008DEB95, 0x003AAAB5, 0x00EFF474, 0x00029D5C, 0x0062AD66⟩,
   ⟨0x02802ADE, 0x01C02122, 0x01C4E5F7, 0x00781181, 0x039767FB, 0x01703406, 0x0342388B, 0x01F5E227, 0x022546D8, 0x0109D6AB⟩,
   small 2#32,
   ⟨0x016089E9, 0x00CB317F, 0x00949B05, 0x01099417, 0x000C7AD2, 0x011A8622, 0x0088CCDA, 0x01290886, 0x022B53DF, 0x00F71954⟩⟩

/-- ROM[22] = TC[6], the cached form of 13B (R186). -/
def romTC6 : Vfe :=
  ⟨⟨0x027FBF93, 0x01C04ECC, 0x01ED6A0D, 0x004CDBBB, 0x02BBF3AF, 0x00AD5968, 0x01591955, 0x0094F3A2, 0x02D17602, 0x00099E20⟩,
   ⟨0x02007F6D, 0x003088A8, 0x03DB77EE, 0x00D5ADE6, 0x02FE12CE, 0x0107BA07, 0x0107097D, 0x00482A6F, 0x02EC346F, 0x008D3F5F⟩,
   small 2#32,
   ⟨0x032EA378, 0x0028465C, 0x028E2A6C, 0x018EFC6E, 0x0090DF9A, 0x01A7E533, 0x039BFC48, 0x010C745D, 0x03DAA097, 0x0125EE9B⟩⟩

/-- ROM[23] = TC[7], the cached form of 15B (R186). -/
def romTC7 : Vfe :=
  ⟨⟨0x028CCF0B, 0x00F36191, 0x021AC081, 0x012154C8, 0x034E0A6E, 0x01B25192, 0x00180403, 0x01D7EEA1, 0x00218D05, 0x010ED735⟩,
   ⟨0x03CFEAA0, 0x01B300C4, 0x008DA499, 0x0068C4E1, 0x0219230A, 0x01F2D4D0, 0x02DEFD60, 0x00E565B7, 0x017F12DE, 0x018788A4⟩,
   small 2#32,
   ⟨0x03D0B516, 0x009D8BE6, 0x03DDCBB3, 0x0071B9FE, 0x03ACE2BD, 0x01D64270, 0x032D3EC9, 0x01084065, 0x0210AE4D, 0x01447584⟩⟩

/-- ROM[e], none for the reserved indices 6, 7 and 24..31 (R56, R189). -/
def rom (e : BitVec 5) : Option Vfe :=
  match e.toNat with
  | 0 => some romZero
  | 1 => some romOne
  | 2 => some romP2
  | 3 => some romP16
  | 4 => some romKcache
  | 5 => some romIdent
  | 8 => some romT0
  | 9 => some romT1
  | 10 => some romT2
  | 11 => some romT3
  | 12 => some romT4
  | 13 => some romT5
  | 14 => some romT6
  | 15 => some romT7
  | 16 => some romTC0
  | 17 => some romTC1
  | 18 => some romTC2
  | 19 => some romTC3
  | 20 => some romTC4
  | 21 => some romTC5
  | 22 => some romTC6
  | 23 => some romTC7
  | _ => none

/-! ### The numbers the spec prints beside the limbs (R182, R184, R185) -/

/-- d = -121665/121666 mod p (R182); used by no command, but by the curve equation. -/
def curveD : Nat := 0x52036cee2b6ffe738cc740797779e89800700a4d4141d8ab75eb4dca135978a3

/-- 2d mod p (R182). -/
def curveTwoD : Nat := 0x2406d9dc56dffce7198e80f2eef3d13000e0149a8283b156ebd69b9426b2f159

/-- The affine coordinates (x_i, y_i) of (2i+1)B, i = 0..7 (R185; i = 0 is the base point of R184). -/
def tablePoint : Fin 8 → Nat × Nat
  | 0 => (0x216936d3cd6e53fec0a4e231fdd6dc5c692cc7609525a7b2c9562d608f25d51a,
      0x6666666666666666666666666666666666666666666666666666666666666658)
  | 1 => (0x67ae9c4a22928f491ff4ae743edac83a6343981981624886ac62485fd3f8e25c,
      0x1267b1d177ee69aba126a18e60269ef79f16ec176724030402c3684878f5b4d4)
  | 2 => (0x49fda73eade3587bfcef7cf7d12da5de5c2819f93e1be1a591409cc0322ef233,
      0x5f4825b298feae6fe02c6e148992466631282eca89430b5d10d21f83d676c8ed)
  | 3 => (0x14568685fcf4bd4ee9e3ee194b1d810783e809f3bbf1ce955855981af50e4107,
      0x31c563e32b47d52f87ce6468dd36ad41f0882b46f7abf23d12c4c4b59f4062b8)
  | 4 => (0x357cc970c80071651bf336e06f9422b886d80e5c2e4e0294d3e023065185715c,
      0x7f3d23c2c2dd0df4b2befce956f2d2fd1f789013236e4430c74e44845522f1c0)
  | 5 => (0x14e528b1154be417b6cf078dd6712438d381a5b2c593d552ff2fd2c1207cf3cb,
      0x2d9082313f21ab975a6f7ce340ff0fce1258591c3c9c58d4308f2dc36a033713)
  | 6 => (0x107427e0d5f366ccdb33adf0282d304f8843e3e88d22b7b83780e073b7c05fed,
      0x12dbb00ded538b7478466022d2da89b83740cfb2289a272387efe1aeea401f80)
  | 7 => (0x4f162deaec2ec435dc5ac6f95d20419ed9631374770189cb90617f3e66a18dc1,
      0x12cbfb2d04ff22f55162f70164d29331ace5af18a19a9aa1946d4cc4ad2e5cdf)

end Sys2Proof.Machine
end

