-- ==== Sys2Proof/Machine/Point.lean ====
section
/-! DEFINITION. The point commands (42_point_ops.md R150 to R158): each is the fixed sequence of field and lane functions
the spec prints, on temporaries that exist only inside the command (R150); total and exact for every input, point or not. -/

namespace Sys2Proof.Machine

/-- DiffSum(a) (R153): slots (B - A, B + A, D - C, D + C). -/
def diffSum (a : Vfe) : Vfe := vaddFn (vshufFn a selBADC) (vnegFn multipleP2 a maskAC)

/-- Dbl(a), lines 1 to 5: slots (X, Y, Z, X + Y) squared, (S1, S2, S3, S4) (R154). -/
def dblSquares (a : Vfe) : Vfe :=
  let t0 := vshufFn a selABAB
  let t1 := vshufFn t0 selBADC
  let t2 := vaddFn t0 t1
  vsqFn (vblendFn a t2 maskD)

/-- Dbl(a), lines 6 to 17: from the squares to (S5, S6, S8, S9) (R154). -/
def dblSums (squares : Vfe) : Vfe :=
  let t1 := vnegFn multipleP2 squares maskD
  let s1 := vshufFn t1 selAAAA
  let s2 := vshufFn t1 selBBBB
  let t3 := vaddFn t1 t1
  let t0 := vblendFn romZero t3 maskC
  let t0 := vblendFn t0 t1 maskD
  let t0 := vaddFn t0 s1
  let t4 := vblendFn romZero s2 maskAD
  let t0 := vaddFn t0 t4
  let n2 := vnegFn multipleP2 s2 maskABCD
  let t4 := vblendFn romZero n2 maskBC
  vaddFn t0 t4

/-- Dbl(a) (R154): lines 18 to 20, one VMUL of two shuffles of the sums. -/
def dbl (a : Vfe) : Vfe :=
  let t0 := dblSums (dblSquares a)
  vmulFn (vshufFn t0 selCACA) (vshufFn t0 selDBBD)

/-- Cache(a) (R155): slots (Y - X, Y + X, 2Z, 2dT). -/
def cache (a : Vfe) : Vfe := vmulFn (vblendFn a (diffSum a) maskAB) romKcache

/-- AddC(a, c), lines 1 to 4: slots (E, H, F, G) (R156). -/
def addcSums (a c : Vfe) : Vfe :=
  let t := vblendFn a (diffSum a) maskAB
  let t := vmulFn t c
  let t := vshufFn t selABDC
  diffSum t

/-- AddC(a, c) (R156): lines 5 to 7. -/
def addC (a c : Vfe) : Vfe :=
  let t := addcSums a c
  vmulFn (vshufFn t selADDA) (vshufFn t selCBCB)

/-- PNEG's words (R158): slots A and D negated with 2p, then one lazy reduction of every slot. -/
def pnegFn (a : Vfe) : Vfe := vredLFn (vnegFn multipleP2 a maskAD)

/-- PDBL Fd, Fa (R154). -/
def execPdbl (fd fa : FReg) (s : State) : Result := s.retire fd (dbl (s.field fa))

/-- PADD Fd, Fa, Fb (R157): PCACHE of the second operand, then PADDC. -/
def execPadd (fd fa fb : FReg) (s : State) : Result := s.retire fd (addC (s.field fa) (cache (s.field fb)))

/-- PADDC Fd, Fa, Fc (R156). -/
def execPaddc (fd fa fc : FReg) (s : State) : Result := s.retire fd (addC (s.field fa) (s.field fc))

/-- PCACHE Fd, Fa (R155). -/
def execPcache (fd fa : FReg) (s : State) : Result := s.retire fd (cache (s.field fa))

/-- PNEG Fd, Fa (R158). -/
def execPneg (fd fa : FReg) (s : State) : Result := s.retire fd (pnegFn (s.field fa))

end Sys2Proof.Machine
end

