-- ==== Sys2Proof/Machine/Transfer.lean ====
section
/-! DEFINITION. The lane and transfer commands (41_lane_and_transfer_ops.md R134 to R138): they move whole slots, look at
no limb, and take every selector, mask, index and address from the command word (R133). -/

namespace Sys2Proof.Machine

/-- VSHUF Fd, Fa, wxyz (R134). -/
def execVshuf (fd fa : FReg) (sel : BitVec 8) (s : State) : Result := s.retire fd (vshufFn (s.field fa) sel)

/-- VBLEND Fd, Fa, Fb, m (R135). -/
def execVblend (fd fa fb : FReg) (m : BitVec 4) (s : State) : Result :=
  s.retire fd (vblendFn (s.field fa) (s.field fb) m)

/-- VLD Fd, #addr (R136): AddressRange when addr + 40 > LMWORDS, with no register changed. -/
def execVld (fr : FReg) (addr : BitVec 16) (s : State) : Result :=
  if s.inRange addr then s.retire fr (s.loadVfe addr) else s.raiseAddressRange (.vld fr addr)

/-- VST Fs, #addr (R137): AddressRange when addr + 40 > LMWORDS, with no word changed; no register changes either way. -/
def execVst (fr : FReg) (addr : BitVec 16) (s : State) : Result :=
  if s.inRange addr then .next (s.storeVfe addr (s.field fr)).complete else s.raiseAddressRange (.vst fr addr)

/-- VLDC Fd, #e (R138). The decoder lets no reserved index through; given one, the command is the illegal word that
spells it (20_memory.md R56: "VLDC with a reserved index raises IllegalCommand"). -/
def execVldc (fd : FReg) (e : BitVec 5) (s : State) : Result :=
  match rom e with
  | some v => s.retire fd v
  | none => s.raiseIllegalCommand (encode (.vldc fd e))

end Sys2Proof.Machine
end

