-- ==== Sys2Proof/Machine/Dispatch.lean ====
section
/-! DEFINITION. One arm per command: what it does to the state. Whether the unit executes the command at all (it discards
commands while FAULT = 1, 60_exceptions.md R204) is Machine/Port.lean's. -/

namespace Sys2Proof.Machine

def exec (i : Instr) (s : State) : Host.Outcome State Fault Refusal :=
  match i with
  -- 40_field_ops.md
  | .vadd fd fa fb => Sys2Proof.Machine.execVadd fd fa fb s
  | .vsubP2 fd fa fb => Sys2Proof.Machine.execVsubP2 fd fa fb s
  | .vsubP16 fd fa fb => Sys2Proof.Machine.execVsubP16 fd fa fb s
  | .vnegP2 fd fa m => Sys2Proof.Machine.execVnegP2 fd fa m s
  | .vnegP16 fd fa m => Sys2Proof.Machine.execVnegP16 fd fa m s
  | .vmul fd fa fb => Sys2Proof.Machine.execVmul fd fa fb s
  | .vsq fd fa => Sys2Proof.Machine.execVsq fd fa s
  | .vredL fd fa => Sys2Proof.Machine.execVredL fd fa s
  | .vredF fd fa => Sys2Proof.Machine.execVredF fd fa s
  -- 41_lane_and_transfer_ops.md
  | .vshuf fd fa sel => Sys2Proof.Machine.execVshuf fd fa sel s
  | .vblend fd fa fb m => Sys2Proof.Machine.execVblend fd fa fb m s
  | .vld fr addr => Sys2Proof.Machine.execVld fr addr s
  | .vst fr addr => Sys2Proof.Machine.execVst fr addr s
  | .vldc fd e => Sys2Proof.Machine.execVldc fd e s
  -- 42_point_ops.md
  | .pdbl fd fa => Sys2Proof.Machine.execPdbl fd fa s
  | .padd fd fa fb => Sys2Proof.Machine.execPadd fd fa fb s
  | .paddc fd fa fc => Sys2Proof.Machine.execPaddc fd fa fc s
  | .pcache fd fa => Sys2Proof.Machine.execPcache fd fa s
  | .pneg fd fa => Sys2Proof.Machine.execPneg fd fa s

end Sys2Proof.Machine
end

