-- ==== Sys2Proof/Machine/Port.lean ====
section
/-! DEFINITION. What the unit does with one move of the host (20_memory.md R59, R60): a command word is discarded while
FAULT = 1 (60_exceptions.md R204), else decoded first (R202) and executed; the other moves are the host's own. -/

namespace Sys2Proof.Machine

/-- One command word on the command port. -/
def State.runCommand (s : State) (cw : Word) : Result :=
  if s.faulted then .next s
  else
    match decode cw with
    | .ok i => exec i s
    | .error _ => s.raiseIllegalCommand cw

/-- One move of the host. A write of a status register is ignored (10_state.md R28); a write of a limb-memory word that
does not exist is no move the spec gives (log 11). -/
def State.perform (s : State) : HostMove → Result
  | .issue cw => s.runCommand cw
  | .writeLm a v => if a < s.cfg.lmWords then .next (s.hostStore a v) else .fault (.hostWordOutsideMemory a)
  | .writeStatus _ _ => .next s
  | .reset => .next s.applyReset

/-- The command word, put at the head of the host's moves: the next thing the unit is given. -/
def State.issueNext (s : State) (cw : Word) : State := { s with port := .issue cw :: s.port }

end Sys2Proof.Machine
end

