-- ==== Sys2Proof/Machine/Step.lean ====
section
/-! DEFINITION. One step of the machine: the host's next move, taken from the port, or nothing while the host issues
nothing (70_reset_and_hazards.md R221: the unit "waits for the host's first command"). -/

namespace Sys2Proof.Machine

def step (s : State) : Host.Outcome State Fault Refusal :=
  match s.port with
  | [] => .next s
  | m :: rest => State.perform { s with port := rest } m

/-- s with a table word issued as the host's very next move, so that `step` decodes and runs exactly it. Commands are not
fetched from a memory (20_memory.md R63): this stands for the host issuing the word (log 1). -/
def State.withFetchWord (s : State) (nbits w : Nat) : State := s.issueNext (tableWord nbits w)

end Sys2Proof.Machine
end

