-- ==== Sys2Proof/Machine/Asm.lean ====
section
/-! DEFINITION. The assembler syntax of commands and pseudo-commands (30_encoding.md R79, R80): `MNEMONIC[.QUAL] operands`,
operands separated by commas; printed by asm, read by assemble. -/

namespace Sys2Proof.Machine

/-- A field register, F0 .. F15. -/
def asmReg (r : FReg) : String := "F" ++ toString r.val

/-- The slot letters in the order A, B, C, D. -/
def slotLetter : Nat → String
  | 0 => "A" | 1 => "B" | 2 => "C" | _ => "D"

/-- A slot mask: the letters of the selected slots, or 0 for the empty mask. -/
def asmMask (m : BitVec 4) : String :=
  if m = 0#4 then "0"
  else String.join ((List.range 4).map fun k => if m.getLsbD k then slotLetter k else "")

/-- A shuffle selector: the four letters naming the sources of A, B, C, D. -/
def asmSel (sel : BitVec 8) : String :=
  String.join ((List.range 4).map fun k => slotLetter ((sel.extractLsb' (2 * k) 2).toNat))

/-- An immediate: # and a decimal number. -/
def asmImm (n : Nat) : String := "#" ++ toString n

/-- A mnemonic with its operands. -/
def asmLine (mnemonic : String) (operands : List String) : String := mnemonic ++ " " ++ String.intercalate ", " operands

/-- The spelling of a command (the table of R79). -/
def asm : Instr → String
  | .vadd fd fa fb => asmLine "VADD" [asmReg fd, asmReg fa, asmReg fb]
  | .vsubP2 fd fa fb => asmLine "VSUB.P2" [asmReg fd, asmReg fa, asmReg fb]
  | .vsubP16 fd fa fb => asmLine "VSUB.P16" [asmReg fd, asmReg fa, asmReg fb]
  | .vnegP2 fd fa m => asmLine "VNEG.P2" [asmReg fd, asmReg fa, asmMask m]
  | .vnegP16 fd fa m => asmLine "VNEG.P16" [asmReg fd, asmReg fa, asmMask m]
  | .vmul fd fa fb => asmLine "VMUL" [asmReg fd, asmReg fa, asmReg fb]
  | .vsq fd fa => asmLine "VSQ" [asmReg fd, asmReg fa]
  | .vredL fd fa => asmLine "VRED.L" [asmReg fd, asmReg fa]
  | .vredF fd fa => asmLine "VRED.F" [asmReg fd, asmReg fa]
  | .vshuf fd fa sel => asmLine "VSHUF" [asmReg fd, asmReg fa, asmSel sel]
  | .vblend fd fa fb m => asmLine "VBLEND" [asmReg fd, asmReg fa, asmReg fb, asmMask m]
  | .vld fr addr => asmLine "VLD" [asmReg fr, asmImm addr.toNat]
  | .vst fr addr => asmLine "VST" [asmReg fr, asmImm addr.toNat]
  | .vldc fd e => asmLine "VLDC" [asmReg fd, asmImm e.toNat]
  | .pdbl fd fa => asmLine "PDBL" [asmReg fd, asmReg fa]
  | .padd fd fa fb => asmLine "PADD" [asmReg fd, asmReg fa, asmReg fb]
  | .paddc fd fa fc => asmLine "PADDC" [asmReg fd, asmReg fa, asmReg fc]
  | .pcache fd fa => asmLine "PCACHE" [asmReg fd, asmReg fa]
  | .pneg fd fa => asmLine "PNEG" [asmReg fd, asmReg fa]

/-- The spelling of a pseudo-command (the table of R80). -/
def asmPseudo : Pseudo → String
  | .vmov fd fa => asmLine "VMOV" [asmReg fd, asmReg fa]
  | .vzero fd => asmLine "VZERO" [asmReg fd]
  | .vone fd => asmLine "VONE" [asmReg fd]
  | .pident fd => asmLine "PIDENT" [asmReg fd]
  | .plut fd i => asmLine "PLUT" [asmReg fd, asmImm i.val]
  | .plutc fd i => asmLine "PLUTC" [asmReg fd, asmImm i.val]

/-! ### Reading a line -/

/-- The characters before the first `;`, which starts a comment. -/
def dropComment (cs : List Char) : List Char := cs.takeWhile (· ≠ ';')

/-- Without blanks at either end. -/
def trimBlanks (cs : List Char) : List Char :=
  (((cs.dropWhile (· = ' ')).reverse).dropWhile (· = ' ')).reverse

/-- The pieces between commas. -/
def splitCommas : List Char → List (List Char)
  | [] => [[]]
  | c :: cs =>
    if c = ',' then [] :: splitCommas cs
    else
      match splitCommas cs with
      | [] => [[c]]
      | piece :: pieces => (c :: piece) :: pieces

/-- A digit of a number to base 10 or 16. -/
def digitValue (base : Nat) (c : Char) : Option Nat :=
  let n := c.toNat
  let v :=
    if 48 ≤ n ∧ n ≤ 57 then n - 48
    else if 65 ≤ n ∧ n ≤ 70 then n - 55
    else if 97 ≤ n ∧ n ≤ 102 then n - 87
    else base
  if v < base then some v else none

/-- A number, most significant digit first, after what was read of it. -/
def readDigits (base : Nat) : Nat → List Char → Option Nat
  | acc, [] => some acc
  | acc, c :: cs =>
    match digitValue base c with
    | none => none
    | some v => readDigits base (acc * base + v) cs

/-- A decimal number, or a hexadecimal one after 0x; not empty. -/
def readNumber : List Char → Option Nat
  | [] => none
  | ['0', 'x'] => none
  | '0' :: 'x' :: cs => readDigits 16 0 cs
  | cs => readDigits 10 0 cs

/-- `F0` .. `F15`. -/
def readReg (cs : List Char) : Option FReg := (List.finRange 16).find? fun r => (asmReg r).toList = cs

/-- `#` and a number below the bound. -/
def readImm (bound : Nat) : List Char → Option Nat
  | '#' :: cs =>
    match readNumber cs with
    | none => none
    | some n => if n < bound then some n else none
  | _ => none

/-- One of the sixteen masks, spelled in slot order, or 0. -/
def readMask (cs : List Char) : Option (BitVec 4) :=
  ((List.range 16).map (BitVec.ofNat 4)).find? fun m => (asmMask m).toList = cs

/-- The slot code of a letter. -/
def readSlot : Char → Option Nat
  | 'A' => some 0
  | 'B' => some 1
  | 'C' => some 2
  | 'D' => some 3
  | _ => none

/-- Four slot letters: the selector with w in bits 1:0 up to z in bits 7:6 (00_scope.md section 5.3). -/
def readSel : List Char → Option (BitVec 8)
  | [w, x, y, z] =>
    match readSlot w, readSlot x, readSlot y, readSlot z with
    | some w, some x, some y, some z => some (BitVec.ofNat 8 (w + 4 * x + 16 * y + 64 * z))
    | _, _, _, _ => none
  | _ => none

/-- Operands of the form `Fd, Fa`. -/
def readTwo (mk : FReg → FReg → Instr) : List (List Char) → Option Instr
  | [d, a] =>
    match readReg d, readReg a with
    | some d, some a => some (mk d a)
    | _, _ => none
  | _ => none

/-- Operands of the form `Fd, Fa, Fb`. -/
def readThree (mk : FReg → FReg → FReg → Instr) : List (List Char) → Option Instr
  | [d, a, b] =>
    match readReg d, readReg a, readReg b with
    | some d, some a, some b => some (mk d a b)
    | _, _, _ => none
  | _ => none

/-- Operands of the form `Fd`. -/
def readOne (mk : FReg → Instr) : List (List Char) → Option Instr
  | [d] => (readReg d).map mk
  | _ => none

/-- Operands of the form `Fd, Fa, m`. -/
def readTwoMask (mk : FReg → FReg → BitVec 4 → Instr) : List (List Char) → Option Instr
  | [d, a, m] =>
    match readReg d, readReg a, readMask m with
    | some d, some a, some m => some (mk d a m)
    | _, _, _ => none
  | _ => none

/-- Operands of the form `Fd, Fa, Fb, m`. -/
def readThreeMask (mk : FReg → FReg → FReg → BitVec 4 → Instr) : List (List Char) → Option Instr
  | [d, a, b, m] =>
    match readReg d, readReg a, readReg b, readMask m with
    | some d, some a, some b, some m => some (mk d a b m)
    | _, _, _, _ => none
  | _ => none

/-- Operands of the form `Fd, Fa, wxyz`. -/
def readTwoSel (mk : FReg → FReg → BitVec 8 → Instr) : List (List Char) → Option Instr
  | [d, a, sel] =>
    match readReg d, readReg a, readSel sel with
    | some d, some a, some sel => some (mk d a sel)
    | _, _, _ => none
  | _ => none

/-- Operands of the form `Fd, #n`, n below the bound. -/
def readRegImm (bound : Nat) (mk : FReg → Nat → Instr) : List (List Char) → Option Instr
  | [d, n] =>
    match readReg d, readImm bound n with
    | some d, some n => some (mk d n)
    | _, _ => none
  | _ => none

/-- The command a mnemonic with its operands spells: the tables of R79 and R80. -/
def readCommand (mnemonic : String) (ops : List (List Char)) : Option Instr :=
  if mnemonic = "VADD" then readThree .vadd ops
  else if mnemonic = "VSUB.P2" then readThree .vsubP2 ops
  else if mnemonic = "VSUB.P16" then readThree .vsubP16 ops
  else if mnemonic = "VNEG.P2" then readTwoMask .vnegP2 ops
  else if mnemonic = "VNEG.P16" then readTwoMask .vnegP16 ops
  else if mnemonic = "VMUL" then readThree .vmul ops
  else if mnemonic = "VSQ" then readTwo .vsq ops
  else if mnemonic = "VRED.L" then readTwo .vredL ops
  else if mnemonic = "VRED.F" then readTwo .vredF ops
  else if mnemonic = "VSHUF" then readTwoSel .vshuf ops
  else if mnemonic = "VBLEND" then readThreeMask .vblend ops
  else if mnemonic = "VLD" then readRegImm 65536 (fun r n => .vld r (BitVec.ofNat 16 n)) ops
  else if mnemonic = "VST" then readRegImm 65536 (fun r n => .vst r (BitVec.ofNat 16 n)) ops
  else if mnemonic = "VLDC" then readRegImm 32 (fun r n => .vldc r (BitVec.ofNat 5 n)) ops
  else if mnemonic = "PDBL" then readTwo .pdbl ops
  else if mnemonic = "PADD" then readThree .padd ops
  else if mnemonic = "PADDC" then readThree .paddc ops
  else if mnemonic = "PCACHE" then readTwo .pcache ops
  else if mnemonic = "PNEG" then readTwo .pneg ops
  else if mnemonic = "VMOV" then readTwo (fun d a => (Pseudo.vmov d a).expand) ops
  else if mnemonic = "VZERO" then readOne (fun d => (Pseudo.vzero d).expand) ops
  else if mnemonic = "VONE" then readOne (fun d => (Pseudo.vone d).expand) ops
  else if mnemonic = "PIDENT" then readOne (fun d => (Pseudo.pident d).expand) ops
  else if mnemonic = "PLUT" then readRegImm 8 (fun d n => (Pseudo.plut d (Fin.ofNat 8 n)).expand) ops
  else if mnemonic = "PLUTC" then readRegImm 8 (fun d n => (Pseudo.plutc d (Fin.ofNat 8 n)).expand) ops
  else none

/-- The word the assembler emits for a line, none for an assembly error. A VLDC of a reserved index is spelled and
assembled like any other; the unit rejects its word (R78). -/
def assemble (line : String) : Option Word :=
  let cs := trimBlanks (dropComment line.toList)
  let mnemonic := cs.takeWhile (· ≠ ' ')
  let rest := cs.drop mnemonic.length
  (readCommand (String.ofList mnemonic) ((splitCommas rest).map trimBlanks)).map encode

end Sys2Proof.Machine
end

