-- ==== Sys2Proof/Machine/Lanes.lean ====
section
/-! DEFINITION. The physical view of a field register: five vector registers of eight 32-bit lanes (10_state.md R21,
R22). State holds the logical view; this file derives the other from it, so the 1280 bits have one home. -/

namespace Sys2Proof.Machine

/-- slot(n): the slot lane n belongs to, A B A B C D C D (R22). -/
def laneSlot : Fin 8 → Slot
  | 0 => .A | 1 => .B | 2 => .A | 3 => .B | 4 => .C | 5 => .D | 6 => .C | 7 => .D

/-- par(n): 0 for the lanes of limb 2j, 1 for those of limb 2j + 1 (R22). -/
def lanePar : Fin 8 → Fin 2
  | 0 => 0 | 1 => 0 | 2 => 1 | 3 => 1 | 4 => 0 | 5 => 0 | 6 => 1 | 7 => 1

/-- The limb lane n of vector j holds: 2j + par(n) (R22). -/
def laneLimb (j : Fin 5) (n : Fin 8) : Fin 10 := ⟨2 * j.val + (lanePar n).val, by omega⟩

/-- `v.vec[j].lane[n]` (R22). -/
def Lanes.lane (v : Vfe) (j : Fin 5) (n : Fin 8) : Word := v.limb (laneSlot n) (laneLimb j n)

/-- The vector that holds limb i: i div 2 (R22). -/
def limbVector (i : Fin 10) : Fin 5 := ⟨i.val / 2, by omega⟩

/-- The lane that holds limb i of slot s: (s mod 2) + 2 (i mod 2) + 4 (s div 2) (R22). -/
def limbLane (s : Slot) (i : Fin 10) : Fin 8 :=
  ⟨s.code % 2 + 2 * (i.val % 2) + 4 * (s.code / 2), by cases s <;> simp [Slot.code] <;> omega⟩

/-- The VFE whose lanes are given: the way back from the physical view. -/
def Lanes.ofLanes (lane : Fin 5 → Fin 8 → Word) : Vfe :=
  Vfe.ofSlots fun s => Ten.ofFn fun i => lane (limbVector i) (limbLane s i)

/-- Vector register j of a VFE: its eight lanes in order. -/
def Lanes.vec (v : Vfe) (j : Fin 5) : List Word := (List.finRange 8).map (Lanes.lane v j)

/-- P2_LO, vector 0 of ROM[2] (43_rom_contents.md R181). -/
def vecP2Lo : List Word :=
  [0x07FFFFDA#32, 0x07FFFFDA#32, 0x03FFFFFE#32, 0x03FFFFFE#32, 0x07FFFFDA#32, 0x07FFFFDA#32, 0x03FFFFFE#32, 0x03FFFFFE#32]

/-- P2_HI, vectors 1 to 4 of ROM[2] (R181). -/
def vecP2Hi : List Word :=
  [0x07FFFFFE#32, 0x07FFFFFE#32, 0x03FFFFFE#32, 0x03FFFFFE#32, 0x07FFFFFE#32, 0x07FFFFFE#32, 0x03FFFFFE#32, 0x03FFFFFE#32]

/-- P16_LO, vector 0 of ROM[3] (R181). -/
def vecP16Lo : List Word :=
  [0x3FFFFED0#32, 0x3FFFFED0#32, 0x1FFFFFF0#32, 0x1FFFFFF0#32, 0x3FFFFED0#32, 0x3FFFFED0#32, 0x1FFFFFF0#32, 0x1FFFFFF0#32]

/-- P16_HI, vectors 1 to 4 of ROM[3] (R181). -/
def vecP16Hi : List Word :=
  [0x3FFFFFF0#32, 0x3FFFFFF0#32, 0x1FFFFFF0#32, 0x1FFFFFF0#32, 0x3FFFFFF0#32, 0x3FFFFFF0#32, 0x1FFFFFF0#32, 0x1FFFFFF0#32]

/-- The masked variant of a reduction constant (40_field_ops.md R105): kp(k, .) in the slots of m, 0 elsewhere; formed by
gating, not stored. -/
def maskedMultiple (k : Nat) (m : BitVec 4) : Vfe :=
  Vfe.ofSlots fun s => if m.getLsbD s.code then multiple k else small 0#32

end Sys2Proof.Machine
end

