-- ==== Sys2Proof/Safety.lean ====
section
/-! DEFINITION. The terms claims are stated in: magnitude classes (00_scope.md R13), field elements and points
(42_point_ops.md R151, R152, R160), the preconditions a host must meet (70_reset_and_hazards.md R221, R227;
60_exceptions.md R214), what a command leaves unchanged, and the invariant of the machine. Nothing here is checked by the
hardware (R227: "a static, not a runtime, check"). -/

namespace Sys2Proof.Machine

/-! ### Magnitude classes (R13) -/

/-- Class CANON: x = canon(val(x)). -/
abbrev isCanon (x : LimbVec) : Prop := x = canon (val x)

/-- The limits of class N: even limbs < 2^26 + 2^13, odd limbs < 2^25 + 2^13. -/
def nearLimit (i : Fin 10) : Nat := if i.val % 2 = 0 then 2 ^ 26 + 2 ^ 13 else 2 ^ 25 + 2 ^ 13

/-- The limits of class W: even limbs < 11 * 2^25, odd limbs < 11 * 2^24. -/
def wideLimit (i : Fin 10) : Nat := if i.val % 2 = 0 then 11 * 2 ^ 25 else 11 * 2 ^ 24

/-- Class N, "near-canonical". -/
abbrev isNear (x : LimbVec) : Prop := ∀ i : Fin 10, (x.get i).toNat < nearLimit i

/-- Class W, "wide", the multiplier's input class. -/
abbrev isWide (x : LimbVec) : Prop := ∀ i : Fin 10, (x.get i).toNat < wideLimit i

/-- A VFE is in a class when all four of its slots are. -/
abbrev canonVfe (v : Vfe) : Prop := isCanon v.a ∧ isCanon v.b ∧ isCanon v.c ∧ isCanon v.d
abbrev nearVfe (v : Vfe) : Prop := isNear v.a ∧ isNear v.b ∧ isNear v.c ∧ isNear v.d
abbrev wideVfe (v : Vfe) : Prop := isWide v.a ∧ isWide v.b ∧ isWide v.c ∧ isWide v.d

/-! ### Field elements and points -/

/-- The field element a limb vector represents: val(x) mod p (R10). -/
def fe (x : LimbVec) : ZMod prime := (val x : ZMod prime)

/-- d of the curve equation (43_rom_contents.md R182). -/
def dField : ZMod prime := (curveD : ZMod prime)

/-- (x, y) is a point of -x^2 + y^2 = 1 + d x^2 y^2 (R160). -/
def onCurve (x y : ZMod prime) : Prop := -x ^ 2 + y ^ 2 = 1 + dField * x ^ 2 * y ^ 2

/-- The two equations of a valid point, X*Y = Z*T and -X^2 + Y^2 = Z^2 + d*T^2 (R151). -/
def pointEquations (v : Vfe) : Prop :=
  fe v.a * fe v.b = fe v.c * fe v.d ∧ -fe v.a ^ 2 + fe v.b ^ 2 = fe v.c ^ 2 + dField * fe v.d ^ 2

/-- A valid point (R151): the two equations, and Z is not 0. -/
def validPoint (v : Vfe) : Prop := fe v.c ≠ 0 ∧ pointEquations v

/-- v holds the affine point (x, y) in extended coordinates: X = xZ, Y = yZ, T = xyZ (R151). -/
def coordinatesOf (v : Vfe) (x y : ZMod prime) : Prop :=
  fe v.a = x * fe v.c ∧ fe v.b = y * fe v.c ∧ fe v.d = x * y * fe v.c

/-- c is the cached form (Y - X, Y + X, 2Z, 2dT) of v (R152). -/
def cachedForm (c v : Vfe) : Prop :=
  fe c.a = fe v.b - fe v.a ∧ fe c.b = fe v.b + fe v.a ∧ fe c.c = 2 * fe v.c ∧ fe c.d = 2 * dField * fe v.d

/-- v represents the affine point (x, y) of the curve (R151): Z is not 0, and X = xZ, Y = yZ, T = xyZ. -/
def represents (v : Vfe) (x y : ZMod prime) : Prop := fe v.c ≠ 0 ∧ coordinatesOf v x y ∧ onCurve x y

/-- c is the cached form of a register that represents (x, y) (R152). -/
def cachedOf (c : Vfe) (x y : ZMod prime) : Prop := ∃ w, represents w x y ∧ cachedForm c w

/-- The product d*x1*x2*y1*y2 of the addition law (R160). -/
def crossTerm (x1 y1 x2 y2 : ZMod prime) : ZMod prime := dField * x1 * x2 * y1 * y2

/-- (x3, y3) is the sum of (x1, y1) and (x2, y2) (R160), its two fractions multiplied out. -/
def isCurveSum (x1 y1 x2 y2 x3 y3 : ZMod prime) : Prop :=
  x3 * (1 + crossTerm x1 y1 x2 y2) = x1 * y2 + x2 * y1 ∧ y3 * (1 - crossTerm x1 y1 x2 y2) = y1 * y2 + x1 * x2

/-- The host's test that two registers represent the same point, X1*Z2 = X2*Z1 and Y1*Z2 = Y2*Z1 (R160 (4)). -/
def samePoint (v w : Vfe) : Prop := fe v.a * fe w.c = fe w.a * fe v.c ∧ fe v.b * fe w.c = fe w.b * fe v.c

/-- The points U[i] from which the table is generated with the unit's own commands: U[0] = T[0] and
U[i+1] = AddC(U[i], Cache(Dbl(T[0]))) (43_rom_contents.md R187). -/
def tableChain : Nat → Vfe
  | 0 => romT0
  | n + 1 => addC (tableChain n) (cache (dbl romT0))

/-- The affine coordinates of T[i] as field elements (43_rom_contents.md R185). -/
def tableX (i : Fin 8) : ZMod prime := ((tablePoint i).1 : ZMod prime)
def tableY (i : Fin 8) : ZMod prime := ((tablePoint i).2 : ZMod prime)

/-! ### The multiplier as 40_field_ops.md R106 prints it, and its exact sums -/

/-- Step 1 of R106 as a double sum over i and j, before it is taken mod 2^64. -/
def accumulatorSum (x y : LimbVec) (k : Fin 10) : Nat :=
  ∑ i : Fin 10, ∑ j : Fin 10,
    if i.val + j.val = k.val then oddFactor i j * (x.get i).toNat * (y.get j).toNat
    else if i.val + j.val = k.val + 10 then 19 * oddFactor i j * (x.get i).toNat * (y.get j).toNat
    else 0

/-- One turn of the loop of step 2: the carry of z[i] goes into z[i+1], and z[i] keeps its low bits. -/
def carryTurn (z : Fin 10 → BitVec 64) (i : Fin 9) : Fin 10 → BitVec 64 :=
  Function.update
    (Function.update z i.succ (z i.succ + z i.castSucc >>> limbWidth i.castSucc))
    i.castSucc (z i.castSucc &&& BitVec.ofNat 64 (limbMask i.castSucc))

/-- Step 2 of R106, line by line. -/
def carryLoop (z : Fin 10 → BitVec 64) : Fin 10 → BitVec 64 :=
  let z := (List.finRange 9).foldl carryTurn z
  let c := z 9 >>> 25
  let z := Function.update z 9 (z 9 &&& BitVec.ofNat 64 (limbMask 9))
  let z := Function.update z 0 (z 0 + 19#64 * c)
  let z := Function.update z 1 (z 1 + z 0 >>> 26)
  Function.update z 0 (z 0 &&& BitVec.ofNat 64 (limbMask 0))

/-- MulSlot as R106 prints it. -/
def mulSlotByLoop (x y : LimbVec) : LimbVec :=
  Ten.ofFn fun i => (carryLoop (fun k => BitVec.ofNat 64 (accumulatorSum x y k)) i).setWidth 32

/-- Accumulator k after the carry from k - 1, as an exact number (70_reset_and_hazards.md R224 (a)). -/
def exactSum (x y : LimbVec) : Nat → Nat
  | 0 => accumulatorSum x y 0
  | k + 1 => accumulatorSum x y (Fin.ofNat 10 (k + 1)) + exactSum x y k / 2 ^ limbWidth (Fin.ofNat 10 k)

/-- The exact carry out of z[9] (R224 (b)). -/
def exactTopCarry (x y : LimbVec) : Nat := exactSum x y 9 / 2 ^ 25

/-- z[0] after 19 times that carry is added, exactly. -/
def exactWrapped (x y : LimbVec) : Nat := exactSum x y 0 % 2 ^ 26 + 19 * exactTopCarry x y

/-- The exact carry from z[0] into z[1] at the end (R224 (b)). -/
def exactLastCarry (x y : LimbVec) : Nat := exactWrapped x y / 2 ^ 26

/-- The maxima of the accumulators after step 1, operands in class W (the table of R224). -/
def accumulatorMax : Fin 10 → Nat
  | 0 => 16961119019660738827 | 1 => 10490009346790916250 | 2 => 13282804050580996309 | 3 => 8037799369619013750
  | 4 => 9604489081501253791 | 5 => 5585589392447111250 | 6 => 5926174112421511273 | 7 => 3133379415275208750
  | 8 => 2247859143341768755 | 9 => 681169438103306250

/-- The sum of limb i over several limb vectors, as an exact number (R225). -/
def limbSum (xs : List LimbVec) (i : Fin 10) : Nat := (xs.map fun x => (x.get i).toNat).sum

/-! ### Which words fault (30_encoding.md R78; 20_memory.md R54; 60_exceptions.md R201) -/

/-- The bits of a word that must be zero for an op in use (30_encoding.md R72, R78 (b)); none for a reserved op (R74). -/
def mustBeZero : Nat → Option Word
  | 0x01 | 0x04 | 0x21 | 0x22 => some 0x00003FFF#32
  | 0x02 => some 0x00003FFE#32
  | 0x03 => some 0x0003FFE0#32
  | 0x05 | 0x20 | 0x23 | 0x24 => some 0x0003FFFF#32
  | 0x06 => some 0x0003FFFE#32
  | 0x08 => some 0x0003FF00#32
  | 0x09 => some 0x00003FF0#32
  | 0x10 | 0x11 => some 0x003F0000#32
  | 0x12 => some 0x003FFFE0#32
  | _ => none

/-- The op of a word, `cw[31:26]`. -/
def opOf (cw : Word) : Nat := cw.toNat / 2 ^ 26

/-- R78: the op is reserved, or an unused field is not zero, or it is VLDC of a reserved ROM index. -/
def illegalWord (cw : Word) : Bool :=
  match mustBeZero (opOf cw) with
  | none => true
  | some m => decide (cw &&& m ≠ 0#32) || (decide (opOf cw = 0x12) && !romPopulated (BitVec.ofNat 5 cw.toNat))

/-- A VLD or VST word whose 40 words do not exist: `addr + 40 > LMWORDS` (R54). -/
def rangeViolation (c : Config) (cw : Word) : Bool :=
  decide (opOf cw = 0x10 ∨ opOf cw = 0x11) && decide (c.lmWords < cw.toNat % 2 ^ 16 + 40)

/-- A word that raises a fault in a unit with this LMWORDS (R200: it depends on nothing else). -/
def faultingWord (c : Config) (cw : Word) : Bool := illegalWord cw || rangeViolation c cw

/-- The cause code of a faulting word; decoding comes first (R202). -/
def causeOf (cw : Word) : Word := if illegalWord cw then 1#32 else 2#32

/-! ### What a host must observe -/

/-- The field registers a command names as sources (10_state.md R24, R25). -/
def sourcesOf : Instr → List FReg
  | .vadd _ fa fb | .vsubP2 _ fa fb | .vsubP16 _ fa fb | .vmul _ fa fb | .vblend _ fa fb _ | .padd _ fa fb
  | .paddc _ fa fb => [fa, fb]
  | .vnegP2 _ fa _ | .vnegP16 _ fa _ | .vsq _ fa | .vredL _ fa | .vredF _ fa | .vshuf _ fa _ | .pdbl _ fa
  | .pcache _ fa | .pneg _ fa => [fa]
  | .vst fr _ => [fr]
  | .vld _ _ | .vldc _ _ => []

/-- Every source register was written, and VLD's 40 words were (70_reset_and_hazards.md R221). -/
def readsWritten (i : Instr) (s : State) : Prop :=
  (∀ r ∈ sourcesOf i, s.written.get r = true) ∧
  (∀ fr addr, i = .vld fr addr → ∀ k : Fin 40, (Memory.lookup s.lm (addr.toNat + k.val)).isSome = true)

/-- No lane sum of a VADD wraps (R102). -/
def addFits (x y : LimbVec) : Prop := ∀ i : Fin 10, (x.get i).toNat + (y.get i).toNat < 2 ^ 32

/-- No lane of a subtraction from kp(k, .) wraps below zero (R103, R104). -/
def withinMultiple (k : Nat) (y : LimbVec) : Prop := ∀ i : Fin 10, (y.get i).toNat ≤ multipleLimb k i

/-- No lane of the sum with kp(k, .) wraps (R103). -/
def multipleFits (k : Nat) (x : LimbVec) : Prop := ∀ i : Fin 10, (x.get i).toNat + multipleLimb k i < 2 ^ 32

/-- The precondition each command puts on its sources for its field-level contract (the table of
70_reset_and_hazards.md R227). -/
def preconditionOf (i : Instr) (s : State) : Prop :=
  match i with
  | .vadd _ fa fb => ∀ sl, addFits ((s.field fa).slot sl) ((s.field fb).slot sl)
  | .vsubP2 _ fa fb => ∀ sl, withinMultiple 2 ((s.field fb).slot sl) ∧ multipleFits 2 ((s.field fa).slot sl)
  | .vsubP16 _ fa fb => ∀ sl, withinMultiple 16 ((s.field fb).slot sl) ∧ multipleFits 16 ((s.field fa).slot sl)
  | .vnegP2 _ fa m => ∀ sl, maskHas m sl = true → withinMultiple 2 ((s.field fa).slot sl)
  | .vnegP16 _ fa m => ∀ sl, maskHas m sl = true → withinMultiple 16 ((s.field fa).slot sl)
  | .vmul _ fa fb => wideVfe (s.field fa) ∧ wideVfe (s.field fb)
  | .vsq _ fa => wideVfe (s.field fa)
  | .vredL _ _ | .vredF _ _ | .vshuf _ _ _ | .vblend _ _ _ _ | .vld _ _ | .vst _ _ | .vldc _ _ => True
  | .pdbl _ fa | .pcache _ fa | .pneg _ fa => nearVfe (s.field fa)
  | .padd _ fa fb => nearVfe (s.field fa) ∧ nearVfe (s.field fb)
  | .paddc _ fa fc => nearVfe (s.field fa) ∧ wideVfe (s.field fc)

/-- The command's 40 words exist, if it has an address (20_memory.md R54). -/
def addressesExist (i : Instr) (s : State) : Prop :=
  ∀ fr addr, i = .vld fr addr ∨ i = .vst fr addr → s.inRange addr = true

/-- A command a correct host issues (60_exceptions.md R214). -/
def safeCommand (i : Instr) (s : State) : Prop :=
  i.wellFormed = true ∧ addressesExist i s ∧ readsWritten i s ∧ preconditionOf i s

/-- The one field register a command writes, none for VST (10_state.md R24). -/
def destinationOf : Instr → Option FReg
  | .vadd fd _ _ | .vsubP2 fd _ _ | .vsubP16 fd _ _ | .vnegP2 fd _ _ | .vnegP16 fd _ _ | .vmul fd _ _ | .vsq fd _
  | .vredL fd _ | .vredF fd _ | .vshuf fd _ _ | .vblend fd _ _ _ | .vldc fd _ | .pdbl fd _ | .padd fd _ _
  | .paddc fd _ _ | .pcache fd _ | .pneg fd _ => some fd
  | .vld fr _ => some fr
  | .vst _ _ => none

/-- A command of 40_field_ops.md, whose slots are independent (10_state.md R23). -/
def isFieldCommand : Instr → Bool
  | .vadd _ _ _ | .vsubP2 _ _ _ | .vsubP16 _ _ _ | .vnegP2 _ _ _ | .vnegP16 _ _ _ | .vmul _ _ _ | .vsq _ _
  | .vredL _ _ | .vredF _ _ => true
  | .vshuf _ _ _ | .vblend _ _ _ _ | .vld _ _ | .vst _ _ | .vldc _ _ | .pdbl _ _ | .padd _ _ _ | .paddc _ _ _
  | .pcache _ _ | .pneg _ _ => false

/-- A command of 42_point_ops.md. -/
def isPointCommand : Instr → Bool
  | .pdbl _ _ | .padd _ _ _ | .paddc _ _ _ | .pcache _ _ | .pneg _ _ => true
  | .vadd _ _ _ | .vsubP2 _ _ _ | .vsubP16 _ _ _ | .vnegP2 _ _ _ | .vnegP16 _ _ _ | .vmul _ _ _ | .vsq _ _
  | .vredL _ _ | .vredF _ _ | .vshuf _ _ _ | .vblend _ _ _ _ | .vld _ _ | .vst _ _ | .vldc _ _ => false

/-! ### What a command leaves unchanged

Registers and words are compared as they are stored, not as a command reads them: a read of a never-written one gives
another free value after each command (log 5, log 7). -/

/-- Register r is as it was, content and never-written status. -/
def keptRegister (s t : State) (r : FReg) : Prop := t.f.get r = s.f.get r ∧ t.written.get r = s.written.get r

/-- Every word of the limb memory is as it was, never-written words included. -/
def keptMemory (s t : State) : Prop := ∀ a, Memory.lookup t.lm a = Memory.lookup s.lm a

/-- STATUS, CAUSE and FINFO are as they were. -/
def keptFaultRegisters (s t : State) : Prop := t.status = s.status ∧ t.cause = s.cause ∧ t.finfo = s.finfo

/-- LMWORDS and the host's moves still to come are as they were. -/
def keptSetting (s t : State) : Prop := t.cfg = s.cfg ∧ t.port = s.port

/-- A command completed that wrote v into fd and nothing else: every other register, all of the memory and the fault
registers are unchanged, and pc counts one more command (10_state.md R24, R27). -/
def retires (fd : FReg) (v : Vfe) (s t : State) : Prop :=
  t.written.get fd = true ∧ t.f.get fd = v ∧ (∀ r, r ≠ fd → keptRegister s t r) ∧ keptMemory s t ∧
    keptFaultRegisters s t ∧ keptSetting s t ∧ t.pc = s.pc + 1#32

/-- Fault entry with cause c for the word cw (60_exceptions.md R203): CAUSE, FINFO and STATUS.FAULT written; every field
register, the memory, pc and the other bits of STATUS unchanged. -/
def entersFault (c cw : Word) (s t : State) : Prop :=
  t.cause = c ∧ t.finfo = cw ∧ t.faulted = true ∧ (∀ n, 0 < n → t.status.getLsbD n = s.status.getLsbD n) ∧ t.pc = s.pc ∧
    (∀ r, keptRegister s t r) ∧ keptMemory s t ∧ keptSetting s t

/-! ### The invariant -/

/-- The fault registers hold what some history of the unit can leave in them: all zero, or FAULT with an illegal word
and cause 1, or with a legal VLD or VST whose words do not exist and cause 2 (10_state.md R29 to R31; 60_exceptions.md
R201, R203); STATUS bits 31:1 are 0 in both. -/
def faultRegistersLegal (s : State) : Prop :=
  (s.status = 0#32 ∧ s.cause = 0#32 ∧ s.finfo = 0#32) ∨
  (s.status = 1#32 ∧ s.cause = 1#32 ∧ ∀ i, decode s.finfo ≠ .ok i) ∨
  (s.status = 1#32 ∧ s.cause = 2#32 ∧ ∃ fr addr,
    (decode s.finfo = .ok (.vld fr addr) ∨ decode s.finfo = .ok (.vst fr addr)) ∧
      s.cfg.lmWords < addr.toNat + 40)

/-- The invariant of the machine: LMWORDS is legal, the memory is in canonical form and has no word outside LMWORDS, the
fault registers are legal, and a never-written register is stored as the model's fixed content (log 5). -/
def invariant (s : State) : Prop :=
  s.cfg.legal = true ∧ Memory.wf s.lm = true ∧ Memory.inside s.cfg.lmWords s.lm = true ∧ faultRegistersLegal s ∧
    ∀ r : FReg, s.written.get r = false → s.f.get r = unwrittenContent

end Sys2Proof.Machine
end

