-- ==== Sys2Proof/Certificates/Slice0/Obligations.lean ====
section
/-! DEFINITION. The statements for the provers, one Prop each, in the order of OBLIGATIONS.json. Registers and memory
words are compared as they are stored (Sys2Proof/Safety.lean); `s.field r` is what a command reads in register r, a free
value where r was never written (log 5), and every statement holds for every such value. -/

open Sys2Proof Sys2Proof.Machine

/-! ### Encoding -/

/-- Decoding the word of a legal command gives that command back, every operand at every value its field admits. -/
def Obligations.DecodeOfEncodeIsTheCommand : Prop :=
  ∀ i : Instr, i.wellFormed = true → decode (encode i) = .ok i

/-- A word the decoder accepts is the one word that spells the command, and the command is legal. -/
def Obligations.EncodeOfDecodeIsTheWord : Prop :=
  ∀ (w : Word) (i : Instr), decode w = .ok i → encode i = w ∧ i.wellFormed = true

/-- R75: there are 19 rows, no two rows match one word, and a word decodes to a command of some row exactly when it
matches the row, and, for VLDC, its index is populated. -/
def Obligations.DecoderIsTheOpcodeTable : Prop :=
  opcodeRows.length = 19 ∧
  (∀ (w : Word) (r r' : Row), r ∈ opcodeRows → r' ∈ opcodeRows → r.matches w = true → r'.matches w = true → r = r') ∧
  ∀ (w : Word) (name : String),
    (∃ i, decode w = .ok i ∧ i.name = name) ↔
      (∃ r ∈ opcodeRows, r.name = name ∧ r.matches w = true) ∧
        (name = "VLDC" → romPopulated (w.extractLsb' 0 5) = true)

/-- R78: the decoder rejects a word exactly when its op is reserved, or a field that must be zero is not, or it is VLDC
of a reserved index; such a word raises IllegalCommand with no other effect. -/
def Obligations.IllegalWordsRaiseIllegalCommand : Prop :=
  ∀ w : Word,
    ((∃ e, decode w = .error e) ↔ illegalWord w = true) ∧
    (illegalWord w = true → ∀ s : State, s.faulted = false →
      ∃ t, s.runCommand w = .next t ∧ entersFault 1#32 w s t)

/-- R81: the worked encodings, decoded, and assembled from their spelling. -/
def Obligations.WorkedEncodingsDecode : Prop :=
  decode 0x04804000#32 = .ok (.vadd 2 0 1) ∧
  decode 0x08C48001#32 = .ok (.vsubP16 3 1 2) ∧
  decode 0x0C440008#32 = .ok (.vnegP2 1 1 0b1000#4) ∧
  decode 0x0D00001F#32 = .ok (.vnegP16 4 0 0b1111#4) ∧
  decode 0x10804000#32 = .ok (.vmul 2 0 1) ∧
  decode 0x14400000#32 = .ok (.vsq 1 0) ∧
  decode 0x18840001#32 = .ok (.vredF 2 1) ∧
  decode 0x204000B1#32 = .ok (.vshuf 1 0 0xB1#8) ∧
  decode 0x24804003#32 = .ok (.vblend 2 0 1 0b0011#4) ∧
  decode 0x40000100#32 = .ok (.vld 0 0x0100#16) ∧
  decode 0x44800100#32 = .ok (.vst 2 0x0100#16) ∧
  decode 0x48000008#32 = .ok (Pseudo.expand (.plut 0 0)) ∧
  decode 0x80400000#32 = .ok (.pdbl 1 0) ∧
  decode 0x88C48000#32 = .ok (.paddc 3 1 2) ∧
  assemble "VADD F2, F0, F1" = some 0x04804000#32 ∧
  assemble "VSUB.P16 F3, F1, F2" = some 0x08C48001#32 ∧
  assemble "VNEG.P2 F1, F1, D" = some 0x0C440008#32 ∧
  assemble "VNEG.P16 F4, F0, ABCD" = some 0x0D00001F#32 ∧
  assemble "VMUL F2, F0, F1" = some 0x10804000#32 ∧
  assemble "VSQ F1, F0" = some 0x14400000#32 ∧
  assemble "VRED.F F2, F1" = some 0x18840001#32 ∧
  assemble "VSHUF F1, F0, BADC" = some 0x204000B1#32 ∧
  assemble "VBLEND F2, F0, F1, AB" = some 0x24804003#32 ∧
  assemble "VLD F0, #0x0100" = some 0x40000100#32 ∧
  assemble "VST F2, #0x0100" = some 0x44800100#32 ∧
  assemble "PLUT F0, #0" = some 0x48000008#32 ∧
  assemble "PDBL F1, F0" = some 0x80400000#32 ∧
  assemble "PADDC F3, F1, F2" = some 0x88C48000#32

/-- R80: each pseudo-command is one legal command, and its word is the one the table prints. -/
def Obligations.PseudoCommandWords : Prop :=
  (∀ p : Pseudo, p.expand.wellFormed = true) ∧
  (∀ d a : FReg, encode (Pseudo.expand (.vmov d a)) = BitVec.ofNat 32 (0x20000000 + d.val * 2 ^ 22 + a.val * 2 ^ 18 + 0xE4)) ∧
  (∀ d : FReg, encode (Pseudo.expand (.vzero d)) = BitVec.ofNat 32 (0x48000000 + d.val * 2 ^ 22)) ∧
  (∀ d : FReg, encode (Pseudo.expand (.vone d)) = BitVec.ofNat 32 (0x48000001 + d.val * 2 ^ 22)) ∧
  (∀ d : FReg, encode (Pseudo.expand (.pident d)) = BitVec.ofNat 32 (0x48000005 + d.val * 2 ^ 22)) ∧
  (∀ (d : FReg) (i : Fin 8), encode (Pseudo.expand (.plut d i)) = BitVec.ofNat 32 (0x48000008 + d.val * 2 ^ 22 + i.val)) ∧
  (∀ (d : FReg) (i : Fin 8), encode (Pseudo.expand (.plutc d i)) = BitVec.ofNat 32 (0x48000010 + d.val * 2 ^ 22 + i.val)) ∧
  ∀ (d : FReg) (s : State), ∃ t, exec (Pseudo.expand (.vmov d d)) s = .next t ∧ retires d (s.field d) s t

/-! ### The machine as a whole -/

/-- A step runs the command the host's next word decodes to, on the state with that word taken from the port; it runs
any other host move the same way; with nothing issued it changes nothing (the model's choice, log 3); and a table word
given by withFetchWord is the very next command. -/
def Obligations.StepRunsDecodedCommand : Prop :=
  (∀ (s : State) (cw : Word) (rest : List HostMove) (i : Instr),
    s.port = .issue cw :: rest → s.faulted = false → decode cw = .ok i → step s = exec i { s with port := rest }) ∧
  (∀ (s : State) (m : HostMove) (rest : List HostMove),
    s.port = m :: rest → step s = State.perform { s with port := rest } m) ∧
  (∀ s : State, s.port = [] → step s = .next s) ∧
  ∀ (s : State) (nbits w : Nat) (i : Instr),
    s.faulted = false → decodeTableWord nbits w = some i → step (s.withFetchWord nbits w) = exec i s

/-- R203: fault entry, step by step. -/
def Obligations.FaultEntryRecordsTheWord : Prop :=
  ∀ (s : State) (cw : Word) (rest : List HostMove),
    s.port = .issue cw :: rest → s.faulted = false → faultingWord s.cfg cw = true →
      ∃ t, step s = .next t ∧ entersFault (causeOf cw) cw { s with port := rest } t

/-- R200, R201, R202: a command word faults exactly when it is illegal (cause 1) or a legal VLD or VST out of range
(cause 2), which depends on the word and on LMWORDS only; every other word completes, its fault registers unchanged and
pc one more; a command a correct host issues is such a word. -/
def Obligations.ExactlyTwoFaultsFromTheWordAlone : Prop :=
  (∀ (s : State) (i : Instr), safeCommand i s → faultingWord s.cfg (encode i) = false) ∧
  ∀ (s : State) (cw : Word), s.faulted = false →
    ∃ t, s.runCommand cw = .next t ∧ t.faulted = faultingWord s.cfg cw ∧
      (faultingWord s.cfg cw = true → entersFault (causeOf cw) cw s t) ∧
      (faultingWord s.cfg cw = false → keptFaultRegisters s t ∧ t.pc = s.pc + 1#32)

/-- R204: while FAULT = 1 a command word changes nothing, whatever it is; no move but reset leaves the faulted state, and
none changes a register, CAUSE, FINFO or pc; the host's memory writes still happen. -/
def Obligations.FaultedStateIsTerminalUntilReset : Prop :=
  ∀ s : State, s.faulted = true →
    (∀ cw : Word, s.runCommand cw = .next s) ∧
    (∀ (m : HostMove) (t : State), m ≠ .reset → s.perform m = .next t →
      t.faulted = true ∧ keptFaultRegisters s t ∧ t.pc = s.pc ∧ ∀ r, keptRegister s t r) ∧
    (∀ (a : Nat) (v : Word), a < s.cfg.lmWords → ∃ t, s.perform (.writeLm a v) = .next t ∧ t.word a = v) ∧
    ∃ t, s.perform .reset = .next t ∧ t.faulted = false

/-- Over any number of steps with no reset among the host's moves, a faulted unit stays as it is but for the memory words
the host writes (the run form of R204). -/
def Obligations.FaultedRunsChangeNoRegister : Prop :=
  ∀ (n : Nat) (s t : State), s.faulted = true → HostMove.reset ∉ s.port →
    Host.Core.run Sys2Proof.core n s = .next t →
      t.faulted = true ∧ keptFaultRegisters s t ∧ t.pc = s.pc ∧ (∀ r, keptRegister s t r) ∧ HostMove.reset ∉ t.port

/-- R220: what reset does, at any time and at power-on, and that nothing else leaves the faulted state. -/
def Obligations.ResetClearsAllButMemory : Prop :=
  (∀ s : State, ∃ t, s.perform .reset = .next t ∧ t.pc = 0#32 ∧ t.status = 0#32 ∧ t.cause = 0#32 ∧ t.finfo = 0#32 ∧
    (∀ r : FReg, t.written.get r = false) ∧ keptMemory s t ∧ keptSetting s t) ∧
  (∀ (s t : State) (m : HostMove), s.faulted = true → m ≠ .reset → s.perform m = .next t → t.faulted = true) ∧
  ∀ (c : Config) (r : FReg) (a : Nat),
    (State.powerOn c).written.get r = false ∧ Memory.lookup (State.powerOn c).lm a = none

/-- R35: every value the spec gives the state after reset, at power-on and later, for every LMWORDS; State.reset is the
power-on state of its own LMWORDS, whose value is the model's choice (log 4) and is not stated here. -/
def Obligations.ResetStateHasTheSpecValues : Prop :=
  State.reset = State.powerOn State.reset.cfg ∧
  ∀ c : Config,
    (State.powerOn c).pc = 0#32 ∧ (State.powerOn c).status = 0#32 ∧ (State.powerOn c).faulted = false ∧
    (State.powerOn c).cause = 0#32 ∧ (State.powerOn c).finfo = 0#32 ∧
    (∀ r : FReg, (State.powerOn c).written.get r = false) ∧
    (∀ a : Nat, Memory.lookup (State.powerOn c).lm a = none) ∧ (State.powerOn c).cfg = c ∧
    ∀ s : State, ∃ t, s.perform .reset = .next t ∧ t.pc = 0#32 ∧ t.status = 0#32 ∧ t.cause = 0#32 ∧ t.finfo = 0#32 ∧
      (∀ r : FReg, t.written.get r = false) ∧ keptMemory s t

/-- The invariant holds after reset, for every legal LMWORDS. -/
def Obligations.InvariantHoldsAtReset : Prop :=
  invariant State.reset ∧ ∀ c : Config, c.legal = true → invariant (State.powerOn c)

/-- Every step keeps the invariant: the memory's canonical form and extent, the legal contents of the fault registers,
the legality of LMWORDS, and the fixed content of never-written registers. -/
def Obligations.EveryStepKeepsTheInvariant : Prop :=
  ∀ s t : State, invariant s → step s = .next t → invariant t

/-- R27: pc is 0 after reset and counts the commands that completed, modulo 2^32, over any sequence of issued words; the
first word that faults ends the count, so pc is then its index; the words after it are ignored. -/
def Obligations.PcCountsCompletedCommands : Prop :=
  (∀ c : Config, (State.powerOn c).pc = 0#32) ∧
  ∀ (ws : List Word) (s : State), s.faulted = false → s.port = ws.map HostMove.issue →
    ∃ t, Host.Core.run Sys2Proof.core ws.length s = .next t ∧ t.port = [] ∧
      t.pc = s.pc + BitVec.ofNat 32 (ws.takeWhile fun w => !faultingWord s.cfg w).length ∧
      t.faulted = ws.any (faultingWord s.cfg) ∧
      ∀ w, ws.find? (faultingWord s.cfg) = some w → t.cause = causeOf w ∧ t.finfo = w

/-- Every move of the host has a next state, but for a write of a memory word that does not exist (the model's stop,
log 11). -/
def Obligations.EveryHostMoveAnswers : Prop :=
  ∀ (s : State) (m : HostMove),
    (∃ t, s.perform m = .next t) ∨
    (∃ a v, m = .writeLm a v ∧ s.cfg.lmWords ≤ a ∧ s.perform m = .fault (.hostWordOutsideMemory a))

/-- No command writes more than its one destination register, only VST changes the limb memory, and a command that faults
leaves no partial result. -/
def Obligations.OneRegisterAndNoPartialResult : Prop :=
  ∀ (i : Instr) (s t : State), exec i s = .next t →
    (∀ r : FReg, destinationOf i ≠ some r → keptRegister s t r) ∧
    ((∀ fr addr, i ≠ .vst fr addr) → keptMemory s t) ∧ keptSetting s t ∧
    (s.faulted = false → t.faulted = true → (∀ r, keptRegister s t r) ∧ keptMemory s t ∧ t.pc = s.pc)

/-- R28: the host reads the four status registers, a host write is ignored, a memory write does not touch them, and no
command reads them: a command's effect on registers and memory does not depend on what they hold. -/
def Obligations.StatusRegistersAreHostReadOnly : Prop :=
  (∀ s : State, s.statusPort 0 = (if s.faulted then 1#32 else 0#32) ∧ s.statusPort 1 = s.cause ∧
    s.statusPort 2 = s.finfo ∧ s.statusPort 3 = s.pc) ∧
  (∀ (s : State) (n : Fin 4) (v : Word), s.perform (.writeStatus n v) = .next s) ∧
  (∀ (s t : State) (a : Nat) (v : Word) (n : Fin 4), s.perform (.writeLm a v) = .next t → t.statusPort n = s.statusPort n) ∧
  ∀ (i : Instr) (s t : State) (pc status cause finfo : Word), exec i s = .next t →
    ∃ t', exec i { s with pc := pc, status := status, cause := cause, finfo := finfo } = .next t' ∧
      t'.f = t.f ∧ t'.written = t.written ∧ t'.lm = t.lm

/-- What a never-written register is stored as (the model's fixed content, log 5) has no influence on anything: two
states that differ only there go on to differ only there. -/
def Obligations.UnwrittenContentIsNeverRead : Prop :=
  ∀ (i : Instr) (s t : State) (g : Vector Vfe 16),
    (∀ r : FReg, s.written.get r = true → g.get r = s.f.get r) → exec i s = .next t →
      ∃ t', exec i { s with f := g } = .next t' ∧ { t' with f := t.f } = t ∧
        ∀ r : FReg, t.written.get r = true → t'.f.get r = t.f.get r

/-- R207: the spec's example of a fault after reset. -/
def Obligations.FaultExampleAfterReset : Prop :=
  (∃ t, State.reset.runCommand 0x4000FFD9#32 = .next t ∧ t.cause = 2#32 ∧ t.finfo = 0x4000FFD9#32 ∧ t.status = 1#32 ∧
    t.pc = 0#32 ∧ t.written.get 0 = false ∧
    ∃ u, t.runCommand 0x48000000#32 = .next u ∧ u.pc = 0#32 ∧ u.written.get 0 = false ∧ u = t) ∧
  ∃ t, State.reset.runCommand 0x00000000#32 = .next t ∧ t.cause = 1#32 ∧ t.finfo = 0#32 ∧ t.status = 1#32 ∧ t.pc = 0#32

/-! ### Limb memory -/

/-- The canonical form is canonical: two memories that read the same at every address are the same list. -/
def Obligations.EqualMemoriesAreEqualLists : Prop :=
  ∀ m m' : List Cell, Memory.wf m = true → Memory.wf m' = true →
    (∀ a, Memory.lookup m a = Memory.lookup m' a) → m = m'

/-- A host write of a word that exists changes that word and nothing else of the unit. -/
def Obligations.HostWriteChangesOneWord : Prop :=
  ∀ (s : State) (a : Nat) (v : Word), a < s.cfg.lmWords →
    ∃ t, s.perform (.writeLm a v) = .next t ∧ t.word a = v ∧ Memory.lookup t.lm a = some v ∧
      (∀ b, b ≠ a → Memory.lookup t.lm b = Memory.lookup s.lm b) ∧ (∀ r, keptRegister s t r) ∧
      keptFaultRegisters s t ∧ keptSetting s t ∧ t.pc = s.pc

/-! ### Field commands -/

/-- R102: VADD, limb by limb, with its contract; a sum of up to five class-N values stays in class W. -/
def Obligations.VaddAddsLimbs : Prop :=
  ∀ (fd fa fb : FReg) (s : State), ∃ t v,
    exec (.vadd fd fa fb) s = .next t ∧ retires fd v s t ∧
    (∀ sl i, (v.limb sl i).toNat = (((s.field fa).limb sl i).toNat + ((s.field fb).limb sl i).toNat) % 2 ^ 32) ∧
    (∀ sl, addFits ((s.field fa).slot sl) ((s.field fb).slot sl) →
      val (v.slot sl) = val ((s.field fa).slot sl) + val ((s.field fb).slot sl) ∧
      fe (v.slot sl) = fe ((s.field fa).slot sl) + fe ((s.field fb).slot sl)) ∧
    ∀ (sl : Slot) (xs : List LimbVec), xs.length ≤ 4 → (∀ x ∈ xs, isNear x) →
      (∀ i, ((s.field fa).limb sl i).toNat = limbSum xs i) → isNear ((s.field fb).slot sl) → isWide (v.slot sl)

/-- R103: VSUB.P2 and VSUB.P16, limb by limb, with their contract, the classes that meet their preconditions, and a
written register subtracted from itself. -/
def Obligations.VsubSubtractsFromMultiple : Prop :=
  ∀ (k : Nat) (command : FReg → FReg → FReg → Instr),
    (k = 2 ∧ command = .vsubP2) ∨ (k = 16 ∧ command = .vsubP16) →
  ∀ (fd fa fb : FReg) (s : State), ∃ t v,
    exec (command fd fa fb) s = .next t ∧ retires fd v s t ∧
    (∀ sl i, ((v.limb sl i).toNat : Int) =
      (((s.field fa).limb sl i).toNat + multipleLimb k i - ((s.field fb).limb sl i).toNat : Int) % 2 ^ 32) ∧
    (∀ sl, withinMultiple k ((s.field fb).slot sl) → multipleFits k ((s.field fa).slot sl) →
      val (v.slot sl) + val ((s.field fb).slot sl) = val ((s.field fa).slot sl) + k * prime ∧
      fe (v.slot sl) = fe ((s.field fa).slot sl) - fe ((s.field fb).slot sl) ∧
      ∀ i, (v.limb sl i).toNat ≤ ((s.field fa).limb sl i).toNat + multipleLimb k i) ∧
    (∀ y : LimbVec, (k = 2 → isNear y → withinMultiple 2 y) ∧ (k = 16 → isWide y → withinMultiple 16 y)) ∧
    (fa = fb → s.written.get fa = true → ∀ sl, v.slot sl = multiple k)

/-- R104: VNEG.P2 and VNEG.P16: selected slots negated, the others copied, with the contract; the same negation twice
returns the original limbs, for every input. -/
def Obligations.VnegNegatesSelectedSlots : Prop :=
  ∀ (k : Nat) (command : FReg → FReg → BitVec 4 → Instr),
    (k = 2 ∧ command = .vnegP2) ∨ (k = 16 ∧ command = .vnegP16) →
  ∀ (fd fa : FReg) (m : BitVec 4) (s : State), ∃ t v,
    exec (command fd fa m) s = .next t ∧ retires fd v s t ∧
    (∀ sl i, m.getLsbD sl.code = true →
      ((v.limb sl i).toNat : Int) = (multipleLimb k i - ((s.field fa).limb sl i).toNat : Int) % 2 ^ 32) ∧
    (∀ sl, m.getLsbD sl.code = false → v.slot sl = (s.field fa).slot sl) ∧
    (∀ sl, m.getLsbD sl.code = true → withinMultiple k ((s.field fa).slot sl) →
      val (v.slot sl) + val ((s.field fa).slot sl) = k * prime ∧ fe (v.slot sl) = -fe ((s.field fa).slot sl) ∧
      withinMultiple k (v.slot sl)) ∧
    (k = 2 → ∀ sl, isNear ((s.field fa).slot sl) → isWide (v.slot sl)) ∧
    vnegFn k v m = s.field fa

/-- R106: the model's multiplier is the loop the spec prints. -/
def Obligations.MulSlotIsThePrintedLoop : Prop := ∀ x y : LimbVec, mulSlot x y = mulSlotByLoop x y

/-- R107: VMUL writes MulSlot of each slot pair, with its contract on class W: no accumulator wraps, the product as a
field element, the limb bounds, and when the result is canonical; a zero slot gives zero limbs. -/
def Obligations.VmulMultipliesSlots : Prop :=
  ∀ (fd fa fb : FReg) (s : State), ∃ t v,
    exec (.vmul fd fa fb) s = .next t ∧ retires fd v s t ∧
    ∀ sl, ∀ x y r : LimbVec, x = (s.field fa).slot sl → y = (s.field fb).slot sl → r = v.slot sl →
      r = mulSlotByLoop x y ∧
      ((∀ i, x.get i = 0#32) ∨ (∀ i, y.get i = 0#32) → ∀ i, r.get i = 0#32) ∧
      (isWide x → isWide y →
        (∀ k : Fin 10, accumulatorSum x y k < 2 ^ 64 ∧ exactSum x y k.val < 2 ^ 64) ∧ exactWrapped x y < 2 ^ 64 ∧
        exactSum x y 1 % 2 ^ 25 + exactLastCarry x y < 2 ^ 32 ∧
        fe r = fe x * fe y ∧ isNear r ∧ (∀ i, i ≠ 1 → (r.get i).toNat ≤ limbMask i) ∧
        (r.get 1).toNat ≤ limbMask 1 + 5748 ∧ val r < 2 ^ 255 + 5748 * 2 ^ 26 ∧
        (19 + 5748 * 2 ^ 26 ≤ val x * val y % prime →
          val r = val x * val y % prime ∧ ((r.get 1).toNat ≤ limbMask 1 → isCanon r)))

/-- R108: VSQ writes exactly the limbs VMUL writes for equal operands (one written register named twice, or two that hold
the same words), with VMUL's contract. -/
def Obligations.VsqIsVmulOfEqualOperands : Prop :=
  ∀ (fd fa : FReg) (s : State), ∃ t v,
    exec (.vsq fd fa) s = .next t ∧ retires fd v s t ∧
    (∀ fb, s.written.get fa = true → s.written.get fb = true → s.f.get fb = s.f.get fa →
      exec (.vmul fd fa fb) s = .next t) ∧
    (∀ sl, v.slot sl = mulSlotByLoop ((s.field fa).slot sl) ((s.field fa).slot sl)) ∧
    ∀ sl, isWide ((s.field fa).slot sl) →
      fe (v.slot sl) = fe ((s.field fa).slot sl) ^ 2 ∧ isNear (v.slot sl) ∧
      (∀ i, i ≠ 1 → (v.limb sl i).toNat ≤ limbMask i) ∧ (v.limb sl 1).toNat ≤ limbMask 1 + 5748

/-- R224: the multiplier's bound, all five parts, the tighter bound for class N, and that 11 cannot be 12. -/
def Obligations.MultiplierStaysInBounds : Prop :=
  (∀ x y : LimbVec, isWide x → isWide y →
    (∀ k, accumulatorSum x y k ≤ accumulatorMax k) ∧ (∀ k : Fin 10, exactSum x y k.val < 2 ^ 64) ∧
    exactTopCarry x y ≤ 20300432193 ∧ 19 * exactTopCarry x y ≤ 385708211667 ∧ exactLastCarry x y ≤ 5748 ∧
    (∀ i, i ≠ 1 → ((mulSlot x y).get i).toNat ≤ limbMask i) ∧ ((mulSlot x y).get 1).toNat ≤ 33560179 ∧
    isNear (mulSlot x y) ∧ exactSum x y 1 % 2 ^ 25 + exactLastCarry x y < 2 ^ 32 ∧
    val (mulSlot x y) % prime = val x * val y % prime ∧
    (isNear x → isNear y → ((mulSlot x y).get 1).toNat ≤ limbMask 1 + 191)) ∧
  ∃ x y : LimbVec,
    (∀ i, (x.get i).toNat < 12 * 2 ^ (limbWidth i - 1)) ∧ (∀ i, (y.get i).toNat < 12 * 2 ^ (limbWidth i - 1)) ∧
    2 ^ 64 ≤ accumulatorSum x y 0

/-- R109: VRED.L, one carry pass from the source limbs, exact; every input lands in class N and keeps its field element;
a canonical slot is unchanged; p, 2p and 16p all reduce to the limbs of p. -/
def Obligations.VredLCarriesOnce : Prop :=
  (∀ (fd fa : FReg) (s : State), ∃ t v,
    exec (.vredL fd fa) s = .next t ∧ retires fd v s t ∧
    (∀ sl, (v.limb sl 0).toNat =
      ((s.field fa).limb sl 0).toNat % 2 ^ 26 + 19 * (((s.field fa).limb sl 9).toNat / 2 ^ 25)) ∧
    (∀ sl, ∀ i : Fin 10, i ≠ 0 → (v.limb sl i).toNat =
      ((s.field fa).limb sl i).toNat % 2 ^ limbWidth i +
        ((s.field fa).limb sl (i - 1)).toNat / 2 ^ limbWidth (i - 1)) ∧
    (∀ sl, fe (v.slot sl) = fe ((s.field fa).slot sl) ∧ isNear (v.slot sl) ∧
      (v.limb sl 0).toNat ≤ 2 ^ 26 - 1 + 2413 ∧
      (∀ i : Fin 10, i.val % 2 = 1 → (v.limb sl i).toNat ≤ 2 ^ 25 - 1 + 63) ∧
      (∀ i : Fin 10, i.val % 2 = 0 → i ≠ 0 → (v.limb sl i).toNat ≤ 2 ^ 26 - 1 + 127)) ∧
    ∀ sl, isCanon ((s.field fa).slot sl) → v.slot sl = (s.field fa).slot sl) ∧
  reduceLazySlot (multiple 1) = multiple 1 ∧ reduceLazySlot (multiple 2) = multiple 1 ∧
  reduceLazySlot (multiple 16) = multiple 1

/-- R110: VRED.F writes the canonical limbs of each slot's value; two slots represent the same field element exactly when
their results are the same words; a canonical slot is unchanged. -/
def Obligations.VredFIsCanonical : Prop :=
  (∀ (fd fa : FReg) (s : State), ∃ t v,
    exec (.vredF fd fa) s = .next t ∧ retires fd v s t ∧
    (∀ sl, v.slot sl = canon (val ((s.field fa).slot sl))) ∧ canonVfe v ∧
    ∀ sl, isCanon ((s.field fa).slot sl) → v.slot sl = (s.field fa).slot sl) ∧
  ∀ x y : LimbVec, reduceFullSlot x = reduceFullSlot y ↔ fe x = fe y

/-- R111: the four properties the source requires of the field commands. -/
def Obligations.RequiredFieldProperties : Prop :=
  (∀ a b : Vfe, wideVfe a → wideVfe b → ∀ sl,
    (vredFFn (vmulFn a b)).slot sl = canon (val (a.slot sl) * val (b.slot sl))) ∧
  (∀ a : Vfe, (∀ sl, withinMultiple 2 (a.slot sl)) →
    vredFFn (vaddFn a (vnegFn 2 a 0b1111#4)) = romZero) ∧
  (∀ a : Vfe, wideVfe a → vredFFn (vmulFn a romOne) = vredFFn a) ∧
  ∀ a : Vfe, vsqFn a = vmulFn a a

/-- R11: canon(n), for every integer n, negative ones too: its limbs, and that it is the unique limb vector with every
limb within its nominal width and value n mod p, which is below p. -/
def Obligations.CanonIsUnique : Prop :=
  ∀ n : Int,
    (∀ i, ((canon n).get i).toNat = ((n % (prime : Int)).toNat >>> limbExp i) &&& limbMask i) ∧
    val (canon n) < prime ∧
    ∀ c : LimbVec, c = canon n ↔ (∀ i, (c.get i).toNat ≤ limbMask i) ∧ (val c : Int) = n % (prime : Int)

/-- R13: the three classes by their limits, and that CANON is inside N and N inside W. -/
def Obligations.MagnitudeClassesNest : Prop :=
  (∀ x : LimbVec,
    (isCanon x ↔ (∀ i, (x.get i).toNat ≤ limbMask i) ∧ val x < prime) ∧
    (isNear x ↔ ∀ i : Fin 10, (i.val % 2 = 0 → (x.get i).toNat < 67117056) ∧ (i.val % 2 = 1 → (x.get i).toNat < 33562624)) ∧
    (isWide x ↔ ∀ i : Fin 10, (i.val % 2 = 0 → (x.get i).toNat < 369098752) ∧ (i.val % 2 = 1 → (x.get i).toNat < 184549376)) ∧
    (isCanon x → isNear x) ∧ (isNear x → isWide x)) ∧
  ∀ v : Vfe, (canonVfe v ↔ ∀ sl, isCanon (v.slot sl)) ∧ (nearVfe v ↔ ∀ sl, isNear (v.slot sl)) ∧
    (wideVfe v ↔ ∀ sl, isWide (v.slot sl))

/-- The documented chain lengths: how many class-N values may be added, with and without a subtraction first, before the
sum leaves class W or a lane can wrap. -/
def Obligations.DocumentedChainLengths : Prop :=
  (∀ xs : List LimbVec, (∀ x ∈ xs, isNear x) →
    (xs.length ≤ 5 → ∀ i, limbSum xs i < wideLimit i) ∧ (xs.length ≤ 63 → ∀ i, limbSum xs i < 2 ^ 32) ∧
    (∀ a b : LimbVec, isNear a → isNear b → xs.length ≤ 2 →
      ∀ i, ((subSlot 2 a b).get i).toNat + limbSum xs i < wideLimit i) ∧
    (∀ a : LimbVec, isNear a → xs.length ≤ 3 → ∀ i, ((negSlot 2 a).get i).toNat + limbSum xs i < wideLimit i) ∧
    (∀ a b : LimbVec, isNear a → withinMultiple 16 b → xs.length ≤ 46 →
      ∀ i, ((subSlot 16 a b).get i).toNat + limbSum xs i < 2 ^ 32)) ∧
  (∃ x : LimbVec, isNear x ∧ wideLimit 0 ≤ limbSum (List.replicate 6 x) 0 ∧ 2 ^ 32 ≤ limbSum (List.replicate 64 x) 0) ∧
  (∃ a b x : LimbVec, isNear a ∧ isNear b ∧ isNear x ∧
    wideLimit 0 ≤ ((subSlot 2 a b).get 0).toNat + limbSum (List.replicate 3 x) 0) ∧
  (∃ a x : LimbVec, isNear a ∧ isNear x ∧ wideLimit 0 ≤ ((negSlot 2 a).get 0).toNat + limbSum (List.replicate 4 x) 0) ∧
  (∃ a b : LimbVec, isNear a ∧ isNear b ∧ ¬ isWide (subSlot 16 a b)) ∧
  ∃ y : LimbVec, isWide y ∧ ¬ withinMultiple 2 y

/-- Slots are independent in every command of the field family: equal source slots s give equal destination slots s,
whatever the other slots hold. -/
def Obligations.FieldCommandSlotsAreIndependent : Prop :=
  ∀ (i : Instr) (sl : Slot) (s s' t t' : State), isFieldCommand i = true →
    (∀ r ∈ sourcesOf i, (s.field r).slot sl = (s'.field r).slot sl) → exec i s = .next t → exec i s' = .next t' →
      ∀ fd, destinationOf i = some fd → (t.f.get fd).slot sl = (t'.f.get fd).slot sl

/-! ### Lane and transfer commands -/

/-- R134: VSHUF moves whole slots; the ten selectors the spec names; ABCD is the identity and BADC twice is too. -/
def Obligations.VshufMovesWholeSlots : Prop :=
  (∀ (fd fa : FReg) (sel : BitVec 8) (s : State), ∃ t v,
    exec (.vshuf fd fa sel) s = .next t ∧ retires fd v s t ∧
    ∀ (sl src : Slot) (i : Fin 10), src.code = sel.toNat / 2 ^ (2 * sl.code) % 4 →
      v.limb sl i = (s.field fa).limb src i) ∧
  (∀ a b c d : LimbVec,
    vshufFn ⟨a, b, c, d⟩ 0xE4#8 = ⟨a, b, c, d⟩ ∧ vshufFn ⟨a, b, c, d⟩ 0xB1#8 = ⟨b, a, d, c⟩ ∧
    vshufFn ⟨a, b, c, d⟩ 0x44#8 = ⟨a, b, a, b⟩ ∧ vshufFn ⟨a, b, c, d⟩ 0xB4#8 = ⟨a, b, d, c⟩ ∧
    vshufFn ⟨a, b, c, d⟩ 0x00#8 = ⟨a, a, a, a⟩ ∧ vshufFn ⟨a, b, c, d⟩ 0x55#8 = ⟨b, b, b, b⟩ ∧
    vshufFn ⟨a, b, c, d⟩ 0x22#8 = ⟨c, a, c, a⟩ ∧ vshufFn ⟨a, b, c, d⟩ 0xD7#8 = ⟨d, b, b, d⟩ ∧
    vshufFn ⟨a, b, c, d⟩ 0x3C#8 = ⟨a, d, d, a⟩ ∧ vshufFn ⟨a, b, c, d⟩ 0x66#8 = ⟨c, b, c, b⟩) ∧
  ∀ x : Vfe, vshufFn (vshufFn x 0xB1#8) 0xB1#8 = x

/-- R135: VBLEND takes each slot from the second source when the mask's bit is 1, from the first when it is 0. -/
def Obligations.VblendSelectsSlots : Prop :=
  ∀ (fd fa fb : FReg) (m : BitVec 4) (s : State), ∃ t v,
    exec (.vblend fd fa fb m) s = .next t ∧ retires fd v s t ∧
    (∀ sl i, m.getLsbD sl.code = true → v.limb sl i = (s.field fb).limb sl i) ∧
    (∀ sl i, m.getLsbD sl.code = false → v.limb sl i = (s.field fa).limb sl i) ∧
    (m = 0#4 → v = s.field fa) ∧ (m = 0b1111#4 → v = s.field fb)

/-- R136: VLD loads the 40 words at its address, slot by slot, as they are; beyond LMWORDS it raises AddressRange with
the word that was issued and changes no register. -/
def Obligations.VldLoadsFortyWords : Prop :=
  ∀ (fr : FReg) (addr : BitVec 16) (s : State),
    (addr.toNat + 40 ≤ s.cfg.lmWords → ∃ t v,
      exec (.vld fr addr) s = .next t ∧ retires fr v s t ∧
      (∀ sl i, v.limb sl i = s.word (addr.toNat + 10 * sl.code + i.val)) ∧
      ∀ sl i w, Memory.lookup s.lm (addr.toNat + 10 * sl.code + i.val) = some w → v.limb sl i = w) ∧
    (s.cfg.lmWords < addr.toNat + 40 →
      ∃ t, exec (.vld fr addr) s = .next t ∧ ∀ cw, decode cw = .ok (.vld fr addr) → entersFault 2#32 cw s t)

/-- R137: VST stores the 40 limbs at its address, slot by slot, and changes no other word and no register; beyond LMWORDS
it raises AddressRange with the word that was issued and changes no word. -/
def Obligations.VstStoresFortyWords : Prop :=
  ∀ (fr : FReg) (addr : BitVec 16) (s : State),
    (addr.toNat + 40 ≤ s.cfg.lmWords → ∃ t,
      exec (.vst fr addr) s = .next t ∧
      (∀ sl i, Memory.lookup t.lm (addr.toNat + 10 * sl.code + i.val) = some ((s.field fr).limb sl i)) ∧
      (∀ a, a < addr.toNat ∨ addr.toNat + 40 ≤ a → Memory.lookup t.lm a = Memory.lookup s.lm a) ∧
      (∀ r, keptRegister s t r) ∧ keptFaultRegisters s t ∧ keptSetting s t ∧ t.pc = s.pc + 1#32) ∧
    (s.cfg.lmWords < addr.toNat + 40 →
      ∃ t, exec (.vst fr addr) s = .next t ∧ ∀ cw, decode cw = .ok (.vst fr addr) → entersFault 2#32 cw s t)

/-- VST followed by VLD of the same address copies the register exactly into another (or the same) register. -/
def Obligations.StoreThenLoadCopiesTheRegister : Prop :=
  ∀ (fs fd : FReg) (addr : BitVec 16) (s : State), addr.toNat + 40 ≤ s.cfg.lmWords →
    ∃ t u, exec (.vst fs addr) s = .next t ∧ exec (.vld fd addr) t = .next u ∧ u.f.get fd = s.field fs ∧
      u.written.get fd = true ∧ keptMemory t u ∧ ∀ r, r ≠ fd → keptRegister s u r

/-- R138: VLDC loads ROM[e] for the populated indices; a word with any other index is illegal at decode. -/
def Obligations.VldcLoadsTheRomEntry : Prop :=
  ∀ (fd : FReg) (e : BitVec 5) (s : State),
    ((e.toNat ≤ 5 ∨ (8 ≤ e.toNat ∧ e.toNat ≤ 23)) → ∃ t v,
      rom e = some v ∧ exec (.vldc fd e) s = .next t ∧ retires fd v s t) ∧
    (¬ (e.toNat ≤ 5 ∨ (8 ≤ e.toNat ∧ e.toNat ≤ 23)) →
      decode (encode (.vldc fd e)) = .error .reservedRomIndex ∧
      (s.faulted = false →
        ∃ t, s.runCommand (encode (.vldc fd e)) = .next t ∧ entersFault 1#32 (encode (.vldc fd e)) s t))

/-- R22: the physical view, the vector by its eight lanes and the lane of every limb, and that the two views are the same
40 words. -/
def Obligations.LaneLayoutIsTheBijection : Prop :=
  (∀ (v : Vfe) (j : Fin 5),
    Lanes.vec v j =
      [v.limb .A (Fin.ofNat 10 (2 * j.val)), v.limb .B (Fin.ofNat 10 (2 * j.val)), v.limb .A (Fin.ofNat 10 (2 * j.val + 1)),
       v.limb .B (Fin.ofNat 10 (2 * j.val + 1)), v.limb .C (Fin.ofNat 10 (2 * j.val)), v.limb .D (Fin.ofNat 10 (2 * j.val)),
       v.limb .C (Fin.ofNat 10 (2 * j.val + 1)), v.limb .D (Fin.ofNat 10 (2 * j.val + 1))]) ∧
  (∀ (v : Vfe) (sl : Slot) (i : Fin 10),
    v.limb sl i =
      Lanes.lane v (Fin.ofNat 5 (i.val / 2)) (Fin.ofNat 8 (sl.code % 2 + 2 * (i.val % 2) + 4 * (sl.code / 2)))) ∧
  (∀ v : Vfe, Lanes.ofLanes (Lanes.lane v) = v) ∧
  ∀ lane : Fin 5 → Fin 8 → Word, Lanes.lane (Lanes.ofLanes lane) = lane

/-! ### The constant ROM -/

/-- R12, R181: the limbs of p, 2p and 16p: their values, the ROM entries that hold them, and their physical view. -/
def Obligations.ReductionConstants : Prop :=
  val (multiple 1) = prime ∧ val (multiple 2) = 2 * prime ∧ val (multiple 16) = 16 * prime ∧
  primeLimb 0 = 2 ^ 26 - 19 ∧ (∀ i : Fin 10, i.val % 2 = 1 → primeLimb i = 2 ^ 25 - 1) ∧
  (∀ i : Fin 10, i.val % 2 = 0 → i ≠ 0 → primeLimb i = 2 ^ 26 - 1) ∧
  (∀ k i, multipleLimb k i = k * primeLimb i) ∧ (∀ i, multipleLimb 16 i ≤ 1073741808) ∧
  rom 2 = some (allSlots (multiple 2)) ∧ rom 3 = some (allSlots (multiple 16)) ∧
  Lanes.vec romP2 0 =
    [0x07FFFFDA#32, 0x07FFFFDA#32, 0x03FFFFFE#32, 0x03FFFFFE#32, 0x07FFFFDA#32, 0x07FFFFDA#32, 0x03FFFFFE#32, 0x03FFFFFE#32] ∧
  (∀ j, j ≠ 0 → Lanes.vec romP2 j =
    [0x07FFFFFE#32, 0x07FFFFFE#32, 0x03FFFFFE#32, 0x03FFFFFE#32, 0x07FFFFFE#32, 0x07FFFFFE#32, 0x03FFFFFE#32, 0x03FFFFFE#32]) ∧
  Lanes.vec romP16 0 =
    [0x3FFFFED0#32, 0x3FFFFED0#32, 0x1FFFFFF0#32, 0x1FFFFFF0#32, 0x3FFFFED0#32, 0x3FFFFED0#32, 0x1FFFFFF0#32, 0x1FFFFFF0#32] ∧
  ∀ j, j ≠ 0 → Lanes.vec romP16 j =
    [0x3FFFFFF0#32, 0x3FFFFFF0#32, 0x1FFFFFF0#32, 0x1FFFFFF0#32, 0x3FFFFFF0#32, 0x3FFFFFF0#32, 0x1FFFFFF0#32, 0x1FFFFFF0#32]

/-- R180, R183, R189: 22 entries, all canonical but 2p and 16p; the small constants; the reserved indices hold nothing. -/
def Obligations.RomEntriesAreCanonical : Prop :=
  ((List.range 32).filter fun e => (rom (BitVec.ofNat 5 e)).isSome) =
    [0, 1, 2, 3, 4, 5, 8, 9, 10, 11, 12, 13, 14, 15, 16, 17, 18, 19, 20, 21, 22, 23] ∧
  (∀ e v, rom e = some v → e ≠ 2#5 → e ≠ 3#5 → canonVfe v) ∧
  rom 0 = some ⟨canon 0, canon 0, canon 0, canon 0⟩ ∧ rom 1 = some ⟨canon 1, canon 1, canon 1, canon 1⟩ ∧
  rom 4 = some ⟨canon 1, canon 1, canon 2, canon curveTwoD⟩ ∧ rom 5 = some ⟨canon 0, canon 1, canon 1, canon 0⟩

/-- R182, R184: d and 2d, with their canonical limbs, and the base point. -/
def Obligations.CurveConstants : Prop :=
  dField * 121666 = -121665 ∧ curveD < prime ∧ curveTwoD = 2 * curveD % prime ∧
  canon curveD =
    ⟨0x035978A3, 0x00D37284, 0x03156EBD, 0x006A0A0E, 0x0001C029, 0x0179E898, 0x03A03CBB, 0x01CE7198, 0x02E2B6FF, 0x01480DB3⟩ ∧
  canon curveTwoD =
    ⟨0x02B2F159, 0x01A6E509, 0x022ADD7A, 0x00D4141D, 0x00038052, 0x00F3D130, 0x03407977, 0x019CE331, 0x01C56DFF, 0x00901B67⟩ ∧
  tablePoint 0 =
    (15112221349535400772501151409588531511454012693041857206046113283949847762202,
     46316835694926478169428394003475163141307993866256225615783033603165251855960) ∧
  5 * tableY 0 = 4 ∧ (tablePoint 0).1 % 2 = 0 ∧ (tablePoint 0).1 < prime ∧ (tablePoint 0).2 < prime ∧
  onCurve (tableX 0) (tableY 0)

/-- R185: the table entries are the normalised coordinates of points of the curve, entry i + 1 the sum of entry i and 2B,
so that entry i is (2i+1)B. -/
def Obligations.TableHoldsOddMultiples : Prop :=
  (∀ i : Fin 8,
    rom (BitVec.ofNat 5 (8 + i.val)) =
      some ⟨canon (tablePoint i).1, canon (tablePoint i).2, canon 1, canon ((tablePoint i).1 * (tablePoint i).2)⟩ ∧
    onCurve (tableX i) (tableY i)) ∧
  (∀ (i : Fin 8) (v : Vfe), rom (BitVec.ofNat 5 (8 + i.val)) = some v → represents v (tableX i) (tableY i)) ∧
  ∃ x2 y2 : ZMod prime, onCurve x2 y2 ∧ isCurveSum (tableX 0) (tableY 0) (tableX 0) (tableY 0) x2 y2 ∧
    ∀ i : Fin 7, isCurveSum (tableX i.castSucc) (tableY i.castSucc) x2 y2 (tableX i.succ) (tableY i.succ)

/-- R186: the cached table, and that PCACHE of a table entry reduces to it word for word. -/
def Obligations.CachedTableIsPcacheOfTable : Prop :=
  ∀ i : Fin 8,
    rom (BitVec.ofNat 5 (16 + i.val)) =
      some ⟨canon ((tablePoint i).2 - (tablePoint i).1 : Int), canon ((tablePoint i).2 + (tablePoint i).1), canon 2,
        canon (2 * curveD * (tablePoint i).1 * (tablePoint i).2)⟩ ∧
    ∃ v c, rom (BitVec.ofNat 5 (8 + i.val)) = some v ∧ rom (BitVec.ofNat 5 (16 + i.val)) = some c ∧
      vredFFn (cache v) = c

/-- R187: the table generated with the unit's own commands: U[i] represents the same point as T[i]. -/
def Obligations.TableIsGeneratedByPointAddition : Prop :=
  ∀ i : Fin 8, fe (tableChain i.val).a = tableX i * fe (tableChain i.val).c ∧
    fe (tableChain i.val).b = tableY i * fe (tableChain i.val).c ∧ fe (tableChain i.val).c ≠ 0

/-! ### Point commands -/

/-- Every point command writes the words of its printed sequence, line by line, and nothing else: for every input, valid
point or not. -/
def Obligations.PointCommandsRunTheirSequences : Prop :=
  (∀ (fd fa : FReg) (s : State), ∃ t v, exec (.pdbl fd fa) s = .next t ∧ retires fd v s t ∧
    v =
      let a := s.field fa
      let t0 := vshufFn a 0x44#8
      let t1 := vshufFn t0 0xB1#8
      let t2 := vaddFn t0 t1
      let t0 := vblendFn a t2 0b1000#4
      let t1 := vsqFn t0
      let t1 := vnegFn 2 t1 0b1000#4
      let s1 := vshufFn t1 0x00#8
      let s2 := vshufFn t1 0x55#8
      let t3 := vaddFn t1 t1
      let t0 := vblendFn romZero t3 0b0100#4
      let t0 := vblendFn t0 t1 0b1000#4
      let t0 := vaddFn t0 s1
      let t4 := vblendFn romZero s2 0b1001#4
      let t0 := vaddFn t0 t4
      let n2 := vnegFn 2 s2 0b1111#4
      let t4 := vblendFn romZero n2 0b0110#4
      let t0 := vaddFn t0 t4
      let x := vshufFn t0 0x22#8
      let y := vshufFn t0 0xD7#8
      vmulFn x y) ∧
  (∀ (fd fa : FReg) (s : State), ∃ t v, exec (.pcache fd fa) s = .next t ∧ retires fd v s t ∧
    v =
      let a := s.field fa
      let diff := vaddFn (vshufFn a 0xB1#8) (vnegFn 2 a 0b0101#4)
      vmulFn (vblendFn a diff 0b0011#4) romKcache) ∧
  (∀ (fd fa fc : FReg) (s : State), ∃ t v, exec (.paddc fd fa fc) s = .next t ∧ retires fd v s t ∧
    v =
      let a := s.field fa
      let diff := vaddFn (vshufFn a 0xB1#8) (vnegFn 2 a 0b0101#4)
      let t := vblendFn a diff 0b0011#4
      let t := vmulFn t (s.field fc)
      let t := vshufFn t 0xB4#8
      let t := vaddFn (vshufFn t 0xB1#8) (vnegFn 2 t 0b0101#4)
      let x := vshufFn t 0x3C#8
      let y := vshufFn t 0x66#8
      vmulFn x y) ∧
  (∀ (fd fa fb : FReg) (s : State), ∃ t, exec (.padd fd fa fb) s = .next t ∧
    retires fd (addC (s.field fa) (cache (s.field fb))) s t) ∧
  ∀ (fd fa : FReg) (s : State), ∃ t, exec (.pneg fd fa) s = .next t ∧
    retires fd (vredLFn (vnegFn 2 (s.field fa) 0b1001#4)) s t

/-- The addition law of the curve has no exceptional pairs: for points of the curve neither denominator is 0, and the sum
exists, is a point of the curve, and is unique. -/
def Obligations.CurveAdditionIsComplete : Prop :=
  ∀ x1 y1 x2 y2 : ZMod prime, onCurve x1 y1 → onCurve x2 y2 →
    1 + crossTerm x1 y1 x2 y2 ≠ 0 ∧ 1 - crossTerm x1 y1 x2 y2 ≠ 0 ∧
    ∃ x3 y3, onCurve x3 y3 ∧ isCurveSum x1 y1 x2 y2 x3 y3 ∧
      ∀ x y, isCurveSum x1 y1 x2 y2 x y → x = x3 ∧ y = y3

/-- A register holds a valid point exactly when it represents some affine point of the curve, and that point is unique;
the source's weaker invariant, (Z, T) not (0, 0), and the two point equations imply Z not 0. -/
def Obligations.ValidPointsRepresentAffinePoints : Prop :=
  ∀ v : Vfe, (validPoint v ↔ ∃ x y, represents v x y) ∧
    (∀ x y x' y', represents v x y → represents v x' y' → x = x' ∧ y = y') ∧
    (pointEquations v → (fe v.c ≠ 0 ∨ fe v.d ≠ 0) → fe v.c ≠ 0)

/-- PDBL of a class-N register that represents P writes a class-N register that represents P + P; X3*Y3 = Z3*T3 holds for
every class-N input; the T slot of the input has no influence. -/
def Obligations.PdblDoublesThePoint : Prop :=
  (∀ (fd fa : FReg) (s : State), nearVfe (s.field fa) → ∃ t v,
    exec (.pdbl fd fa) s = .next t ∧ retires fd v s t ∧ nearVfe v ∧ fe v.a * fe v.b = fe v.c * fe v.d ∧
    ∀ x y, represents (s.field fa) x y → ∃ x3 y3, represents v x3 y3 ∧ isCurveSum x y x y x3 y3) ∧
  ∀ (x y z u u' : LimbVec), dbl ⟨x, y, z, u⟩ = dbl ⟨x, y, z, u'⟩

/-- R155: PCACHE writes the cached form of its source, in class N; of the identity, the field elements (1, 1, 2, 0); of
table entry i, a register that VRED.F turns into ROM[16+i]. -/
def Obligations.PcacheWritesTheCachedForm : Prop :=
  (∀ (fd fa : FReg) (s : State), ∃ t v, exec (.pcache fd fa) s = .next t ∧ retires fd v s t ∧
    v = vmulFn (vblendFn (s.field fa) (diffSum (s.field fa)) 0b0011#4) romKcache ∧
    (nearVfe (s.field fa) → nearVfe v ∧ cachedForm v (s.field fa))) ∧
  (fe (cache romIdent).a = 1 ∧ fe (cache romIdent).b = 1 ∧ fe (cache romIdent).c = 2 ∧ fe (cache romIdent).d = 0) ∧
  ∀ (i : Fin 8) (v c : Vfe), rom (BitVec.ofNat 5 (8 + i.val)) = some v → rom (BitVec.ofNat 5 (16 + i.val)) = some c →
    vredFFn (cache v) = c

/-- PADDC of a class-N register that represents P and a class-W register that is the cached form of one representing Q
writes a class-N register that represents P + Q, with no case split. -/
def Obligations.PaddcAddsTheCachedPoint : Prop :=
  ∀ (fd fa fc : FReg) (s : State), nearVfe (s.field fa) → wideVfe (s.field fc) → ∃ t v,
    exec (.paddc fd fa fc) s = .next t ∧ retires fd v s t ∧ nearVfe v ∧ fe v.a * fe v.b = fe v.c * fe v.d ∧
    ∀ x1 y1 x2 y2, represents (s.field fa) x1 y1 → cachedOf (s.field fc) x2 y2 →
      ∃ x3 y3, represents v x3 y3 ∧ isCurveSum x1 y1 x2 y2 x3 y3

/-- R157: PADD writes AddC(a, Cache(b)): word for word PCACHE into some third register and then PADDC; for class-N
registers that represent P and Q, a class-N register that represents P + Q; adding the identity gives P, adding P to
itself the same point as PDBL, and the order of the operands does not matter, as points. -/
def Obligations.PaddAddsThePoints : Prop :=
  (∀ (fd fa fb : FReg) (s : State), ∃ t v, exec (.padd fd fa fb) s = .next t ∧ retires fd v s t ∧
    v = addC (s.field fa) (cache (s.field fb)) ∧
    (∀ ft, ft ≠ fa → s.written.get fa = true →
      ∃ u w, exec (.pcache ft fb) s = .next u ∧ exec (.paddc fd fa ft) u = .next w ∧ w.f.get fd = v) ∧
    (nearVfe (s.field fa) → nearVfe (s.field fb) → nearVfe v ∧
      ∀ x1 y1 x2 y2, represents (s.field fa) x1 y1 → represents (s.field fb) x2 y2 →
        ∃ x3 y3, represents v x3 y3 ∧ isCurveSum x1 y1 x2 y2 x3 y3)) ∧
  (∀ a : Vfe, nearVfe a → validPoint a →
    samePoint (addC a (cache romIdent)) a ∧ samePoint (addC a (cache a)) (dbl a)) ∧
  ∀ a b : Vfe, nearVfe a → nearVfe b → validPoint a → validPoint b →
    samePoint (addC a (cache b)) (addC b (cache a))

/-- R158: PNEG negates slots A and D with 2p and reduces every slot lazily; a register that represents P, slots A and D
within 2p, becomes a class-N register that represents -P; canonical slots B and C are unchanged; of the identity, slots A
and D become the limbs of p; twice, it represents the original point; a cached form is negated by VSHUF BACD and VNEG.P2
of slot D. -/
def Obligations.PnegNegatesThePoint : Prop :=
  (∀ (fd fa : FReg) (s : State), ∃ t v, exec (.pneg fd fa) s = .next t ∧ retires fd v s t ∧
    v = vredLFn (vnegFn 2 (s.field fa) 0b1001#4) ∧ nearVfe v ∧
    (isCanon (s.field fa).b → v.b = (s.field fa).b) ∧ (isCanon (s.field fa).c → v.c = (s.field fa).c) ∧
    (withinMultiple 2 (s.field fa).a → withinMultiple 2 (s.field fa).d → ∀ x y, represents (s.field fa) x y →
      represents v (-x) y ∧ represents (pnegFn v) x y)) ∧
  (∀ c v : Vfe, cachedForm c v → withinMultiple 2 c.d → withinMultiple 2 v.a → withinMultiple 2 v.d →
    cachedForm (vnegFn 2 (vshufFn c 0xE1#8) 0b1000#4) (pnegFn v)) ∧
  pnegFn romIdent = ⟨multiple 1, romIdent.b, romIdent.c, multiple 1⟩

/-- P + (-P) is the identity: X3 = 0, T3 = 0 and Y3 = Z3, which is not 0; doubling the identity, or adding it to itself,
gives the same form. -/
def Obligations.OppositePointsAddToIdentity : Prop :=
  (∀ a : Vfe, nearVfe a → validPoint a →
    fe (addC a (cache (pnegFn a))).a = 0 ∧ fe (addC a (cache (pnegFn a))).d = 0 ∧
    fe (addC a (cache (pnegFn a))).b = fe (addC a (cache (pnegFn a))).c ∧ fe (addC a (cache (pnegFn a))).c ≠ 0) ∧
  fe (dbl romIdent).a = 0 ∧ fe (dbl romIdent).d = 0 ∧ fe (dbl romIdent).b = fe (dbl romIdent).c ∧
  fe (dbl romIdent).c ≠ 0

/-- R161: every point command accepts class N and returns class N, so a chain of any length of them, from registers in
class N, needs no reduction; every ROM entry but 2p and 16p is in class N. -/
def Obligations.PointChainsStayInClassN : Prop :=
  (∀ (i : Instr) (s : State), isPointCommand i = true → (∀ r ∈ sourcesOf i, nearVfe (s.field r)) →
    ∃ t, exec i s = .next t ∧ ∀ fd, destinationOf i = some fd → nearVfe (t.f.get fd)) ∧
  (∀ (is : List Instr) (s : State), (∀ i ∈ is, isPointCommand i = true) →
    (∀ r : FReg, s.written.get r = true ∧ nearVfe (s.f.get r)) → s.faulted = false →
    s.port = is.map (fun i => HostMove.issue (encode i)) →
      ∃ t, Host.Core.run Sys2Proof.core is.length s = .next t ∧ t.faulted = false ∧
        t.pc = s.pc + BitVec.ofNat 32 is.length ∧ ∀ r : FReg, t.written.get r = true ∧ nearVfe (t.f.get r)) ∧
  ∀ e v, rom e = some v → e ≠ 2#5 → e ≠ 3#5 → nearVfe v
end

