-- ==== Sys2Proof/Laws/Decode.lean ====
section
/-! SUPPORT. Reading the fields of a word built from fields, and building a word from its own fields (30_encoding.md
R71); the pieces from which the round trips of decode and encode are put together. -/

namespace Sys2Proof

@[simp] theorem regOfBits_regBits (r : FReg) : regOfBits (regBits r) = r := by
  ext
  simp only [regOfBits, regBits, BitVec.toNat_ofNat]
  omega

@[simp] theorem regBits_regOfBits (b : BitVec 4) : regBits (regOfBits b) = b := by
  simp [regOfBits, regBits]

section WordR
variable (op : BitVec 6) (fd fa fb : BitVec 4) (imm : BitVec 14)

@[simp] theorem opField_wordR : opField (wordR op fd fa fb imm) = op := by
  unfold opField wordR
  ext i hi
  simp
  grind

@[simp] theorem fdField_wordR : fdField (wordR op fd fa fb imm) = fd := by
  unfold fdField wordR
  ext i hi
  simp
  grind

@[simp] theorem faField_wordR : faField (wordR op fd fa fb imm) = fa := by
  unfold faField wordR
  ext i hi
  simp
  grind

@[simp] theorem fbField_wordR : fbField (wordR op fd fa fb imm) = fb := by
  unfold fbField wordR
  ext i hi
  simp
  grind

@[simp] theorem immField_wordR : immField (wordR op fd fa fb imm) = imm := by
  unfold immField wordR
  ext i hi
  simp
  grind

end WordR

section WordM
variable (op : BitVec 6) (fr : BitVec 4) (addr : BitVec 16)

@[simp] theorem opField_wordM : opField (wordM op fr addr) = op := by
  unfold opField wordM
  ext i hi
  simp
  grind

@[simp] theorem fdField_wordM : fdField (wordM op fr addr) = fr := by
  unfold fdField wordM
  ext i hi
  simp
  grind

@[simp] theorem zeroField_wordM : zeroField (wordM op fr addr) = 0 := by
  unfold zeroField wordM
  ext i hi
  simp
  grind

@[simp] theorem addrField_wordM : addrField (wordM op fr addr) = addr := by
  unfold addrField wordM
  ext i hi
  simp
  grind

end WordM

/-- A word is the format R word of its own fields. -/
theorem wordR_fields (w : Word) : wordR (opField w) (fdField w) (faField w) (fbField w) (immField w) = w := by
  unfold wordR opField fdField faField fbField immField
  ext i hi
  simp
  grind

/-- A word whose bits 21:16 are zero is the format M word of its own fields. -/
theorem wordM_fields {w : Word} (h : zeroField w = 0) : wordM (opField w) (fdField w) (addrField w) = w := by
  have h' : zeroField w = 0#6 := h
  unfold wordM
  rw [← h']
  unfold opField fdField zeroField addrField
  ext i hi
  simp
  grind

@[simp] theorem requireZero_true (i : Instr) : requireZero true i = .ok i := rfl
@[simp] theorem requireZero_false (i : Instr) : requireZero false i = .error .nonzeroField := rfl

/-- requireZero answers a command exactly when the must-be-zero fields are zero. -/
theorem requireZero_ok {b : Bool} {i j : Instr} : requireZero b i = .ok j ↔ b = true ∧ i = j := by
  cases b <;> simp [requireZero]

end Sys2Proof
end

