-- ==== Sys2Proof/Laws/Memory.lean ====
section
/-! SUPPORT. The laws of the limb memory: a read after a write, and that every memory operation keeps the canonical
form (addresses strictly rising) and stays inside the memory. -/

namespace Sys2Proof.Machine

theorem Memory.lookup_store (m : List Cell) (a b : Nat) (v : Word) :
    Memory.lookup (Memory.store m a v) b = if b = a then some v else Memory.lookup m b := by
  induction m with
  | nil => simp [Memory.store, Memory.lookup]
  | cons cell rest ih =>
    obtain ⟨c, u⟩ := cell
    simp only [Memory.store]
    split_ifs <;> simp_all [Memory.lookup]

@[simp] theorem Memory.lookup_store_self (m : List Cell) (a : Nat) (v : Word) :
    Memory.lookup (Memory.store m a v) a = some v := by
  simp [Memory.lookup_store]

theorem Memory.lookup_store_ne {m : List Cell} {a b : Nat} {v : Word} (h : b ≠ a) :
    Memory.lookup (Memory.store m a v) b = Memory.lookup m b := by
  simp [Memory.lookup_store, h]

/-- After MemWrite the stored words read back, and every other word is as before. -/
theorem Memory.lookup_storeWords (vs : List Word) (m : List Cell) (a b : Nat) :
    Memory.lookup (Memory.storeWords m a vs) b =
      if h : a ≤ b ∧ b - a < vs.length then some (vs[b - a]'h.2) else Memory.lookup m b := by
  induction vs generalizing m a with
  | nil => simp [Memory.storeWords]
  | cons v vs ih =>
    simp only [Memory.storeWords, ih, Memory.lookup_store]
    by_cases hb : b = a
    · subst hb
      simp
    · by_cases hle : a + 1 ≤ b
      · have e : b - a = (b - (a + 1)) + 1 := by omega
        have hle' : a ≤ b := by omega
        simp only [hle, hle', true_and, hb, if_false, List.length_cons]
        by_cases hlt : b - (a + 1) < vs.length
        · have hlt' : b - a < vs.length + 1 := by omega
          simp only [hlt, hlt', dif_pos]
          simp [e]
        · have hlt' : ¬ b - a < vs.length + 1 := by omega
          simp [hlt, hlt']
      · have hle' : ¬ a ≤ b := by omega
        simp [hle, hle', hb]

theorem Memory.above_store {m : List Cell} {a b : Nat} {v : Word} (hm : Memory.above b m = true) (h : b < a) :
    Memory.above b (Memory.store m a v) = true := by
  induction m with
  | nil => simp [Memory.store, Memory.above, h]
  | cons cell rest ih =>
    obtain ⟨c, u⟩ := cell
    simp only [Memory.above, Bool.and_eq_true, decide_eq_true_eq] at hm
    simp only [Memory.store]
    split_ifs <;> simp_all [Memory.above]

theorem Memory.above_mono {m : List Cell} {a b : Nat} (h : a ≤ b) (hm : Memory.above b m = true) :
    Memory.above a m = true := by
  induction m with
  | nil => rfl
  | cons cell rest ih =>
    obtain ⟨c, u⟩ := cell
    simp only [Memory.above, Bool.and_eq_true, decide_eq_true_eq] at hm ⊢
    exact ⟨by omega, ih hm.2⟩

/-- A store keeps the canonical form. -/
theorem Memory.wf_store {m : List Cell} (a : Nat) (v : Word) (hm : Memory.wf m = true) :
    Memory.wf (Memory.store m a v) = true := by
  induction m with
  | nil => simp [Memory.store, Memory.wf, Memory.above]
  | cons cell rest ih =>
    obtain ⟨c, u⟩ := cell
    simp only [Memory.wf, Bool.and_eq_true] at hm
    simp only [Memory.store]
    split_ifs with h1 h2
    · simp only [Memory.wf, Memory.above, Bool.and_eq_true, decide_eq_true_eq]
      exact ⟨⟨h1, Memory.above_mono (Nat.le_of_lt h1) hm.1⟩, hm⟩
    · subst h2
      simpa [Memory.wf] using hm
    · have : c < a := by omega
      simp only [Memory.wf, Bool.and_eq_true]
      exact ⟨Memory.above_store hm.1 this, ih hm.2⟩

/-- MemWrite keeps the canonical form. -/
theorem Memory.wf_storeWords (vs : List Word) {m : List Cell} (a : Nat) (hm : Memory.wf m = true) :
    Memory.wf (Memory.storeWords m a vs) = true := by
  induction vs generalizing m a with
  | nil => exact hm
  | cons v vs ih => exact ih (a + 1) (Memory.wf_store a v hm)

/-- A store inside the memory leaves every listed address inside it. -/
theorem Memory.inside_store {m : List Cell} {n a : Nat} (v : Word) (hm : Memory.inside n m = true) (h : a < n) :
    Memory.inside n (Memory.store m a v) = true := by
  induction m with
  | nil => simp [Memory.store, Memory.inside, h]
  | cons cell rest ih =>
    obtain ⟨c, u⟩ := cell
    simp only [Memory.inside, Bool.and_eq_true, decide_eq_true_eq] at hm
    simp only [Memory.store]
    split_ifs <;> simp_all [Memory.inside]

theorem Memory.inside_storeWords (vs : List Word) {m : List Cell} {n a : Nat} (hm : Memory.inside n m = true)
    (h : a + vs.length ≤ n) : Memory.inside n (Memory.storeWords m a vs) = true := by
  induction vs generalizing m a with
  | nil => exact hm
  | cons v vs ih =>
    simp only [List.length_cons] at h
    exact ih (Memory.inside_store v hm (by omega)) (by omega)

end Sys2Proof.Machine
end

