-- ==== Sys2Proof/Laws/State.lean ====
section
/-! SUPPORT. One lemma per field per update of State, each true by rfl, so that no later proof unfolds a record update;
and what reading a field register gives after each update. -/

namespace Sys2Proof.Machine

variable (s : State) (r : FReg) (v : Vfe) (c cw : Word) (addr : BitVec 16) (a : Nat) (w : Word) (m : List Cell)

@[simp] theorem writeField_f : (s.writeField r v).f = s.f.set r.val v r.isLt := rfl
@[simp] theorem writeField_written : (s.writeField r v).written = s.written.set r.val true r.isLt := rfl
@[simp] theorem writeField_lm : (s.writeField r v).lm = s.lm := rfl
@[simp] theorem writeField_pc : (s.writeField r v).pc = s.pc := rfl
@[simp] theorem writeField_status : (s.writeField r v).status = s.status := rfl
@[simp] theorem writeField_cause : (s.writeField r v).cause = s.cause := rfl
@[simp] theorem writeField_finfo : (s.writeField r v).finfo = s.finfo := rfl
@[simp] theorem writeField_cfg : (s.writeField r v).cfg = s.cfg := rfl
@[simp] theorem writeField_port : (s.writeField r v).port = s.port := rfl
@[simp] theorem writeField_fresh : (s.writeField r v).fresh = s.fresh := rfl

@[simp] theorem complete_f : s.complete.f = s.f := rfl
@[simp] theorem complete_written : s.complete.written = s.written := rfl
@[simp] theorem complete_lm : s.complete.lm = s.lm := rfl
@[simp] theorem complete_pc : s.complete.pc = s.pc + 1#32 := rfl
@[simp] theorem complete_status : s.complete.status = s.status := rfl
@[simp] theorem complete_cause : s.complete.cause = s.cause := rfl
@[simp] theorem complete_finfo : s.complete.finfo = s.finfo := rfl
@[simp] theorem complete_cfg : s.complete.cfg = s.cfg := rfl
@[simp] theorem complete_port : s.complete.port = s.port := rfl
@[simp] theorem complete_fresh : s.complete.fresh = s.fresh + 1 := rfl

@[simp] theorem takeFault_f : (s.takeFault c cw).f = s.f := rfl
@[simp] theorem takeFault_written : (s.takeFault c cw).written = s.written := rfl
@[simp] theorem takeFault_lm : (s.takeFault c cw).lm = s.lm := rfl
@[simp] theorem takeFault_pc : (s.takeFault c cw).pc = s.pc := rfl
@[simp] theorem takeFault_status : (s.takeFault c cw).status = s.status ||| faultBit := rfl
@[simp] theorem takeFault_cause : (s.takeFault c cw).cause = c := rfl
@[simp] theorem takeFault_finfo : (s.takeFault c cw).finfo = cw := rfl
@[simp] theorem takeFault_cfg : (s.takeFault c cw).cfg = s.cfg := rfl
@[simp] theorem takeFault_port : (s.takeFault c cw).port = s.port := rfl
@[simp] theorem takeFault_fresh : (s.takeFault c cw).fresh = s.fresh := rfl

@[simp] theorem withLm_f : (s.withLm m).f = s.f := rfl
@[simp] theorem withLm_written : (s.withLm m).written = s.written := rfl
@[simp] theorem withLm_lm : (s.withLm m).lm = m := rfl
@[simp] theorem withLm_pc : (s.withLm m).pc = s.pc := rfl
@[simp] theorem withLm_status : (s.withLm m).status = s.status := rfl
@[simp] theorem withLm_cause : (s.withLm m).cause = s.cause := rfl
@[simp] theorem withLm_finfo : (s.withLm m).finfo = s.finfo := rfl
@[simp] theorem withLm_cfg : (s.withLm m).cfg = s.cfg := rfl
@[simp] theorem withLm_port : (s.withLm m).port = s.port := rfl
@[simp] theorem withLm_fresh : (s.withLm m).fresh = s.fresh := rfl

@[simp] theorem storeVfe_f : (s.storeVfe addr v).f = s.f := withLm_f _ _
@[simp] theorem storeVfe_written : (s.storeVfe addr v).written = s.written := withLm_written _ _
@[simp] theorem storeVfe_lm : (s.storeVfe addr v).lm = Memory.storeWords s.lm addr.toNat (imageOf v) := withLm_lm _ _
@[simp] theorem storeVfe_pc : (s.storeVfe addr v).pc = s.pc := withLm_pc _ _
@[simp] theorem storeVfe_status : (s.storeVfe addr v).status = s.status := withLm_status _ _
@[simp] theorem storeVfe_cause : (s.storeVfe addr v).cause = s.cause := withLm_cause _ _
@[simp] theorem storeVfe_finfo : (s.storeVfe addr v).finfo = s.finfo := withLm_finfo _ _
@[simp] theorem storeVfe_cfg : (s.storeVfe addr v).cfg = s.cfg := withLm_cfg _ _
@[simp] theorem storeVfe_port : (s.storeVfe addr v).port = s.port := withLm_port _ _
@[simp] theorem storeVfe_fresh : (s.storeVfe addr v).fresh = s.fresh := withLm_fresh _ _

@[simp] theorem hostStore_f : (s.hostStore a w).f = s.f := withLm_f _ _
@[simp] theorem hostStore_written : (s.hostStore a w).written = s.written := withLm_written _ _
@[simp] theorem hostStore_lm : (s.hostStore a w).lm = Memory.store s.lm a w := withLm_lm _ _
@[simp] theorem hostStore_pc : (s.hostStore a w).pc = s.pc := withLm_pc _ _
@[simp] theorem hostStore_status : (s.hostStore a w).status = s.status := withLm_status _ _
@[simp] theorem hostStore_cause : (s.hostStore a w).cause = s.cause := withLm_cause _ _
@[simp] theorem hostStore_finfo : (s.hostStore a w).finfo = s.finfo := withLm_finfo _ _
@[simp] theorem hostStore_cfg : (s.hostStore a w).cfg = s.cfg := withLm_cfg _ _
@[simp] theorem hostStore_port : (s.hostStore a w).port = s.port := withLm_port _ _
@[simp] theorem hostStore_fresh : (s.hostStore a w).fresh = s.fresh := withLm_fresh _ _

@[simp] theorem applyReset_f : s.applyReset.f = Vector.replicate 16 unwrittenContent := rfl
@[simp] theorem applyReset_written : s.applyReset.written = Vector.replicate 16 false := rfl
@[simp] theorem applyReset_lm : s.applyReset.lm = s.lm := rfl
@[simp] theorem applyReset_pc : s.applyReset.pc = 0#32 := rfl
@[simp] theorem applyReset_status : s.applyReset.status = 0#32 := rfl
@[simp] theorem applyReset_cause : s.applyReset.cause = 0#32 := rfl
@[simp] theorem applyReset_finfo : s.applyReset.finfo = 0#32 := rfl
@[simp] theorem applyReset_cfg : s.applyReset.cfg = s.cfg := rfl
@[simp] theorem applyReset_port : s.applyReset.port = s.port := rfl
@[simp] theorem applyReset_fresh : s.applyReset.fresh = s.fresh + 1 := rfl

/-- The reset state's memory is in canonical form. -/
theorem reset_memory_wf : Memory.wf State.reset.lm = true := rfl

/-! ### Field registers after an update -/

@[simp] theorem writeField_f_self : (s.writeField r v).f.get r = v := by
  simp [Vector.get_eq_getElem]

@[simp] theorem writeField_written_self : (s.writeField r v).written.get r = true := by
  simp [Vector.get_eq_getElem]

theorem writeField_f_ne {r q : FReg} (h : q ≠ r) : (s.writeField r v).f.get q = s.f.get q := by
  have h' : r.val ≠ q.val := fun e => h (Fin.ext e.symm)
  simp [Vector.get_eq_getElem, h']

theorem writeField_written_ne {r q : FReg} (h : q ≠ r) : (s.writeField r v).written.get q = s.written.get q := by
  have h' : r.val ≠ q.val := fun e => h (Fin.ext e.symm)
  simp [Vector.get_eq_getElem, h']

/-- A written register reads as what is stored in it. -/
theorem field_of_written {s : State} {r : FReg} (h : s.written.get r = true) : s.field r = s.f.get r := by
  simp [State.field, h]

@[simp] theorem writeField_field_self : (s.writeField r v).field r = v := by
  rw [field_of_written (writeField_written_self s r v), writeField_f_self]

@[simp] theorem writeField_complete_field_self : (s.writeField r v).complete.field r = v := by
  have h : (s.writeField r v).complete.written.get r = true := writeField_written_self s r v
  rw [field_of_written h]
  exact writeField_f_self s r v

end Sys2Proof.Machine
end

