-- ==== Sys2Proof/Laws/Vfe.lean ====
section
/-! SUPPORT. The small lemmas of limb vectors and VFEs: reading what was built, and equality limb by limb. -/

namespace Sys2Proof

@[simp] theorem Ten.get_ofFn {α : Type} (f : Fin 10 → α) (i : Fin 10) : (Ten.ofFn f).get i = f i := by
  fin_cases i <;> rfl

theorem Ten.ext_get {α : Type} {x y : Ten α} (h : ∀ i, x.get i = y.get i) : x = y := by
  obtain ⟨x0, x1, x2, x3, x4, x5, x6, x7, x8, x9⟩ := x
  obtain ⟨y0, y1, y2, y3, y4, y5, y6, y7, y8, y9⟩ := y
  have h0 : x0 = y0 := h 0
  have h1 : x1 = y1 := h 1
  have h2 : x2 = y2 := h 2
  have h3 : x3 = y3 := h 3
  have h4 : x4 = y4 := h 4
  have h5 : x5 = y5 := h 5
  have h6 : x6 = y6 := h 6
  have h7 : x7 = y7 := h 7
  have h8 : x8 = y8 := h 8
  have h9 : x9 = y9 := h 9
  subst h0 h1 h2 h3 h4 h5 h6 h7 h8 h9
  rfl

@[simp] theorem Vfe.slot_ofSlots (f : Slot → LimbVec) (s : Slot) : (Vfe.ofSlots f).slot s = f s := by
  cases s <;> rfl

@[simp] theorem Vfe.limb_ofSlots (f : Slot → LimbVec) (s : Slot) (i : Fin 10) :
    (Vfe.ofSlots f).limb s i = (f s).get i := by
  simp [Vfe.limb]

theorem Vfe.ext_slot {v w : Vfe} (h : ∀ s, v.slot s = w.slot s) : v = w := by
  obtain ⟨va, vb, vc, vd⟩ := v
  obtain ⟨wa, wb, wc, wd⟩ := w
  have ha : va = wa := h .A
  have hb : vb = wb := h .B
  have hc : vc = wc := h .C
  have hd : vd = wd := h .D
  subst ha hb hc hd
  rfl

theorem Vfe.ext_limb {v w : Vfe} (h : ∀ s i, v.limb s i = w.limb s i) : v = w :=
  Vfe.ext_slot fun s => Ten.ext_get (h s)

theorem Slot.code_lt (s : Slot) : s.code < 4 := by
  cases s <;> decide

namespace Machine

@[simp] theorem addSlot_get (x y : LimbVec) (i : Fin 10) : (addSlot x y).get i = x.get i + y.get i := by
  simp [addSlot]

@[simp] theorem subSlot_get (k : Nat) (x y : LimbVec) (i : Fin 10) :
    (subSlot k x y).get i = x.get i + BitVec.ofNat 32 (multipleLimb k i) - y.get i := by
  simp [subSlot]

@[simp] theorem negSlot_get (k : Nat) (x : LimbVec) (i : Fin 10) :
    (negSlot k x).get i = BitVec.ofNat 32 (multipleLimb k i) - x.get i := by
  simp [negSlot]

/-- canon of a natural number, the residue taken in the natural numbers. -/
theorem canon_natCast (n : Nat) :
    canon (n : Int) = Ten.ofFn fun i => BitVec.ofNat 32 (((n % prime) >>> limbExp i) &&& limbMask i) := by
  rw [canon, ← Int.natCast_mod, Int.toNat_natCast]

/-- canon depends on its argument's residue mod p only. -/
theorem canon_emod (n : Int) : canon (n % (prime : Int)) = canon n := by
  rw [canon, Int.emod_emod, canon]

/-- A limb of canon(n) as a number: the mask is below 2^32. -/
theorem canon_get_toNat (n : Int) (i : Fin 10) :
    ((canon n).get i).toNat = ((n % (prime : Int)).toNat >>> limbExp i) &&& limbMask i := by
  rw [canon, Ten.get_ofFn, BitVec.toNat_ofNat]
  exact Nat.mod_eq_of_lt (Nat.lt_of_le_of_lt Nat.and_le_right (by fin_cases i <;> decide))

@[simp] theorem vaddFn_slot (x y : Vfe) (s : Slot) : (vaddFn x y).slot s = addSlot (x.slot s) (y.slot s) := by
  simp [vaddFn]

@[simp] theorem vsubFn_slot (k : Nat) (x y : Vfe) (s : Slot) :
    (vsubFn k x y).slot s = subSlot k (x.slot s) (y.slot s) := by
  simp [vsubFn]

@[simp] theorem vnegFn_slot (k : Nat) (x : Vfe) (m : BitVec 4) (s : Slot) :
    (vnegFn k x m).slot s = if maskHas m s then negSlot k (x.slot s) else x.slot s := by
  simp [vnegFn]

@[simp] theorem vmulFn_slot (x y : Vfe) (s : Slot) : (vmulFn x y).slot s = mulSlot (x.slot s) (y.slot s) := by
  simp [vmulFn]

@[simp] theorem vsqFn_slot (x : Vfe) (s : Slot) : (vsqFn x).slot s = mulSlot (x.slot s) (x.slot s) := by
  simp [vsqFn]

@[simp] theorem vredLFn_slot (x : Vfe) (s : Slot) : (vredLFn x).slot s = reduceLazySlot (x.slot s) := by
  simp [vredLFn]

@[simp] theorem vredFFn_slot (x : Vfe) (s : Slot) : (vredFFn x).slot s = reduceFullSlot (x.slot s) := by
  simp [vredFFn]

@[simp] theorem vshufFn_slot (x : Vfe) (sel : BitVec 8) (s : Slot) :
    (vshufFn x sel).slot s = x.slot (sourceSlot sel s) := by
  simp [vshufFn]

@[simp] theorem vblendFn_slot (x y : Vfe) (m : BitVec 4) (s : Slot) :
    (vblendFn x y m).slot s = if maskHas m s then y.slot s else x.slot s := by
  simp [vblendFn]

@[simp] theorem ofImage_limb (word : Nat → Word) (s : Slot) (i : Fin 10) :
    (ofImage word).limb s i = word (10 * s.code + i.val) := by
  simp [ofImage]

@[simp] theorem imageOf_length (v : Vfe) : (imageOf v).length = 40 := rfl

/-- Word 10*s + i of the image is limb i of slot s (20_memory.md R51). -/
theorem imageOf_getElem (v : Vfe) (s : Slot) (i : Fin 10) (h : 10 * s.code + i.val < (imageOf v).length) :
    (imageOf v)[10 * s.code + i.val] = v.limb s i := by
  cases s <;> fin_cases i <;> rfl

end Machine
end Sys2Proof
end

