-- ==== Sys2Proof/Laws/Ops.lean ====
section
/-! SUPPORT. What each shared operation, each command and one host move can do, said once. -/

namespace Sys2Proof.Machine

/-- A command that retires answers one next state: the destination written, pc and the model's counter advanced. -/
theorem retire_eq_next {s t : State} {fd : FReg} {v : Vfe} :
    s.retire fd v = .next t ↔ t = (s.writeField fd v).complete := by
  simp [State.retire, eq_comm]

theorem raiseAddressRange_eq_next {s t : State} {i : Instr} :
    s.raiseAddressRange i = .next t ↔ t = s.takeFault causeAddressRange (encode i) := by
  simp [State.raiseAddressRange, eq_comm]

theorem raiseIllegalCommand_eq_next {s t : State} {cw : Word} :
    s.raiseIllegalCommand cw = .next t ↔ t = s.takeFault causeIllegalCommand cw := by
  simp [State.raiseIllegalCommand, eq_comm]

/-- Fault entry sets FAULT. -/
@[simp] theorem takeFault_faulted (s : State) (c cw : Word) : (s.takeFault c cw).faulted = true := by
  simp [State.faulted, faultBit]

@[simp] theorem complete_faulted (s : State) : s.complete.faulted = s.faulted := rfl
@[simp] theorem writeField_faulted (s : State) (r : FReg) (v : Vfe) : (s.writeField r v).faulted = s.faulted := rfl
@[simp] theorem withLm_faulted (s : State) (m : List Cell) : (s.withLm m).faulted = s.faulted := rfl
@[simp] theorem storeVfe_faulted (s : State) (a : BitVec 16) (v : Vfe) : (s.storeVfe a v).faulted = s.faulted :=
  withLm_faulted _ _
@[simp] theorem hostStore_faulted (s : State) (a : Nat) (v : Word) : (s.hostStore a v).faulted = s.faulted :=
  withLm_faulted _ _
@[simp] theorem applyReset_faulted (s : State) : s.applyReset.faulted = false := by
  simp [State.faulted]

/-- The word a register's store leaves at each address: the limb stored there, or what was there before. -/
theorem storeVfe_lookup_inside (s : State) (addr : BitVec 16) (v : Vfe) (sl : Slot) (i : Fin 10) :
    Memory.lookup (s.storeVfe addr v).lm (addr.toNat + (10 * sl.code + i.val)) = some (v.limb sl i) := by
  have hc := sl.code_lt
  have h : addr.toNat ≤ addr.toNat + (10 * sl.code + i.val) ∧
      addr.toNat + (10 * sl.code + i.val) - addr.toNat < (imageOf v).length := by
    rw [imageOf_length]
    omega
  rw [storeVfe_lm, Memory.lookup_storeWords, dif_pos h]
  have e : addr.toNat + (10 * sl.code + i.val) - addr.toNat = 10 * sl.code + i.val := by omega
  simp only [e]
  exact congrArg some (imageOf_getElem v sl i (by rw [imageOf_length]; omega))

theorem storeVfe_lookup_outside (s : State) (addr : BitVec 16) (v : Vfe) {a : Nat}
    (h : a < addr.toNat ∨ addr.toNat + 40 ≤ a) :
    Memory.lookup (s.storeVfe addr v).lm a = Memory.lookup s.lm a := by
  rw [storeVfe_lm, Memory.lookup_storeWords, dif_neg]
  rw [imageOf_length]
  omega

/-- ROM[e] exists exactly for the populated indices (20_memory.md R56, 43_rom_contents.md R189). -/
theorem rom_isSome (e : BitVec 5) : (rom e).isSome = romPopulated e := by
  revert e
  decide

/-- Everything a command can do, told from its form: it writes one register and completes, or stores 40 words and
completes, or raises AddressRange, or is the illegal word of a reserved ROM index. -/
theorem exec_cases {i : Instr} {s t : State} (h : exec i s = .next t) :
    (∃ fd v, t = (s.writeField fd v).complete) ∨
    (∃ fr addr, i = .vst fr addr ∧ s.inRange addr = true ∧ t = (s.storeVfe addr (s.field fr)).complete) ∨
    (∃ fr addr, (i = .vld fr addr ∨ i = .vst fr addr) ∧ s.inRange addr = false ∧
      t = s.takeFault causeAddressRange (encode i)) ∨
    (i.wellFormed = false ∧ t = s.takeFault causeIllegalCommand (encode i)) := by
  cases i with
  | vld fr addr =>
    simp only [exec, execVld] at h
    split at h
    · exact .inl ⟨_, _, retire_eq_next.1 h⟩
    · rename_i hr
      exact .inr (.inr (.inl ⟨fr, addr, .inl rfl, by simpa using hr, raiseAddressRange_eq_next.1 h⟩))
  | vst fr addr =>
    simp only [exec, execVst] at h
    split at h
    · exact .inr (.inl ⟨fr, addr, rfl, ‹_›, by simpa [eq_comm] using h⟩)
    · rename_i hr
      exact .inr (.inr (.inl ⟨fr, addr, .inr rfl, by simpa using hr, raiseAddressRange_eq_next.1 h⟩))
  | vldc fd e =>
    simp only [exec, execVldc] at h
    split at h
    · exact .inl ⟨_, _, retire_eq_next.1 h⟩
    · rename_i hr
      have hw : romPopulated e = false := by rw [← rom_isSome, hr]; rfl
      exact .inr (.inr (.inr ⟨hw, raiseIllegalCommand_eq_next.1 h⟩))
  | _ => exact .inl ⟨_, _, retire_eq_next.1 h⟩

/-- Every command answers a next state, whatever the data (60_exceptions.md R200: no data value stops it). -/
theorem exec_answers_next (i : Instr) (s : State) : ∃ t, exec i s = .next t := by
  cases i with
  | vld fr addr =>
    simp only [exec, execVld]
    split
    · exact ⟨_, rfl⟩
    · exact ⟨_, rfl⟩
  | vst fr addr =>
    simp only [exec, execVst]
    split
    · exact ⟨_, rfl⟩
    · exact ⟨_, rfl⟩
  | vldc fd e =>
    simp only [exec, execVldc]
    split
    · exact ⟨_, rfl⟩
    · exact ⟨_, rfl⟩
  | _ => exact ⟨_, rfl⟩

/-- Everything one command word on the port can do. -/
theorem runCommand_cases {s t : State} {cw : Word} (h : s.runCommand cw = .next t) :
    (s.faulted = true ∧ t = s) ∨
    (s.faulted = false ∧ (∃ e, decode cw = .error e) ∧ t = s.takeFault causeIllegalCommand cw) ∨
    (s.faulted = false ∧ ∃ i, decode cw = .ok i ∧ exec i s = .next t) := by
  simp only [State.runCommand] at h
  split at h
  · exact .inl ⟨‹_›, by simpa [eq_comm] using h⟩
  · have hf : s.faulted = false := by simpa using ‹¬ s.faulted = true›
    split at h
    · exact .inr (.inr ⟨hf, _, ‹_›, h⟩)
    · exact .inr (.inl ⟨hf, ⟨_, ‹_›⟩, raiseIllegalCommand_eq_next.1 h⟩)

end Sys2Proof.Machine
end

