-- ==== Sys2Proof/Laws/PerInstr.lean ====
section
/-! SUPPORT. The law family RowBits, one lemma per constructor of Instr: the word that spells a command matches the
command's own row of the opcode table, whatever its operands (30_encoding.md R71, R72, R75). -/

namespace Sys2Proof.Laws

theorem wordR_and (op op' : BitVec 6) (fd fd' fa fa' fb fb' : BitVec 4) (imm imm' : BitVec 14) :
    wordR op fd fa fb imm &&& wordR op' fd' fa' fb' imm' =
      wordR (op &&& op') (fd &&& fd') (fa &&& fa') (fb &&& fb') (imm &&& imm') := by
  unfold wordR
  ext i hi
  simp
  grind

theorem wordM_and (op op' : BitVec 6) (fr fr' : BitVec 4) (zero : BitVec 6) (addr addr' : BitVec 16) :
    wordM op fr addr &&& (op' ++ fr' ++ zero ++ addr') = wordM (op &&& op') (fr &&& fr') (addr &&& addr') := by
  unfold wordM
  ext i hi
  simp
  grind

/-- The mask of a format R row, cut into fields: op is always compared, fd never. -/
def maskR (fa fb : BitVec 4) (imm : BitVec 14) : Word := wordR 0x3F#6 0#4 fa fb imm

/-- A format R word matches a row when its compared fields are the row's. -/
theorem matches_wordR {name : String} {pat mask : Word} {op : BitVec 6} {fd fa fb maskA maskB : BitVec 4}
    {imm maskI : BitVec 14} (hm : mask = maskR maskA maskB maskI)
    (hp : pat = wordR op 0#4 (fa &&& maskA) (fb &&& maskB) (imm &&& maskI)) :
    Row.matches ⟨name, pat, mask⟩ (wordR op fd fa fb imm) = true := by
  subst hm hp
  have h6 : op &&& 0x3F#6 = op := BitVec.and_allOnes (x := op)
  simp [Row.matches, maskR, wordR_and, h6]

/-- A format M word matches a row when its op is the row's. -/
theorem matches_wordM {name : String} {pat mask : Word} {op : BitVec 6} {fr : BitVec 4} {addr : BitVec 16}
    (hm : mask = 0x3F#6 ++ 0#4 ++ 0x3F#6 ++ 0#16) (hp : pat = wordM op 0#4 0#16) :
    Row.matches ⟨name, pat, mask⟩ (wordM op fr addr) = true := by
  subst hm hp
  simp only [Row.matches, decide_eq_true_eq]
  have h6 : op &&& 0x3F#6 = op := BitVec.and_allOnes (x := op)
  rw [wordM_and, h6]
  simp

namespace RowBits

/-- Some row of the opcode table has the command's mnemonic and matches the command's word. -/
def Statement (i : Instr) : Prop := ∃ r ∈ opcodeRows, r.name = i.name ∧ r.matches (encode i) = true

theorem vadd (fd fa fb : FReg) : Statement (.vadd fd fa fb) :=
  ⟨⟨"VADD", 0x04000000, 0xFC003FFF⟩, by decide, rfl,
    matches_wordR (maskA := 0) (maskB := 0) (maskI := 0x3FFF) (by decide) (by simp; decide)⟩

theorem vsubP2 (fd fa fb : FReg) : Statement (.vsubP2 fd fa fb) :=
  ⟨⟨"VSUB.P2", 0x08000000, 0xFC003FFF⟩, by decide, rfl,
    matches_wordR (maskA := 0) (maskB := 0) (maskI := 0x3FFF) (by decide) (by simp; decide)⟩

theorem vsubP16 (fd fa fb : FReg) : Statement (.vsubP16 fd fa fb) :=
  ⟨⟨"VSUB.P16", 0x08000001, 0xFC003FFF⟩, by decide, rfl,
    matches_wordR (maskA := 0) (maskB := 0) (maskI := 0x3FFF) (by decide) (by simp; decide)⟩

theorem vnegP2 (fd fa : FReg) (m : BitVec 4) : Statement (.vnegP2 fd fa m) :=
  ⟨⟨"VNEG.P2", 0x0C000000, 0xFC03FFF0⟩, by decide, rfl,
    matches_wordR (maskA := 0) (maskB := 0xF) (maskI := 0x3FF0#14) (by decide)
      (by
        have h : ∀ m : BitVec 4, (0#10 ++ m) &&& 0x3FF0#14 = 0#14 := by decide
        rw [h]
        simp
        decide)⟩

theorem vnegP16 (fd fa : FReg) (m : BitVec 4) : Statement (.vnegP16 fd fa m) :=
  ⟨⟨"VNEG.P16", 0x0C000010, 0xFC03FFF0⟩, by decide, rfl,
    matches_wordR (maskA := 0) (maskB := 0xF) (maskI := 0x3FF0#14) (by decide)
      (by
        have h : ∀ m : BitVec 4, (1#10 ++ m) &&& 0x3FF0#14 = 16#14 := by decide
        rw [h]
        simp
        decide)⟩

theorem vmul (fd fa fb : FReg) : Statement (.vmul fd fa fb) :=
  ⟨⟨"VMUL", 0x10000000, 0xFC003FFF⟩, by decide, rfl,
    matches_wordR (maskA := 0) (maskB := 0) (maskI := 0x3FFF) (by decide) (by simp; decide)⟩

theorem vsq (fd fa : FReg) : Statement (.vsq fd fa) :=
  ⟨⟨"VSQ", 0x14000000, 0xFC03FFFF⟩, by decide, rfl,
    matches_wordR (maskA := 0) (maskB := 0xF) (maskI := 0x3FFF) (by decide) (by simp; decide)⟩

theorem vredL (fd fa : FReg) : Statement (.vredL fd fa) :=
  ⟨⟨"VRED.L", 0x18000000, 0xFC03FFFF⟩, by decide, rfl,
    matches_wordR (maskA := 0) (maskB := 0xF) (maskI := 0x3FFF) (by decide) (by simp; decide)⟩

theorem vredF (fd fa : FReg) : Statement (.vredF fd fa) :=
  ⟨⟨"VRED.F", 0x18000001, 0xFC03FFFF⟩, by decide, rfl,
    matches_wordR (maskA := 0) (maskB := 0xF) (maskI := 0x3FFF) (by decide) (by simp; decide)⟩

theorem vshuf (fd fa : FReg) (sel : BitVec 8) : Statement (.vshuf fd fa sel) :=
  ⟨⟨"VSHUF", 0x20000000, 0xFC03FF00⟩, by decide, rfl,
    matches_wordR (maskA := 0) (maskB := 0xF) (maskI := 0x3F00#14) (by decide)
      (by
        have h : ∀ sel : BitVec 8, (0#6 ++ sel) &&& 0x3F00#14 = 0#14 := by decide
        rw [h]
        simp
        decide)⟩

theorem vblend (fd fa fb : FReg) (m : BitVec 4) : Statement (.vblend fd fa fb m) :=
  ⟨⟨"VBLEND", 0x24000000, 0xFC003FF0⟩, by decide, rfl,
    matches_wordR (maskA := 0) (maskB := 0) (maskI := 0x3FF0#14) (by decide)
      (by
        have h : ∀ m : BitVec 4, (0#10 ++ m) &&& 0x3FF0#14 = 0#14 := by decide
        rw [h]
        simp
        decide)⟩

theorem vld (fr : FReg) (addr : BitVec 16) : Statement (.vld fr addr) :=
  ⟨⟨"VLD", 0x40000000, 0xFC3F0000⟩, by decide, rfl, matches_wordM (by decide) (by decide)⟩

theorem vst (fr : FReg) (addr : BitVec 16) : Statement (.vst fr addr) :=
  ⟨⟨"VST", 0x44000000, 0xFC3F0000⟩, by decide, rfl, matches_wordM (by decide) (by decide)⟩

theorem vldc (fd : FReg) (e : BitVec 5) : Statement (.vldc fd e) :=
  ⟨⟨"VLDC", 0x48000000, 0xFC3FFFE0⟩, by decide, rfl,
    matches_wordR (maskA := 0xF) (maskB := 0xF) (maskI := 0x3FE0#14) (by decide)
      (by
        have h : ∀ e : BitVec 5, (0#9 ++ e) &&& 0x3FE0#14 = 0#14 := by decide
        rw [h]
        decide)⟩

theorem pdbl (fd fa : FReg) : Statement (.pdbl fd fa) :=
  ⟨⟨"PDBL", 0x80000000, 0xFC03FFFF⟩, by decide, rfl,
    matches_wordR (maskA := 0) (maskB := 0xF) (maskI := 0x3FFF) (by decide) (by simp; decide)⟩

theorem padd (fd fa fb : FReg) : Statement (.padd fd fa fb) :=
  ⟨⟨"PADD", 0x84000000, 0xFC003FFF⟩, by decide, rfl,
    matches_wordR (maskA := 0) (maskB := 0) (maskI := 0x3FFF) (by decide) (by simp; decide)⟩

theorem paddc (fd fa fc : FReg) : Statement (.paddc fd fa fc) :=
  ⟨⟨"PADDC", 0x88000000, 0xFC003FFF⟩, by decide, rfl,
    matches_wordR (maskA := 0) (maskB := 0) (maskI := 0x3FFF) (by decide) (by simp; decide)⟩

theorem pcache (fd fa : FReg) : Statement (.pcache fd fa) :=
  ⟨⟨"PCACHE", 0x8C000000, 0xFC03FFFF⟩, by decide, rfl,
    matches_wordR (maskA := 0) (maskB := 0xF) (maskI := 0x3FFF) (by decide) (by simp; decide)⟩

theorem pneg (fd fa : FReg) : Statement (.pneg fd fa) :=
  ⟨⟨"PNEG", 0x90000000, 0xFC03FFFF⟩, by decide, rfl,
    matches_wordR (maskA := 0) (maskB := 0xF) (maskI := 0x3FFF) (by decide) (by simp; decide)⟩

end RowBits
end Sys2Proof.Laws
end

