-- ==== Sys2Proof/Laws/Prime.lean ====
section
/-! SUPPORT. p = 2^255 - 19 is prime and d is not a square mod p, by kernel evaluation of certificates: the facts behind
"the denominators are never 0 for points of the curve" (42_point_ops.md R160). -/

namespace Sys2Proof.Machine

set_option Elab.async false

/-- a^e mod m by repeated squaring, for e below 2^fuel. -/
def powMod : Nat → Nat → Nat → Nat → Nat
  | 0, _, _, m => 1 % m
  | fuel + 1, a, e, m =>
    let h := powMod fuel a (e / 2) m
    if e % 2 = 0 then h * h % m else a * (h * h % m) % m

theorem powMod_eq (fuel a e m : Nat) (h : e < 2 ^ fuel) : powMod fuel a e m = a ^ e % m := by
  induction fuel generalizing e with
  | zero =>
    have : e = 0 := by simpa using h
    simp [powMod, this]
  | succ fuel ih =>
    have hlt : e / 2 < 2 ^ fuel := by rw [pow_succ] at h; omega
    have hmul : a ^ (e / 2) % m * (a ^ (e / 2) % m) % m = a ^ (e / 2 + e / 2) % m := by
      rw [pow_add, Nat.mul_mod (a ^ (e / 2)) (a ^ (e / 2))]
    simp only [powMod, ih _ hlt]
    split
    · rw [hmul]
      congr 2
      omega
    · rw [hmul, Nat.mul_mod a (_ % m), Nat.mod_mod, ← Nat.mul_mod, ← pow_succ']
      congr 2
      omega

/-- The power of a cast in ZMod, from its computed residue. -/
theorem cast_pow_of_powMod {fuel a e m r : Nat} (h : e < 2 ^ fuel) (hp : powMod fuel a e m = r) :
    (a : ZMod m) ^ e = (r : ZMod m) := by
  rw [powMod_eq fuel a e m h] at hp
  rw [← hp]
  simp

/-- Lucas's test on a full factorisation of p - 1. -/
theorem prime_of_certificate {p : Nat} (a : Nat) (factors : List Nat) (h1 : 1 < p) (hb : p < 2 ^ 256)
    (hprime : ∀ f ∈ factors, f.Prime) (hprod : factors.prod = p - 1) (hone : powMod 256 a (p - 1) p = 1)
    (hne : ∀ f ∈ factors, powMod 256 a ((p - 1) / f) p ≠ 1) : p.Prime := by
  refine lucas_primality p (a : ZMod p) ?_ ?_
  · simpa using cast_pow_of_powMod (by omega) hone
  · intro q hq hdvd
    rw [← hprod] at hdvd
    obtain ⟨f, hf, hqf⟩ := (Prime.dvd_prod_iff hq.prime).1 hdvd
    obtain rfl := (Nat.prime_dvd_prime_iff_eq hq (hprime f hf)).1 hqf
    intro hpow
    have hlt : (p - 1) / q < 2 ^ 256 := lt_of_le_of_lt (Nat.div_le_self _ _) (by omega)
    have hcast : ((powMod 256 a ((p - 1) / q) p : Nat) : ZMod p) = ((1 : Nat) : ZMod p) := by
      rw [← cast_pow_of_powMod hlt rfl, hpow]
      simp
    rw [ZMod.natCast_eq_natCast_iff'] at hcast
    refine hne q hf ?_
    have hr : powMod 256 a ((p - 1) / q) p < p := by
      rw [powMod_eq _ _ _ _ hlt]
      exact Nat.mod_lt _ (by omega)
    rwa [Nat.mod_eq_of_lt hr, Nat.mod_eq_of_lt h1] at hcast

theorem prime_65147 : Nat.Prime 65147 := by norm_num
theorem prime_57467 : Nat.Prime 57467 := by norm_num
theorem prime_132049 : Nat.Prime 132049 := by norm_num
theorem prime_1923133 : Nat.Prime 1923133 := by norm_num
theorem prime_430751 : Nat.Prime 430751 := by norm_num
theorem prime_75707 : Nat.Prime 75707 := by norm_num
theorem prime_8574133 : Nat.Prime 8574133 := by norm_num
theorem prime_569003 : Nat.Prime 569003 := by norm_num

theorem prime_2773320623 : Nat.Prime 2773320623 :=
  prime_of_certificate 5 [2, 2437, 569003] (by decide) (by decide)
    (by simp [prime_569003, Nat.prime_two]; norm_num) (by decide) (by decide +kernel) (by decide +kernel)

theorem prime_72106336199 : Nat.Prime 72106336199 :=
  prime_of_certificate 7 [2, 13, 2773320623] (by decide) (by decide)
    (by simp [prime_2773320623, Nat.prime_two]; norm_num) (by decide) (by decide +kernel) (by decide +kernel)

theorem prime_1919519569386763 : Nat.Prime 1919519569386763 :=
  prime_of_certificate 2 [2, 3, 7, 19, 47, 47, 127, 8574133] (by decide) (by decide)
    (by simp [prime_8574133, Nat.prime_two]; norm_num) (by decide) (by decide +kernel) (by decide +kernel)

theorem prime_31757755568855353 : Nat.Prime 31757755568855353 :=
  prime_of_certificate 10 [2, 2, 2, 3, 31, 107, 223, 4153, 430751] (by decide) (by decide)
    (by simp [prime_430751, Nat.prime_two]; norm_num) (by decide) (by decide +kernel) (by decide +kernel)

theorem prime_factor35 : Nat.Prime 75445702479781427272750846543864801 :=
  prime_of_certificate 7 [2, 2, 2, 2, 2, 3, 3, 5, 5, 75707, 72106336199, 1919519569386763] (by decide) (by decide)
    (by simp [prime_75707, prime_72106336199, prime_1919519569386763, Nat.prime_two]; norm_num) (by decide)
    (by decide +kernel) (by decide +kernel)

theorem prime_factor71 : Nat.Prime 74058212732561358302231226437062788676166966415465897661863160754340907 :=
  prime_of_certificate 2 [2, 3, 353, 57467, 132049, 1923133, 31757755568855353, 75445702479781427272750846543864801]
    (by decide) (by decide)
    (by simp [prime_57467, prime_132049, prime_1923133, prime_31757755568855353, prime_factor35, Nat.prime_two]; norm_num)
    (by decide) (by decide +kernel) (by decide +kernel)

/-- p = 2^255 - 19 is prime. -/
theorem prime_is_prime : Nat.Prime prime :=
  prime_of_certificate 2 [2, 2, 3, 65147, 74058212732561358302231226437062788676166966415465897661863160754340907]
    (by decide) (by decide) (by simp [prime_65147, prime_factor71, Nat.prime_two]; norm_num) (by decide)
    (by decide +kernel) (by decide +kernel)

theorem cast_prime_pred : ((prime - 1 : Nat) : ZMod prime) = -1 := by
  have h1 : ((prime - 1 : Nat) : ZMod prime) + 1 = ((prime : Nat) : ZMod prime) := by
    rw [← Nat.cast_succ]
    exact congrArg _ (by decide)
  rw [ZMod.natCast_self] at h1
  exact eq_neg_of_add_eq_zero_left h1

/-- d is not a square mod p: d^((p-1)/2) = -1. -/
theorem dField_not_square : ¬ IsSquare dField := by
  have : Fact (Nat.Prime prime) := ⟨prime_is_prime⟩
  have hpow : dField ^ (prime / 2) = ((prime - 1 : Nat) : ZMod prime) :=
    cast_pow_of_powMod (fuel := 256) (by decide) (by decide +kernel)
  have hd0 : dField ≠ 0 := by
    intro h
    rw [h, cast_prime_pred, zero_pow (by decide)] at hpow
    exact neg_ne_zero.2 one_ne_zero hpow.symm
  rw [ZMod.euler_criterion prime hd0, hpow, cast_prime_pred]
  intro h
  have h2 : ((2 : Nat) : ZMod prime) = 0 := by
    push_cast
    linear_combination -h
  rw [ZMod.natCast_eq_zero_iff] at h2
  exact absurd (Nat.le_of_dvd (by decide) h2) (by decide)

/-- -1 is a square mod p. -/
theorem minus_one_is_square : ∃ i : ZMod prime, i ^ 2 = -1 := by
  have hpow : ((2 : Nat) : ZMod prime) ^ ((prime - 1) / 4 * 2) = ((prime - 1 : Nat) : ZMod prime) :=
    cast_pow_of_powMod (fuel := 256) (by decide) (by decide +kernel)
  exact ⟨((2 : Nat) : ZMod prime) ^ ((prime - 1) / 4), by rw [← pow_mul, hpow, cast_prime_pred]⟩

end Sys2Proof.Machine
end

