-- ==== Sys2Proof/Laws/Step.lean ====
section
/-! SUPPORT. Everything one step can do, by the host's next move; the state the unit works on is the one with that move
taken from the port. -/

namespace Sys2Proof.Machine

@[simp] theorem step_idle {s : State} (h : s.port = []) : step s = .next s := by
  simp [step, h]

theorem step_of_port {s : State} {m : HostMove} {rest : List HostMove} (h : s.port = m :: rest) :
    step s = State.perform { s with port := rest } m := by
  simp [step, h]

/-- The inversion lemma of step: one disjunct per host move. -/
theorem step_cases {s t : State} (h : step s = .next t) :
    (s.port = [] ∧ t = s) ∨
    (∃ cw rest, s.port = .issue cw :: rest ∧ State.runCommand { s with port := rest } cw = .next t) ∨
    (∃ a v rest, s.port = .writeLm a v :: rest ∧ a < s.cfg.lmWords ∧
      t = State.hostStore { s with port := rest } a v) ∨
    (∃ n v rest, s.port = .writeStatus n v :: rest ∧ t = { s with port := rest }) ∨
    (∃ rest, s.port = .reset :: rest ∧ t = State.applyReset { s with port := rest }) := by
  cases hp : s.port with
  | nil =>
    rw [step_idle hp] at h
    exact .inl ⟨rfl, by simpa [eq_comm] using h⟩
  | cons m rest =>
    rw [step_of_port hp] at h
    cases m with
    | issue cw => exact .inr (.inl ⟨cw, rest, rfl, h⟩)
    | writeLm a v =>
      simp only [State.perform] at h
      split at h
      · exact .inr (.inr (.inl ⟨a, v, rest, rfl, ‹_›, by simpa [eq_comm] using h⟩))
      · cases h
    | writeStatus n v => exact .inr (.inr (.inr (.inl ⟨n, v, rest, rfl, by simpa [State.perform, eq_comm] using h⟩)))
    | reset => exact .inr (.inr (.inr (.inr ⟨rest, rfl, by simpa [State.perform, eq_comm] using h⟩)))

/-- The host's table word is the very next thing the unit is given. -/
theorem step_withFetchWord (s : State) (nbits w : Nat) :
    step (s.withFetchWord nbits w) = s.runCommand (tableWord nbits w) := rfl

end Sys2Proof.Machine
end

