-- ==== Sys2Proof/Tests/Slice0.lean ====
section
/-! SUPPORT. The model's own tests: the well-formedness smoke, decoding of words written out from the encoding tables,
one step of each command on the spec's own vectors (each test names its source), and for each statement with hypotheses
a state and operands that meet them. -/

namespace Sys2Proof.Tests

set_option Elab.async false

open Sys2Proof.Machine

/-! ### Well-formedness: the one check refuses the reserved ROM indices -/

theorem test_wellFormed_refuses_reserved_index_6 : (Instr.vldc 0 6#5).wellFormed = false := by decide
theorem test_wellFormed_refuses_reserved_index_7 : (Instr.vldc 0 7#5).wellFormed = false := by decide
theorem test_wellFormed_refuses_reserved_index_24 : (Instr.vldc 0 24#5).wellFormed = false := by decide
theorem test_wellFormed_refuses_reserved_index_31 : (Instr.vldc 15 31#5).wellFormed = false := by decide
theorem test_wellFormed_accepts_last_index : (Instr.vldc 15 23#5).wellFormed = true := by decide

/-! ### Decoding of words written out bit by bit: op, fd, fa, fb, imm of 30_encoding.md R71, R72, R74 -/

theorem test_decode_vadd : decode 0b000001_0010_0000_0001_00000000000000#32 = .ok (.vadd 2 0 1) := by decide
theorem test_decode_vsub_p2 : decode 0b000010_0011_0001_0010_00000000000000#32 = .ok (.vsubP2 3 1 2) := by decide
theorem test_decode_vsub_p16 : decode 0b000010_0011_0001_0010_00000000000001#32 = .ok (.vsubP16 3 1 2) := by decide
theorem test_decode_vneg_p2 : decode 0b000011_0001_1110_0000_00000000001000#32 = .ok (.vnegP2 1 14 0b1000#4) := by decide
theorem test_decode_vneg_p16 : decode 0b000011_0100_0000_0000_00000000011111#32 = .ok (.vnegP16 4 0 0b1111#4) := by decide
theorem test_decode_vmul : decode 0b000100_0010_0101_0001_00000000000000#32 = .ok (.vmul 2 5 1) := by decide
theorem test_decode_vsq : decode 0b000101_0001_1000_0000_00000000000000#32 = .ok (.vsq 1 8) := by decide
theorem test_decode_vred_l : decode 0b000110_1001_1010_0000_00000000000000#32 = .ok (.vredL 9 10) := by decide
theorem test_decode_vred_f : decode 0b000110_0010_0001_0000_00000000000001#32 = .ok (.vredF 2 1) := by decide
theorem test_decode_vshuf : decode 0b001000_0001_0010_0000_00000010110001#32 = .ok (.vshuf 1 2 0b10110001#8) := by decide
theorem test_decode_vblend : decode 0b001001_0010_0000_0001_00000000000011#32 = .ok (.vblend 2 0 1 0b0011#4) := by decide
theorem test_decode_vld : decode 0b010000_1111_000000_1111111111011000#32 = .ok (.vld 15 0xFFD8#16) := by decide
theorem test_decode_vst : decode 0b010001_0010_000000_0000000100000000#32 = .ok (.vst 2 0x0100#16) := by decide
theorem test_decode_vldc : decode 0b010010_0111_0000_0000_00000000010111#32 = .ok (.vldc 7 23#5) := by decide
theorem test_decode_pdbl : decode 0b100000_0001_0100_0000_00000000000000#32 = .ok (.pdbl 1 4) := by decide
theorem test_decode_padd : decode 0b100001_0100_0101_0110_00000000000000#32 = .ok (.padd 4 5 6) := by decide
theorem test_decode_paddc : decode 0b100010_0011_0001_0010_00000000000000#32 = .ok (.paddc 3 1 2) := by decide
theorem test_decode_pcache : decode 0b100011_0010_0001_0000_00000000000000#32 = .ok (.pcache 2 1) := by decide
theorem test_decode_pneg : decode 0b100100_0010_0001_0000_00000000000000#32 = .ok (.pneg 2 1) := by decide

/-- 96_test_vectors_derived.md section 2.1, legal words at the ends of their fields. -/
theorem test_decode_legal_words :
    decode 0x07FFC000#32 = .ok (.vadd 15 15 15) ∧ decode 0x0C000000#32 = .ok (.vnegP2 0 0 0#4) ∧
    decode 0x0FFC001F#32 = .ok (.vnegP16 15 15 0b1111#4) ∧ decode 0x204800FF#32 = .ok (.vshuf 1 2 0xFF#8) ∧
    decode 0x2448C00F#32 = .ok (.vblend 1 2 3 0b1111#4) ∧ decode 0x44000000#32 = .ok (.vst 0 0#16) := by decide

/-- The same section, the illegal words and why. -/
theorem test_decode_reserved_op :
    [0x00000000#32, 0xFFFFFFFF#32, 0x1C000000#32, 0x28000000#32, 0x4C000000#32, 0x94000000#32].map decode =
      List.replicate 6 (.error .reservedOp) := by decide
theorem test_decode_nonzero_field :
    [0x04804001#32, 0x08C48002#32, 0x14404000#32, 0x18840002#32, 0x0C440020#32, 0x20400100#32, 0x24804010#32,
      0x40010100#32, 0x48040000#32, 0x80404000#32].map decode = List.replicate 10 (.error .nonzeroField) := by decide
theorem test_decode_reserved_rom_index :
    [0x48000006#32, 0x48000018#32].map decode = List.replicate 2 (.error .reservedRomIndex) := by decide

/-- 30_encoding.md R81, the spelling column; R79's mask, selector and immediate forms. -/
theorem test_asm_spelling :
    asm (.vadd 2 0 1) = "VADD F2, F0, F1" ∧ asm (.vnegP2 1 1 0b1000#4) = "VNEG.P2 F1, F1, D" ∧
    asm (.vshuf 1 0 0xB1#8) = "VSHUF F1, F0, BADC" ∧ asm (.vblend 2 0 1 0b0011#4) = "VBLEND F2, F0, F1, AB" ∧
    asmPseudo (.plut 0 0) = "PLUT F0, #0" := by decide

/-- 30_encoding.md R79, R80: a comment, a hexadecimal immediate, PLUT beyond 7 and a register beyond F15. -/
theorem test_assemble :
    [assemble "VSHUF F1, F0, BADC ; swap", assemble "VST F2, #0x0100", assemble "PLUTC F7, #7", assemble "PLUT F0, #8",
      assemble "VADD F16, F0, F1", assemble "VNEG.P2 F0, F0, 0"] =
    [some 0x204000B1#32, some 0x44800100#32, some 0x49C00017#32, none, none, some 0x0C000000#32] := by decide +kernel

/-! ### One step of each command, from reset with F0 and F1 written

A host issues the word and the step is taken; the result is the register the command names, none if the machine stops. -/

def zeroLimbs : LimbVec := small 0#32

/-- (canon(1), canon(2), canon(3), canon(4)) and (canon(5), ...), the registers of section 2.5's vectors. -/
def one234 : Vfe := ⟨small 1#32, small 2#32, small 3#32, small 4#32⟩
def five678 : Vfe := ⟨small 5#32, small 6#32, small 7#32, small 8#32⟩

def withRegs (x y : Vfe) : State := (State.reset.writeField 0 x).writeField 1 y

/-- Register r after the word was issued and one step taken. -/
def resultAfter (w : Nat) (r : FReg) (x y : Vfe) : Option Vfe :=
  match step ((withRegs x y).withFetchWord 32 w) with
  | .next t => if t.written.get r && decide (t.pc = 1#32) then some (t.f.get r) else none
  | .fault _ => none
  | .refused _ => none

/-- Slot A of it, slots B, C, D of the sources being zero. -/
def slotAfter (w : Nat) (r : FReg) (x y : LimbVec) : Option LimbVec :=
  (resultAfter w r ⟨x, zeroLimbs, zeroLimbs, zeroLimbs⟩ ⟨y, zeroLimbs, zeroLimbs, zeroLimbs⟩).map Vfe.a

/-- 96_test_vectors_derived.md V-A1. -/
theorem test_vadd_sum : slotAfter 0x04804000 2
    ⟨0x00000005, 0x00000000, 0x00000000, 0x00000000, 0x00000000, 0x00000000, 0x00000000, 0x00000000, 0x00000000, 0x00000000⟩
    ⟨0x00000007, 0x00000000, 0x00000000, 0x00000000, 0x00000000, 0x00000000, 0x00000000, 0x00000000, 0x00000000, 0x00000000⟩ = some
    ⟨0x0000000C, 0x00000000, 0x00000000, 0x00000000, 0x00000000, 0x00000000, 0x00000000, 0x00000000, 0x00000000, 0x00000000⟩ := by
  decide +kernel

/-- 96_test_vectors_derived.md V-A2. -/
theorem test_vadd_wraps : slotAfter 0x04804000 2
    ⟨0xFFFFFFFF, 0x00000000, 0x00000000, 0x00000000, 0x00000000, 0x00000000, 0x00000000, 0x00000000, 0x00000000, 0x00000000⟩
    ⟨0x00000001, 0x00000000, 0x00000000, 0x00000000, 0x00000000, 0x00000000, 0x00000000, 0x00000000, 0x00000000, 0x00000000⟩ = some
    ⟨0x00000000, 0x00000000, 0x00000000, 0x00000000, 0x00000000, 0x00000000, 0x00000000, 0x00000000, 0x00000000, 0x00000000⟩ := by
  decide +kernel

/-- 96_test_vectors_derived.md V-S1: 5 - 7. -/
theorem test_vsub_p2_negative : slotAfter 0x08804000 2
    ⟨0x00000005, 0x00000000, 0x00000000, 0x00000000, 0x00000000, 0x00000000, 0x00000000, 0x00000000, 0x00000000, 0x00000000⟩
    ⟨0x00000007, 0x00000000, 0x00000000, 0x00000000, 0x00000000, 0x00000000, 0x00000000, 0x00000000, 0x00000000, 0x00000000⟩ = some
    ⟨0x07FFFFD8, 0x03FFFFFE, 0x07FFFFFE, 0x03FFFFFE, 0x07FFFFFE, 0x03FFFFFE, 0x07FFFFFE, 0x03FFFFFE, 0x07FFFFFE, 0x03FFFFFE⟩ := by
  decide +kernel

/-- 96_test_vectors_derived.md V-S4. -/
theorem test_vsub_p2_wraps : slotAfter 0x08804000 2
    ⟨0x00000000, 0x00000000, 0x00000000, 0x00000000, 0x00000000, 0x00000000, 0x00000000, 0x00000000, 0x00000000, 0x00000000⟩
    ⟨0x08000000, 0x00000000, 0x00000000, 0x00000000, 0x00000000, 0x00000000, 0x00000000, 0x00000000, 0x00000000, 0x00000000⟩ = some
    ⟨0xFFFFFFDA, 0x03FFFFFE, 0x07FFFFFE, 0x03FFFFFE, 0x07FFFFFE, 0x03FFFFFE, 0x07FFFFFE, 0x03FFFFFE, 0x07FFFFFE, 0x03FFFFFE⟩ := by
  decide +kernel

/-- 96_test_vectors_derived.md V-S2: 5 - 7. -/
theorem test_vsub_p16_negative : slotAfter 0x08804001 2
    ⟨0x00000005, 0x00000000, 0x00000000, 0x00000000, 0x00000000, 0x00000000, 0x00000000, 0x00000000, 0x00000000, 0x00000000⟩
    ⟨0x00000007, 0x00000000, 0x00000000, 0x00000000, 0x00000000, 0x00000000, 0x00000000, 0x00000000, 0x00000000, 0x00000000⟩ = some
    ⟨0x3FFFFECE, 0x1FFFFFF0, 0x3FFFFFF0, 0x1FFFFFF0, 0x3FFFFFF0, 0x1FFFFFF0, 0x3FFFFFF0, 0x1FFFFFF0, 0x3FFFFFF0, 0x1FFFFFF0⟩ := by
  decide +kernel

/-- 96_test_vectors_derived.md V-S5: the largest class-W subtrahend. -/
theorem test_vsub_p16_wide : slotAfter 0x08804001 2
    ⟨0x00000000, 0x00000000, 0x00000000, 0x00000000, 0x00000000, 0x00000000, 0x00000000, 0x00000000, 0x00000000, 0x00000000⟩
    ⟨0x15FFFFFF, 0x0AFFFFFF, 0x15FFFFFF, 0x0AFFFFFF, 0x15FFFFFF, 0x0AFFFFFF, 0x15FFFFFF, 0x0AFFFFFF, 0x15FFFFFF, 0x0AFFFFFF⟩ = some
    ⟨0x29FFFED1, 0x14FFFFF1, 0x29FFFFF1, 0x14FFFFF1, 0x29FFFFF1, 0x14FFFFF1, 0x29FFFFF1, 0x14FFFFF1, 0x29FFFFF1, 0x14FFFFF1⟩ := by
  decide +kernel

/-- 96_test_vectors_derived.md V-N5, slot A selected. -/
theorem test_vneg_p2_wraps : slotAfter 0x0C800001 2
    ⟨0xFFFFFFFF, 0xFFFFFFFF, 0xFFFFFFFF, 0xFFFFFFFF, 0xFFFFFFFF, 0xFFFFFFFF, 0xFFFFFFFF, 0xFFFFFFFF, 0xFFFFFFFF, 0xFFFFFFFF⟩
    zeroLimbs = some
    ⟨0x07FFFFDB, 0x03FFFFFF, 0x07FFFFFF, 0x03FFFFFF, 0x07FFFFFF, 0x03FFFFFF, 0x07FFFFFF, 0x03FFFFFF, 0x07FFFFFF, 0x03FFFFFF⟩ := by
  decide +kernel

/-- 96_test_vectors_derived.md V-N4, slot A not selected. -/
theorem test_vneg_p2_unselected : slotAfter 0x0C80000E 2
    ⟨0x00000001, 0x00000000, 0x00000000, 0x00000000, 0x00000000, 0x00000000, 0x00000000, 0x00000000, 0x00000000, 0x00000000⟩
    zeroLimbs = some
    ⟨0x00000001, 0x00000000, 0x00000000, 0x00000000, 0x00000000, 0x00000000, 0x00000000, 0x00000000, 0x00000000, 0x00000000⟩ := by
  decide +kernel

/-- 96_test_vectors_derived.md V-N2, slot A selected. -/
theorem test_vneg_p16 : slotAfter 0x0C800011 2
    ⟨0x00000001, 0x00000000, 0x00000000, 0x00000000, 0x00000000, 0x00000000, 0x00000000, 0x00000000, 0x00000000, 0x00000000⟩
    zeroLimbs = some
    ⟨0x3FFFFECF, 0x1FFFFFF0, 0x3FFFFFF0, 0x1FFFFFF0, 0x3FFFFFF0, 0x1FFFFFF0, 0x3FFFFFF0, 0x1FFFFFF0, 0x3FFFFFF0, 0x1FFFFFF0⟩ := by
  decide +kernel

/-- 96_test_vectors_derived.md V-M7: an accumulator wraps. -/
theorem test_vmul_wraps : slotAfter 0x10804000 2
    ⟨0xFFFFFFFF, 0xFFFFFFFF, 0xFFFFFFFF, 0xFFFFFFFF, 0xFFFFFFFF, 0xFFFFFFFF, 0xFFFFFFFF, 0xFFFFFFFF, 0xFFFFFFFF, 0xFFFFFFFF⟩
    ⟨0xFFFFFFFF, 0xFFFFFFFF, 0xFFFFFFFF, 0xFFFFFFFF, 0xFFFFFFFF, 0xFFFFFFFF, 0xFFFFFFFF, 0xFFFFFFFF, 0xFFFFFFFF, 0xFFFFFFFF⟩ = some
    ⟨0x03FF430B, 0x0201DB19, 0x03FF86D4, 0x01FFB5F5, 0x03FFAA9E, 0x01FFD0D1, 0x03FFCE68, 0x01FFEBAD, 0x03FFF232, 0x00000689⟩ := by
  decide +kernel

/-- 96_test_vectors_derived.md V-M8: class-W operands. -/
theorem test_vmul_wide : slotAfter 0x10804000 2
    ⟨0x0A5CD687, 0x0269E0D3, 0x0CA264E1, 0x0A6A3A45, 0x018B8FFA, 0x0128B2F3, 0x1125F205, 0x01818E81, 0x0BB3B93F, 0x09531985⟩
    ⟨0x01DB208E, 0x081E74EF, 0x06DECEB9, 0x0099950D, 0x02C0146B, 0x06F03675, 0x0D61AA93, 0x011E20B8, 0x07B382E4, 0x01738F7D⟩ = some
    ⟨0x034087FE, 0x0027178B, 0x036637FB, 0x0192E3AB, 0x0274A1BC, 0x0039EC72, 0x00F5CCA2, 0x01320A5C, 0x03FA94AE, 0x01E82BE3⟩ := by
  decide +kernel

/-- 96_test_vectors_derived.md V-M3: (p-1)^2, the one in a non-canonical form. -/
theorem test_vsq_of_minus_one : slotAfter 0x14800000 2
    ⟨0x03FFFFEC, 0x01FFFFFF, 0x03FFFFFF, 0x01FFFFFF, 0x03FFFFFF, 0x01FFFFFF, 0x03FFFFFF, 0x01FFFFFF, 0x03FFFFFF, 0x01FFFFFF⟩
    zeroLimbs = some
    ⟨0x03FFFFEE, 0x01FFFFFF, 0x03FFFFFF, 0x01FFFFFF, 0x03FFFFFF, 0x01FFFFFF, 0x03FFFFFF, 0x01FFFFFF, 0x03FFFFFF, 0x01FFFFFF⟩ := by
  decide +kernel

/-- 96_test_vectors_derived.md V-M6: the largest class-W limbs. -/
theorem test_vsq_widest : slotAfter 0x14800000 2
    ⟨0x15FFFFFF, 0x0AFFFFFF, 0x15FFFFFF, 0x0AFFFFFF, 0x15FFFFFF, 0x0AFFFFFF, 0x15FFFFFF, 0x0AFFFFFF, 0x15FFFFFF, 0x0AFFFFFF⟩
    zeroLimbs = some
    ⟨0x02003EDE, 0x00800FA9, 0x02001454, 0x01800CD0, 0x0200100E, 0x008009F7, 0x02000BC9, 0x0180071E, 0x02000783, 0x00800445⟩ := by
  decide +kernel

/-- 96_test_vectors_derived.md V-R8. -/
theorem test_vred_l_all_ones : slotAfter 0x18800000 2
    ⟨0xFFFFFFFF, 0xFFFFFFFF, 0xFFFFFFFF, 0xFFFFFFFF, 0xFFFFFFFF, 0xFFFFFFFF, 0xFFFFFFFF, 0xFFFFFFFF, 0xFFFFFFFF, 0xFFFFFFFF⟩
    zeroLimbs = some
    ⟨0x0400096C, 0x0200003E, 0x0400007E, 0x0200003E, 0x0400007E, 0x0200003E, 0x0400007E, 0x0200003E, 0x0400007E, 0x0200003E⟩ := by
  decide +kernel

/-- 96_test_vectors_derived.md V-R11. -/
theorem test_vred_l_of_minus_two : slotAfter 0x18800000 2
    ⟨0x07FFFFD8, 0x03FFFFFE, 0x07FFFFFE, 0x03FFFFFE, 0x07FFFFFE, 0x03FFFFFE, 0x07FFFFFE, 0x03FFFFFE, 0x07FFFFFE, 0x03FFFFFE⟩
    zeroLimbs = some
    ⟨0x03FFFFEB, 0x01FFFFFF, 0x03FFFFFF, 0x01FFFFFF, 0x03FFFFFF, 0x01FFFFFF, 0x03FFFFFF, 0x01FFFFFF, 0x03FFFFFF, 0x01FFFFFF⟩ := by
  decide +kernel

/-- 96_test_vectors_derived.md V-R5: value 2^255 - 1. -/
theorem test_vred_f_subtracts_p : slotAfter 0x18800001 2
    ⟨0x03FFFFFF, 0x01FFFFFF, 0x03FFFFFF, 0x01FFFFFF, 0x03FFFFFF, 0x01FFFFFF, 0x03FFFFFF, 0x01FFFFFF, 0x03FFFFFF, 0x01FFFFFF⟩
    zeroLimbs = some
    ⟨0x00000012, 0x00000000, 0x00000000, 0x00000000, 0x00000000, 0x00000000, 0x00000000, 0x00000000, 0x00000000, 0x00000000⟩ := by
  decide +kernel

/-- 96_test_vectors_derived.md V-R8. -/
theorem test_vred_f_all_ones : slotAfter 0x18800001 2
    ⟨0xFFFFFFFF, 0xFFFFFFFF, 0xFFFFFFFF, 0xFFFFFFFF, 0xFFFFFFFF, 0xFFFFFFFF, 0xFFFFFFFF, 0xFFFFFFFF, 0xFFFFFFFF, 0xFFFFFFFF⟩
    zeroLimbs = some
    ⟨0x0000097F, 0x0000003F, 0x0000007F, 0x0000003F, 0x0000007F, 0x0000003F, 0x0000007F, 0x0000003F, 0x0000007F, 0x0000003F⟩ := by
  decide +kernel

/-- 96_test_vectors_derived.md V-P2: 2B. -/
theorem test_pdbl_base_point : resultAfter 0x80800000 2 romT0 romT0 = some
    ⟨⟨0x00300A57, 0x00A19306, 0x004B6F57, 0x00EFD38B, 0x0221BB07, 0x01B0F909, 0x0125C3DB, 0x00A95D44, 0x01B9A7C2, 0x00C49077⟩,
      ⟨0x022D7FD7, 0x00CB3657, 0x02439249, 0x01315DF1, 0x00291EA9, 0x00C951F6, 0x03C17E1D, 0x007B6D36, 0x00C6CC93, 0x00CC9261⟩,
      ⟨0x0278DE6B, 0x012A4F40, 0x033A2C6E, 0x00019C94, 0x03AF4D84, 0x01426292, 0x0068FD1D, 0x018AE813, 0x0396B577, 0x01A61B15⟩,
      ⟨0x034D4999, 0x00D381C6, 0x036321D6, 0x01FF6F85, 0x028D8B6A, 0x00A87E0F, 0x022B2024, 0x0192A81C, 0x00974B59, 0x006091F7⟩⟩ := by
  decide +kernel

/-- 96_test_vectors_derived.md V-P10: the words of a register that is no point. -/
theorem test_pdbl_not_a_point : resultAfter 0x80800000 2 one234 romT0 = some
    ⟨⟨0x03FFFFB1, 0x01FFFFFF, 0x03FFFFFF, 0x01FFFFFF, 0x03FFFFFF, 0x01FFFFFF, 0x03FFFFFF, 0x01FFFFFF, 0x03FFFFFF, 0x01FFFFFF⟩,
      ⟨0x03FFFFDE, 0x01FFFFFF, 0x03FFFFFF, 0x01FFFFFF, 0x03FFFFFF, 0x01FFFFFF, 0x03FFFFFF, 0x01FFFFFF, 0x03FFFFFF, 0x01FFFFFF⟩,
      ⟨0x03FFFFC0, 0x01FFFFFF, 0x03FFFFFF, 0x01FFFFFF, 0x03FFFFFF, 0x01FFFFFF, 0x03FFFFFF, 0x01FFFFFF, 0x03FFFFFF, 0x01FFFFFF⟩,
      ⟨0x03FFFFD9, 0x01FFFFFF, 0x03FFFFFF, 0x01FFFFFF, 0x03FFFFFF, 0x01FFFFFF, 0x03FFFFFF, 0x01FFFFFF, 0x03FFFFFF, 0x01FFFFFF⟩⟩ := by
  decide +kernel

/-- 96_test_vectors_derived.md V-P3: B + B. -/
theorem test_padd_same_point : resultAfter 0x84804000 2 romT0 romT0 = some
    ⟨⟨0x033FD67E, 0x0179B3E7, 0x02D242A2, 0x0040B1D3, 0x037913E2, 0x013C1BD9, 0x0368F090, 0x015A8AEE, 0x011960F6, 0x00EDBE22⟩,
      ⟨0x034A007E, 0x00D326A1, 0x02F1B6DA, 0x013A8839, 0x035B8559, 0x00DAB827, 0x00FA078A, 0x00124B24, 0x00E4CDB3, 0x00CDB67B⟩,
      ⟨0x021C8608, 0x0156C2FD, 0x03174E45, 0x01F98DAC, 0x0142C9EF, 0x00F675B4, 0x025C0B89, 0x01D45FB3, 0x01A52A20, 0x016793A8⟩,
      ⟨0x02CAD989, 0x00B1F8E4, 0x027378A6, 0x000241E8, 0x01C9D254, 0x015E07C1, 0x03537F6E, 0x01B55F8D, 0x01A2D298, 0x007DB823⟩⟩ := by
  decide +kernel

/-- 96_test_vectors_derived.md V-P5: B + identity. -/
theorem test_padd_identity : resultAfter 0x84804000 2 romT0 romIdent = some
    ⟨⟨0x0097547B, 0x002D608F, 0x03D964AB, 0x0012A4B4, 0x0292CC76, 0x015B7171, 0x01C463FB, 0x01FF6052, 0x00F35B94, 0x0016936D⟩,
      ⟨0x01999999, 0x00666666, 0x03333333, 0x00CCCCCC, 0x02666666, 0x01999999, 0x00CCCCCC, 0x01333333, 0x01999999, 0x00666666⟩,
      ⟨0x03FFFFF1, 0x01FFFFFF, 0x03FFFFFF, 0x01FFFFFF, 0x03FFFFFF, 0x01FFFFFF, 0x03FFFFFF, 0x01FFFFFF, 0x03FFFFFF, 0x01FFFFFF⟩,
      ⟨0x02DF76C5, 0x008AB3A5, 0x017AB6EF, 0x000EEA2A, 0x020F09F8, 0x00AF8DF4, 0x009D1CC9, 0x0132B375, 0x03F5E2DD, 0x007875F0⟩⟩ := by
  decide +kernel

/-- 96_test_vectors_derived.md V-P6: B + cached 3B. -/
theorem test_paddc_cached_entry : resultAfter 0x88804000 2 romT0 romTC1 = some
    ⟨⟨0x034DDF1B, 0x01A18F98, 0x02337F91, 0x01100323, 0x038B9FB6, 0x0050E626, 0x02C83503, 0x01569EEF, 0x01E59E6A, 0x00E42897⟩,
      ⟨0x03FFBED4, 0x0142D963, 0x01303F80, 0x01FE5C9E, 0x00E5ABF5, 0x0023AED0, 0x02B9A958, 0x00469096, 0x01885C1E, 0x00383399⟩,
      ⟨0x00869A2F, 0x01B7A177, 0x038CD672, 0x00C2B379, 0x03804987, 0x0017E643, 0x01098E44, 0x014F68FA, 0x03E15904, 0x01EA7501⟩,
      ⟨0x0054CFF6, 0x001202AC, 0x01213A44, 0x01E12918, 0x033290A5, 0x00ED7123, 0x01956E28, 0x006364E9, 0x018E4161, 0x01605E78⟩⟩ := by
  decide +kernel

/-- 96_test_vectors_derived.md V-P4. -/
theorem test_pcache_base_point : resultAfter 0x8C800000 2 romT0 romT0 = some
    ⟨⟨0x0340913E, 0x000E4175, 0x03D673A2, 0x002E8A05, 0x03F4E67C, 0x008F8A09, 0x00C21A34, 0x004CF4B8, 0x01298F81, 0x0113F4BE⟩,
      ⟨0x018C3B85, 0x0124F1BD, 0x01C325F7, 0x0037DC60, 0x033E4CB7, 0x003D42C2, 0x01A44C32, 0x014CA4E1, 0x03A33D4B, 0x001F3E74⟩,
      ⟨0x00000002, 0x00000000, 0x00000000, 0x00000000, 0x00000000, 0x00000000, 0x00000000, 0x00000000, 0x00000000, 0x00000000⟩,
      ⟨0x037AAA68, 0x00448161, 0x0093D579, 0x011E6556, 0x009B67A0, 0x0143598C, 0x01BEE5EE, 0x00B50B43, 0x0289F0C6, 0x01BC45ED⟩⟩ := by
  decide +kernel

/-- 96_test_vectors_derived.md V-P7. -/
theorem test_pneg_base_point : resultAfter 0x90800000 2 romT0 romT0 = some
    ⟨⟨0x00DA2AD3, 0x0074A7DC, 0x0309A6D5, 0x00FB56D2, 0x025B4CE2, 0x002923A3, 0x018EE701, 0x018027EB, 0x02C3291A, 0x017A5B24⟩,
      ⟨0x02666658, 0x01999999, 0x00CCCCCC, 0x01333333, 0x01999999, 0x00666666, 0x03333333, 0x00CCCCCC, 0x02666666, 0x01999999⟩,
      ⟨0x00000001, 0x00000000, 0x00000000, 0x00000000, 0x00000000, 0x00000000, 0x00000000, 0x00000000, 0x00000000, 0x00000000⟩,
      ⟨0x0248224A, 0x005D5316, 0x01A15244, 0x01FC4575, 0x037C3D81, 0x01541C82, 0x02D8B8CD, 0x01335322, 0x03028748, 0x0061E283⟩⟩ := by
  decide +kernel

/-- 96_test_vectors_derived.md V-P8. -/
theorem test_pneg_identity : resultAfter 0x90800000 2 romIdent romT0 = some
    ⟨⟨0x03FFFFED, 0x01FFFFFF, 0x03FFFFFF, 0x01FFFFFF, 0x03FFFFFF, 0x01FFFFFF, 0x03FFFFFF, 0x01FFFFFF, 0x03FFFFFF, 0x01FFFFFF⟩,
      ⟨0x00000001, 0x00000000, 0x00000000, 0x00000000, 0x00000000, 0x00000000, 0x00000000, 0x00000000, 0x00000000, 0x00000000⟩,
      ⟨0x00000001, 0x00000000, 0x00000000, 0x00000000, 0x00000000, 0x00000000, 0x00000000, 0x00000000, 0x00000000, 0x00000000⟩,
      ⟨0x03FFFFED, 0x01FFFFFF, 0x03FFFFFF, 0x01FFFFFF, 0x03FFFFFF, 0x01FFFFFF, 0x03FFFFFF, 0x01FFFFFF, 0x03FFFFFF, 0x01FFFFFF⟩⟩ := by
  decide +kernel

/-- 96_test_vectors_derived.md section 2.5. -/
theorem test_vshuf_DBBD : resultAfter 0x208000D7 2 one234 five678 = some ⟨small 4#32, small 2#32, small 2#32, small 4#32⟩ := by
  decide +kernel
theorem test_vshuf_DCBA : resultAfter 0x2080001B 2 one234 five678 = some ⟨small 4#32, small 3#32, small 2#32, small 1#32⟩ := by
  decide +kernel
theorem test_vblend_AD : resultAfter 0x24804009 2 one234 five678 = some ⟨small 5#32, small 2#32, small 3#32, small 8#32⟩ := by
  decide +kernel
theorem test_vblend_BC : resultAfter 0x24804006 2 one234 five678 = some ⟨small 1#32, small 6#32, small 7#32, small 4#32⟩ := by
  decide +kernel

/-- LM[0x0300 + n] = n for n = 0..39 (the VLD image of section 2.5). -/
def imageState : State :=
  (withRegs one234 five678).withLm ((List.range 40).map fun n => (0x300 + n, BitVec.ofNat 32 n))

theorem test_vld_image :
    (match step (imageState.withFetchWord 32 0x40000300) with
      | .next t => some (t.f.get 0)
      | .fault _ => none
      | .refused _ => none) =
    some ⟨⟨0, 1, 2, 3, 4, 5, 6, 7, 8, 9⟩, ⟨10, 11, 12, 13, 14, 15, 16, 17, 18, 19⟩, ⟨20, 21, 22, 23, 24, 25, 26, 27, 28, 29⟩,
      ⟨30, 31, 32, 33, 34, 35, 36, 37, 38, 39⟩⟩ := by decide +kernel

/-- 60_exceptions.md R207: the first address that faults. -/
theorem test_vld_range_fault :
    (match step (State.reset.withFetchWord 32 0x4000FFD9) with
      | .next t => some (t.cause, t.finfo, t.status, t.pc)
      | .fault _ => none
      | .refused _ => none) = some (2#32, 0x4000FFD9#32, 1#32, 0#32) := by decide

/-- 41_lane_and_transfer_ops.md R137: slot B's limb 0 is word 10 of the image; the words around it are not written. -/
theorem test_vst_image :
    (match step ((withRegs one234 five678).withFetchWord 32 0x44400200) with
      | .next t => some [Memory.lookup t.lm 0x1FF, Memory.lookup t.lm 0x200, Memory.lookup t.lm 0x20A,
          Memory.lookup t.lm 0x214, Memory.lookup t.lm 0x227, Memory.lookup t.lm 0x228]
      | .fault _ => none
      | .refused _ => none) = some [none, some 5#32, some 6#32, some 7#32, some 0#32, none] := by decide +kernel

/-- 41_lane_and_transfer_ops.md R138: PIDENT F3; and the last index (43_rom_contents.md, TC[7] slot A limb 0). -/
theorem test_vldc_ident :
    resultAfter 0x48C00005 3 one234 five678 = some ⟨small 0#32, small 1#32, small 1#32, small 0#32⟩ := by decide +kernel
theorem test_vldc_last :
    (resultAfter 0x49C00017 7 one234 five678).map (fun v => v.a.t0) = some 0x028CCF0B#32 := by decide +kernel

/-- 43_rom_contents.md R188: the physical view of ROM[8], vectors 0 and 4. -/
theorem test_physical_view_of_base_point :
    Lanes.vec romT0 0 = [0x0325D51A#32, 0x02666658#32, 0x018B5823#32, 0x01999999#32, 0x00000001#32, 0x01B7DDA3#32,
      0x00000000#32, 0x01A2ACE9#32] ∧
    Lanes.vec romT0 4 = [0x013CD6E5#32, 0x02666666#32, 0x0085A4DB#32, 0x01999999#32, 0x00000000#32, 0x00FD78B7#32,
      0x00000000#32, 0x019E1D7C#32] := by decide

/-- 60_exceptions.md R203, R204: a word after a fault is discarded. -/
theorem test_faulted_unit_ignores_words :
    (match step (State.reset.withFetchWord 32 0) with
      | .next t =>
        match step (t.withFetchWord 32 0x48000000) with
        | .next u => decide (u = t)
        | .fault _ => false
        | .refused _ => false
      | .fault _ => false
      | .refused _ => false) = true := by decide +kernel

/-! ### Witnesses: for each statement with hypotheses, a state and operands that meet all of them -/

def faultedState : State := State.reset.takeFault 1#32 0#32

def widest : LimbVec := Ten.ofFn fun i => BitVec.ofNat 32 (wideLimit i - 1)
def nearest : LimbVec := Ten.ofFn fun i => BitVec.ofNat 32 (nearLimit i - 1)

theorem witness_DecodeOfEncodeIsTheCommand :
    (Instr.vldc 15 23#5).wellFormed = true ∧ (Instr.vblend 15 0 7 0b1111#4).wellFormed = true := by decide

theorem witness_EncodeOfDecodeIsTheWord : decode 0x49C00017#32 = .ok (.vldc 7 23#5) := by decide

theorem witness_DecoderIsTheOpcodeTable :
    (∃ r ∈ opcodeRows, r.name = "VLDC" ∧ r.matches 0x48000017#32 = true) ∧
    romPopulated ((0x48000017#32).extractLsb' 0 5) = true ∧ romPopulated ((0x48000018#32).extractLsb' 0 5) = false := by
  decide

theorem witness_IllegalWordsRaiseIllegalCommand :
    illegalWord 0x1C000000#32 = true ∧ illegalWord 0x04804001#32 = true ∧ illegalWord 0x48000018#32 = true ∧
    illegalWord 0x48000017#32 = false ∧ State.reset.faulted = false := by decide

theorem witness_StepRunsDecodedCommand :
    ({ State.reset with port := [.issue 0x48000017#32] } : State).port = .issue 0x48000017#32 :: [] ∧
    State.reset.faulted = false ∧ decode 0x48000017#32 = .ok (.vldc 0 23#5) ∧ State.reset.port = [] ∧
    decodeTableWord 32 0x48000017 = some (.vldc 0 23#5) := by decide

theorem witness_FaultEntryRecordsTheWord :
    ({ State.reset with port := [.issue 0x4000FFD9#32] } : State).port = .issue 0x4000FFD9#32 :: [] ∧
    State.reset.faulted = false ∧ faultingWord State.reset.cfg 0x4000FFD9#32 = true ∧
    faultingWord State.reset.cfg 0x4000FFD8#32 = false ∧ faultingWord State.reset.cfg 0x4001FFD9#32 = true ∧
    causeOf 0x4000FFD9#32 = 2#32 ∧ causeOf 0x4001FFD9#32 = 1#32 := by decide

/-- A safe VST at the highest address, of a written register. -/
theorem witness_ExactlyTwoFaultsFromTheWordAlone :
    safeCommand (.vst 0 0xFFD8#16) (withRegs one234 five678) ∧ (withRegs one234 five678).faulted = false := by
  refine ⟨⟨rfl, ?_, ⟨?_, ?_⟩, trivial⟩, by decide⟩
  · rintro fr addr (h | h)
    · cases h
    · cases h
      decide
  · intro r hr
    simp only [sourcesOf, List.mem_singleton] at hr
    subst hr
    decide
  · intro fr addr h
    cases h

theorem witness_FaultedStateIsTerminalUntilReset :
    faultedState.faulted = true ∧ HostMove.issue 0x48000000#32 ≠ HostMove.reset ∧
    faultedState.perform (.issue 0x48000000#32) = .next faultedState ∧ 65535 < faultedState.cfg.lmWords :=
  ⟨by decide, by decide, rfl, by decide⟩

theorem witness_FaultedRunsChangeNoRegister :
    ∃ s t : State, s.faulted = true ∧ HostMove.reset ∉ s.port ∧ s.port.length = 2 ∧
      Host.Core.run Sys2Proof.core 2 s = .next t :=
  ⟨{ faultedState with port := [.issue 0x48000000#32, .writeLm 65535 7#32] },
    { faultedState with lm := [(65535, 7#32)] }, by decide, by decide, rfl, rfl⟩

theorem witness_ResetClearsAllButMemory :
    faultedState.faulted = true ∧ HostMove.writeStatus 0 1#32 ≠ HostMove.reset ∧
    faultedState.perform (.writeStatus 0 1#32) = .next faultedState := ⟨by decide, by decide, rfl⟩

theorem witness_InvariantHoldsAtReset : Config.legal ⟨40⟩ = true ∧ Config.legal ⟨65536⟩ = true := by decide

theorem witness_EveryStepKeepsTheInvariant :
    ∃ s t : State, invariant s ∧ s.port.length = 1 ∧ step s = .next t :=
  ⟨{ State.reset with port := [.writeLm 65535 7#32] }, State.reset.hostStore 65535 7#32,
    ⟨by decide, by decide, by decide, .inl ⟨rfl, rfl, rfl⟩, by decide⟩, rfl, rfl⟩

theorem witness_PcCountsCompletedCommands :
    ∃ s : State, s.faulted = false ∧
      s.port = [0x48000000#32, 0x4000FFD9#32, 0x48000001#32].map HostMove.issue ∧
      [0x48000000#32, 0x4000FFD9#32, 0x48000001#32].find? (faultingWord s.cfg) = some 0x4000FFD9#32 :=
  ⟨{ State.reset with port := [0x48000000#32, 0x4000FFD9#32, 0x48000001#32].map HostMove.issue }, by decide, rfl, by decide⟩

/-- Both sides of the boundary: the last word that exists, and the first that does not. -/
theorem witness_EveryHostMoveAnswers :
    State.reset.perform (.writeLm 65535 7#32) = .next (State.reset.hostStore 65535 7#32) ∧
    State.reset.perform (.writeLm 65536 7#32) = .fault (.hostWordOutsideMemory 65536) := ⟨rfl, rfl⟩

theorem witness_OneRegisterAndNoPartialResult :
    destinationOf (.vld 3 0xFFD9#16) ≠ some 0 ∧ State.reset.faulted = false ∧
    ∃ t, exec (.vld 3 0xFFD9#16) State.reset = .next t ∧ t.faulted = true :=
  ⟨by decide, by decide, State.reset.takeFault 2#32 0x40C0FFD9#32, rfl, by decide⟩

theorem witness_StatusRegistersAreHostReadOnly :
    State.reset.perform (.writeLm 0 7#32) = .next (State.reset.hostStore 0 7#32) ∧
    exec (.vldc 0 0#5) State.reset = .next (State.reset.writeField 0 romZero).complete := ⟨rfl, rfl⟩

/-- g differs from what is stored in every never-written register. -/
theorem witness_UnwrittenContentIsNeverRead :
    ∃ g : Vector Vfe 16,
      (∀ r : FReg, (withRegs one234 five678).written.get r = true → g.get r = (withRegs one234 five678).f.get r) ∧
      g.get 2 ≠ (withRegs one234 five678).f.get 2 ∧ ∃ t, exec (.vmul 2 0 1) (withRegs one234 five678) = .next t :=
  ⟨((Vector.replicate 16 romOne).set 0 one234).set 1 five678, by decide, by decide, _, rfl⟩

theorem witness_EqualMemoriesAreEqualLists :
    Memory.wf [(1, 5#32), (3, 7#32)] = true ∧
    ∀ a, Memory.lookup [(1, 5#32), (3, 7#32)] a = Memory.lookup [(1, 5#32), (3, 7#32)] a := ⟨by decide, fun _ => rfl⟩

theorem witness_HostWriteChangesOneWord : 65535 < State.reset.cfg.lmWords := by decide

/-- The largest sum that fits; and four class-N limb vectors whose sum is the first operand. -/
theorem witness_VaddAddsLimbs :
    addFits (allSlots (small 0xFFFFFFFE#32)).a (small 1#32) ∧
    ∃ xs : List LimbVec, xs.length ≤ 4 ∧ (∀ x ∈ xs, isNear x) ∧
      (∀ i, ((small 4#32).get i).toNat = limbSum xs i) ∧ isNear nearest :=
  ⟨by unfold addFits; decide, List.replicate 4 (small 1#32), by decide, by decide, by decide, by decide⟩

theorem witness_VsubSubtractsFromMultiple :
    withinMultiple 2 (multiple 2) ∧ multipleFits 2 nearest ∧ withinMultiple 16 widest ∧ multipleFits 16 widest ∧
    isNear nearest ∧ isWide widest ∧ ((2 = 2 ∧ Instr.vsubP2 = .vsubP2) ∨ (2 = 16 ∧ Instr.vsubP2 = .vsubP16)) ∧
    (withRegs one234 five678).written.get 0 = true :=
  ⟨by unfold withinMultiple; decide, by unfold multipleFits; decide, by unfold withinMultiple; decide,
    by unfold multipleFits; decide, by decide, by decide, .inl ⟨rfl, rfl⟩, by decide⟩

theorem witness_VnegNegatesSelectedSlots :
    (0b1001#4).getLsbD Slot.D.code = true ∧ (0b1001#4).getLsbD Slot.B.code = false ∧ withinMultiple 2 (multiple 2) ∧
    withinMultiple 16 (multiple 16) ∧ isNear nearest ∧
    ((16 = 2 ∧ Instr.vnegP16 = .vnegP2) ∨ (16 = 16 ∧ Instr.vnegP16 = .vnegP16)) :=
  ⟨by decide, by decide, by unfold withinMultiple; decide, by unfold withinMultiple; decide, by decide, .inr ⟨rfl, rfl⟩⟩

/-- Class-W operands whose product is above the bound and whose result has limb 1 within its mask. -/
theorem witness_VmulMultipliesSlots :
    (∀ i, (small 0#32).get i = 0#32) ∧ isWide widest ∧ isWide (canon (2 ^ 100)) ∧ isWide (small 3#32) ∧
    19 + 5748 * 2 ^ 26 ≤ val (canon (2 ^ 100)) * val (small 3#32) % prime ∧
    ((mulSlot (canon (2 ^ 100)) (small 3#32)).get 1).toNat ≤ limbMask 1 := by decide +kernel

/-- The same words in F0 and F1, both written. -/
theorem witness_VsqIsVmulOfEqualOperands :
    isWide ((withRegs (allSlots widest) one234).field 0).c ∧ (withRegs one234 one234).written.get 0 = true ∧
    (withRegs one234 one234).written.get 1 = true ∧
    (withRegs one234 one234).f.get 1 = (withRegs one234 one234).f.get 0 := by decide

/-- 95_test_vectors.md P1 prints canon(p-1); R11 gives -1 the same residue. -/
theorem test_canon_of_minus_one : canon (-1) = ⟨0x03FFFFEC, 0x01FFFFFF, 0x03FFFFFF, 0x01FFFFFF, 0x03FFFFFF, 0x01FFFFFF,
    0x03FFFFFF, 0x01FFFFFF, 0x03FFFFFF, 0x01FFFFFF⟩ := by decide +kernel

theorem witness_MultiplierStaysInBounds : isWide widest ∧ isWide nearest ∧ isNear nearest ∧ ¬ isNear widest := by decide

theorem witness_VredLCarriesOnce : isCanon ((withRegs one234 five678).field 0).d := by decide +kernel

theorem witness_VredFIsCanonical : isCanon ((withRegs one234 five678).field 1).b := by decide +kernel

theorem witness_RequiredFieldProperties :
    wideVfe (allSlots widest) ∧ wideVfe (allSlots nearest) ∧ ∀ sl, withinMultiple 2 ((allSlots (multiple 2)).slot sl) := by
  refine ⟨by decide, by decide, fun sl => ?_⟩
  cases sl <;> (unfold withinMultiple; decide)

theorem witness_MagnitudeClassesNest : isCanon (canon (prime - 1)) ∧ isNear nearest := by decide +kernel

theorem witness_DocumentedChainLengths :
    (∀ x ∈ List.replicate 63 nearest, isNear x) ∧ withinMultiple 16 (multiple 16) := by
  refine ⟨fun x hx => ?_, by unfold withinMultiple; decide⟩
  rw [List.eq_of_mem_replicate hx]
  decide

/-- Two states whose F0 and F1 agree in slot A only. -/
theorem witness_FieldCommandSlotsAreIndependent :
    isFieldCommand (.vmul 2 0 1) = true ∧
    (∀ r ∈ sourcesOf (.vmul 2 0 1),
      ((withRegs one234 five678).field r).slot .A =
        ((withRegs ⟨small 1#32, widest, widest, widest⟩ ⟨small 5#32, widest, widest, widest⟩).field r).slot .A) ∧
    (∃ t, exec (.vmul 2 0 1) (withRegs one234 five678) = .next t) ∧ destinationOf (.vmul 2 0 1) = some 2 :=
  ⟨rfl, by decide, ⟨_, rfl⟩, rfl⟩

theorem witness_VshufMovesWholeSlots :
    Slot.D.code = (0xD7#8).toNat / 2 ^ (2 * Slot.A.code) % 4 ∧ Slot.B.code = (0xD7#8).toNat / 2 ^ (2 * Slot.C.code) % 4 := by
  decide

theorem witness_VblendSelectsSlots :
    (0b1001#4).getLsbD Slot.A.code = true ∧ (0b1001#4).getLsbD Slot.C.code = false := by decide

/-- The highest legal address, the first illegal one, a written word of an image, and the word issued. -/
theorem witness_VldLoadsFortyWords :
    (0xFFD8#16).toNat + 40 ≤ imageState.cfg.lmWords ∧ imageState.cfg.lmWords < (0xFFD9#16).toNat + 40 ∧
    Memory.lookup imageState.lm ((0x300#16).toNat + 10 * Slot.D.code + 9) = some 39#32 ∧
    decode 0x4000FFD9#32 = .ok (.vld 0 0xFFD9#16) := by decide +kernel

theorem witness_VstStoresFortyWords :
    (0xFFD8#16).toNat + 40 ≤ State.reset.cfg.lmWords ∧ State.reset.cfg.lmWords < (0xFFD9#16).toNat + 40 ∧
    decode 0x4400FFD9#32 = .ok (.vst 0 0xFFD9#16) := by decide

theorem witness_StoreThenLoadCopiesTheRegister : (0xFFD8#16).toNat + 40 ≤ State.reset.cfg.lmWords := by decide

/-- The ends of both ranges of populated indices, and the reserved ones beside them. -/
theorem witness_VldcLoadsTheRomEntry :
    (∀ e ∈ [0#5, 5#5, 8#5, 23#5], e.toNat ≤ 5 ∨ (8 ≤ e.toNat ∧ e.toNat ≤ 23)) ∧
    (∀ e ∈ [6#5, 7#5, 24#5, 31#5], ¬ (e.toNat ≤ 5 ∨ (8 ≤ e.toNat ∧ e.toNat ≤ 23))) ∧ State.reset.faulted = false := by
  decide

theorem witness_RomEntriesAreCanonical : rom 23#5 = some romTC7 ∧ 23#5 ≠ 2#5 ∧ 23#5 ≠ 3#5 := ⟨rfl, by decide, by decide⟩

theorem witness_TableHoldsOddMultiples : rom (BitVec.ofNat 5 (8 + (7 : Fin 8).val)) = some romT7 := rfl

/-! The identity point as the witness of the point statements. -/

theorem fe_of_val {x : LimbVec} {n : Nat} (h : val x = n) : fe x = (n : ZMod prime) := by rw [fe, h]

theorem zmod_nontrivial : Nontrivial (ZMod prime) :=
  have : Fact (Nat.Prime prime) := ⟨prime_is_prime⟩
  inferInstance

theorem ident_represents : represents romIdent 0 1 := by
  have := zmod_nontrivial
  have ha : fe romIdent.a = ((0 : Nat) : ZMod prime) := fe_of_val (by decide)
  have hb : fe romIdent.b = ((1 : Nat) : ZMod prime) := fe_of_val (by decide)
  have hc : fe romIdent.c = ((1 : Nat) : ZMod prime) := fe_of_val (by decide)
  have hd : fe romIdent.d = ((0 : Nat) : ZMod prime) := fe_of_val (by decide)
  refine ⟨?_, ⟨?_, ?_, ?_⟩, ?_⟩
  · rw [hc]
    simp
  · rw [ha, hc]
    simp
  · rw [hb, hc]
    simp
  · rw [hd, hc]
    simp
  · simp [onCurve]

theorem ident_validPoint : validPoint romIdent := by
  have hb : fe romIdent.b = ((1 : Nat) : ZMod prime) := fe_of_val (by decide)
  have hc : fe romIdent.c = ((1 : Nat) : ZMod prime) := fe_of_val (by decide)
  have ha : fe romIdent.a = ((0 : Nat) : ZMod prime) := fe_of_val (by decide)
  have hd : fe romIdent.d = ((0 : Nat) : ZMod prime) := fe_of_val (by decide)
  refine ⟨ident_represents.1, ?_, ?_⟩
  · rw [ha, hb, hc, hd]
    simp
  · rw [ha, hb, hc, hd]
    simp

/-- (1, 1, 2, 0), the cached form of the identity. -/
def cachedIdent : Vfe := ⟨small 1#32, small 1#32, small 2#32, small 0#32⟩

theorem ident_cachedForm : cachedForm cachedIdent romIdent := by
  have ha : fe romIdent.a = ((0 : Nat) : ZMod prime) := fe_of_val (by decide)
  have hb : fe romIdent.b = ((1 : Nat) : ZMod prime) := fe_of_val (by decide)
  have hc : fe romIdent.c = ((1 : Nat) : ZMod prime) := fe_of_val (by decide)
  have hd : fe romIdent.d = ((0 : Nat) : ZMod prime) := fe_of_val (by decide)
  have ca : fe cachedIdent.a = ((1 : Nat) : ZMod prime) := fe_of_val (by decide)
  have cb : fe cachedIdent.b = ((1 : Nat) : ZMod prime) := fe_of_val (by decide)
  have cc : fe cachedIdent.c = ((2 : Nat) : ZMod prime) := fe_of_val (by decide)
  have cd : fe cachedIdent.d = ((0 : Nat) : ZMod prime) := fe_of_val (by decide)
  refine ⟨?_, ?_, ?_, ?_⟩
  · rw [ca, ha, hb]
    simp
  · rw [cb, ha, hb]
    simp
  · rw [cc, hc]
    simp
  · rw [cd, hd]
    simp

theorem ident_cachedOf : cachedOf cachedIdent 0 1 := ⟨romIdent, ident_represents, ident_cachedForm⟩

theorem identRegs_field : (withRegs romIdent romIdent).field 0 = romIdent ∧ (withRegs romIdent romIdent).field 1 = romIdent ∧
    (withRegs romIdent cachedIdent).field 1 = cachedIdent ∧ (withRegs romIdent cachedIdent).field 0 = romIdent :=
  ⟨rfl, rfl, rfl, rfl⟩

theorem witness_CurveAdditionIsComplete : onCurve 0 1 ∧ onCurve 0 (-1) ∧ isCurveSum 0 1 0 1 0 1 := by
  refine ⟨by simp [onCurve], by simp [onCurve], by simp [crossTerm], by simp [crossTerm]⟩

theorem witness_ValidPointsRepresentAffinePoints :
    validPoint romIdent ∧ represents romIdent 0 1 ∧ pointEquations romIdent ∧ (fe romIdent.c ≠ 0 ∨ fe romIdent.d ≠ 0) :=
  ⟨ident_validPoint, ident_represents, ident_validPoint.2, .inl ident_validPoint.1⟩

theorem witness_PdblDoublesThePoint :
    nearVfe ((withRegs romIdent romIdent).field 0) ∧ represents ((withRegs romIdent romIdent).field 0) 0 1 :=
  ⟨by decide, by rw [identRegs_field.1]; exact ident_represents⟩

theorem witness_PcacheWritesTheCachedForm :
    nearVfe ((withRegs romIdent romIdent).field 0) ∧ rom (BitVec.ofNat 5 (8 + (7 : Fin 8).val)) = some romT7 ∧
    rom (BitVec.ofNat 5 (16 + (7 : Fin 8).val)) = some romTC7 := ⟨by decide, rfl, rfl⟩

theorem witness_PaddcAddsTheCachedPoint :
    nearVfe ((withRegs romIdent cachedIdent).field 0) ∧ wideVfe ((withRegs romIdent cachedIdent).field 1) ∧
    represents ((withRegs romIdent cachedIdent).field 0) 0 1 ∧ cachedOf ((withRegs romIdent cachedIdent).field 1) 0 1 := by
  refine ⟨by decide, by decide, ?_, ?_⟩
  · rw [identRegs_field.2.2.2]
    exact ident_represents
  · rw [identRegs_field.2.2.1]
    exact ident_cachedOf

theorem witness_PaddAddsThePoints :
    nearVfe ((withRegs romIdent romIdent).field 0) ∧ nearVfe ((withRegs romIdent romIdent).field 1) ∧
    represents ((withRegs romIdent romIdent).field 0) 0 1 ∧ represents ((withRegs romIdent romIdent).field 1) 0 1 ∧
    (5 : FReg) ≠ 0 ∧ (withRegs romIdent romIdent).written.get 0 = true ∧ nearVfe romIdent ∧ validPoint romIdent := by
  refine ⟨by decide, by decide, ?_, ?_, by decide, by decide, by decide, ident_validPoint⟩
  · rw [identRegs_field.1]
    exact ident_represents
  · rw [identRegs_field.2.1]
    exact ident_represents

theorem witness_PnegNegatesThePoint :
    isCanon ((withRegs romIdent romIdent).field 0).b ∧ isCanon ((withRegs romIdent romIdent).field 0).c ∧
    withinMultiple 2 ((withRegs romIdent romIdent).field 0).a ∧ withinMultiple 2 ((withRegs romIdent romIdent).field 0).d ∧
    represents ((withRegs romIdent romIdent).field 0) 0 1 ∧ cachedForm cachedIdent romIdent ∧
    withinMultiple 2 cachedIdent.d := by
  refine ⟨by decide +kernel, by decide +kernel, by unfold withinMultiple; decide, by unfold withinMultiple; decide, ?_,
    ident_cachedForm, by unfold withinMultiple; decide⟩
  rw [identRegs_field.1]
  exact ident_represents

theorem witness_OppositePointsAddToIdentity : nearVfe romIdent ∧ validPoint romIdent := ⟨by decide, ident_validPoint⟩

/-- All sixteen registers written, in class N; two point commands to run. -/
theorem witness_PointChainsStayInClassN :
    ∃ s : State, (∀ i ∈ [Instr.pdbl 0 1, Instr.padd 1 0 2], isPointCommand i = true) ∧
      (∀ r : FReg, s.written.get r = true ∧ nearVfe (s.f.get r)) ∧ s.faulted = false ∧
      s.port = [Instr.pdbl 0 1, Instr.padd 1 0 2].map (fun i => HostMove.issue (encode i)) ∧
      (∀ r ∈ sourcesOf (.pdbl 0 1), nearVfe (s.field r)) :=
  ⟨{ State.reset with
      f := Vector.replicate 16 romIdent
      written := Vector.replicate 16 true
      port := [Instr.pdbl 0 1, Instr.padd 1 0 2].map (fun i => HostMove.issue (encode i)) },
    by decide, by decide, rfl, rfl, by decide⟩

end Sys2Proof.Tests
end

section
/-! PROOFS. The alternating radix (00_scope.md R9 to R13, 43_rom_contents.md R181): a limb vector within its masks is
the sequence of bit fields of its value, from which canon(n), the magnitude classes and the multiples of p follow. -/

namespace Sys2Proof.Machine

/-! ### The value and the bit fields of a number -/

/-- val as the sum R10 prints. -/
theorem val_eq_sum (x : LimbVec) : val x = ∑ i, (x.get i).toNat * 2 ^ limbExp i := by
  simp only [Fin.sum_univ_ofNat]
  rfl

/-- Every limb is within its nominal width (R9, R11). -/
def withinMasks (x : LimbVec) : Prop := ∀ i, (x.get i).toNat ≤ limbMask i

/-- The bits of `m` that limb `i` stands for, as R11 writes them. -/
def bitField (m : Nat) (i : Fin 10) : Nat := (m >>> limbExp i) &&& limbMask i

theorem bitField_le_limbMask (m : Nat) (i : Fin 10) : bitField m i ≤ limbMask i := Nat.and_le_right

theorem bitField_eq_div_mod (m : Nat) (i : Fin 10) : bitField m i = m / 2 ^ limbExp i % 2 ^ limbWidth i := by
  rw [bitField, limbMask, Nat.and_two_pow_sub_one_eq_mod, Nat.shiftRight_eq_div_pow]

/-- The bits below the top `e` of field `i` are those below its foot, and the field. -/
theorem mod_add_bitField (m : Nat) {i : Fin 10} {e : Nat} (h : limbExp i + limbWidth i = e) :
    m % 2 ^ limbExp i + bitField m i * 2 ^ limbExp i = m % 2 ^ e := by
  rw [← h, bitField_eq_div_mod, pow_add, Nat.mod_mul, Nat.mul_comm]

/-- Each field begins where the one before it ends, so the ten together are the low 255 bits. -/
theorem sum_bitField (m : Nat) : ∑ i, bitField m i * 2 ^ limbExp i = m % 2 ^ 255 := by
  have step (i j : Fin 10) (h : limbExp i + limbWidth i = limbExp j) := mod_add_bitField m h
  have foot : m % 2 ^ limbExp 0 = 0 := Nat.mod_one m
  have top : m % 2 ^ limbExp 9 + bitField m 9 * 2 ^ limbExp 9 = m % 2 ^ 255 := mod_add_bitField m rfl
  simp only [Fin.sum_univ_ofNat]
  linarith [step 0 1 rfl, step 1 2 rfl, step 2 3 rfl, step 3 4 rfl, step 4 5 rfl, step 5 6 rfl, step 6 7 rfl,
    step 7 8 rfl, step 8 9 rfl]

/-- A vector within its masks has the bit fields of its value as limbs: no limb reaches into the next field. -/
theorem get_toNat_eq_bitField {x : LimbVec} (h : withinMasks x) (i : Fin 10) :
    (x.get i).toNat = bitField (val x) i := by
  have h0 : x.t0.toNat < 2 ^ 26 := Nat.lt_succ_of_le (h 0)
  have h1 : x.t1.toNat < 2 ^ 25 := Nat.lt_succ_of_le (h 1)
  have h2 : x.t2.toNat < 2 ^ 26 := Nat.lt_succ_of_le (h 2)
  have h3 : x.t3.toNat < 2 ^ 25 := Nat.lt_succ_of_le (h 3)
  have h4 : x.t4.toNat < 2 ^ 26 := Nat.lt_succ_of_le (h 4)
  have h5 : x.t5.toNat < 2 ^ 25 := Nat.lt_succ_of_le (h 5)
  have h6 : x.t6.toNat < 2 ^ 26 := Nat.lt_succ_of_le (h 6)
  have h7 : x.t7.toNat < 2 ^ 25 := Nat.lt_succ_of_le (h 7)
  have h8 : x.t8.toNat < 2 ^ 26 := Nat.lt_succ_of_le (h 8)
  have h9 : x.t9.toNat < 2 ^ 25 := Nat.lt_succ_of_le (h 9)
  rw [bitField_eq_div_mod]
  fin_cases i <;> simp only [Ten.get, val, limbExp, limbWidth, Nat.reduceMod, one_ne_zero, ↓reduceIte] <;> omega

/-! ### canon (R11) -/

theorem canon_get_eq_bitField (n : Int) (i : Fin 10) :
    ((canon n).get i).toNat = bitField (n % (prime : Int)).toNat i := canon_get_toNat n i

theorem canon_withinMasks (n : Int) : withinMasks (canon n) := fun i => by
  rw [canon_get_eq_bitField]
  exact bitField_le_limbMask _ i

/-- The value of canon(n) is the residue of n, which has at most 255 bits. -/
theorem val_canon (n : Int) : (val (canon n) : Int) = n % (prime : Int) := by
  have hnn : 0 ≤ n % (prime : Int) := Int.emod_nonneg n (by decide)
  have hlt : n % (prime : Int) < prime := Int.emod_lt_of_pos n (by decide)
  have hbits : (n % (prime : Int)).toNat < 2 ^ 255 := by
    have : prime < 2 ^ 255 := by decide
    omega
  rw [val_eq_sum]
  simp only [canon_get_eq_bitField]
  rw [sum_bitField, Nat.mod_eq_of_lt hbits, Int.toNat_of_nonneg hnn]

theorem val_canon_lt (n : Int) : val (canon n) < prime := by
  have hlt : n % (prime : Int) < prime := Int.emod_lt_of_pos n (by decide)
  have := val_canon n
  omega

/-- Two vectors within their masks that have one value are one vector. -/
theorem eq_of_val_eq {x y : LimbVec} (hx : withinMasks x) (hy : withinMasks y) (h : val x = val y) : x = y :=
  Ten.ext_get fun i => BitVec.eq_of_toNat_eq <| by
    rw [get_toNat_eq_bitField hx, get_toNat_eq_bitField hy, h]

theorem eq_canon_iff {c : LimbVec} {n : Int} : c = canon n ↔ withinMasks c ∧ (val c : Int) = n % (prime : Int) := by
  constructor
  · rintro rfl
    exact ⟨canon_withinMasks n, val_canon n⟩
  · rintro ⟨hc, hv⟩
    exact eq_of_val_eq hc (canon_withinMasks n) (by exact_mod_cast hv.trans (val_canon n).symm)

/-- Settles O34: the limbs are bit fields of the residue, and a vector within its masks is determined by its value. -/
theorem canonIsUnique : Obligations.CanonIsUnique := fun n =>
  ⟨canon_get_toNat n, val_canon_lt n, fun _ => eq_canon_iff⟩

/-! ### The magnitude classes (R13) -/

theorem isCanon_iff {x : LimbVec} : isCanon x ↔ withinMasks x ∧ val x < prime := by
  rw [isCanon, eq_canon_iff, eq_comm (a := (val x : Int))]
  norm_cast
  rw [Nat.mod_eq_iff_lt (by decide)]

/-- A limit given by the parity of the limb position, one bound for each parity. -/
theorem lt_parity_iff {a b c : Nat} {i : Fin 10} :
    (a < if i.val % 2 = 0 then b else c) ↔ (i.val % 2 = 0 → a < b) ∧ (i.val % 2 = 1 → a < c) := by
  split <;> omega

theorem limbMask_lt_nearLimit (i : Fin 10) : limbMask i < nearLimit i := by
  rw [limbMask, limbWidth, nearLimit]
  split <;> decide

theorem nearLimit_lt_wideLimit (i : Fin 10) : nearLimit i < wideLimit i := by
  rw [nearLimit, wideLimit]
  split <;> decide

theorem isNear_of_withinMasks {x : LimbVec} (h : withinMasks x) : isNear x := fun i =>
  (h i).trans_lt (limbMask_lt_nearLimit i)

theorem isNear_of_isCanon {x : LimbVec} (h : isCanon x) : isNear x := isNear_of_withinMasks (isCanon_iff.1 h).1

theorem isWide_of_isNear {x : LimbVec} (h : isNear x) : isWide x := fun i => (h i).trans (nearLimit_lt_wideLimit i)

theorem forall_slot (P : Slot → Prop) : (P .A ∧ P .B ∧ P .C ∧ P .D) ↔ ∀ sl, P sl := by
  refine ⟨fun ⟨ha, hb, hc, hd⟩ sl => ?_, fun h => ⟨h .A, h .B, h .C, h .D⟩⟩
  cases sl <;> assumption

theorem canonVfe_iff {v : Vfe} : canonVfe v ↔ ∀ sl, isCanon (v.slot sl) := forall_slot fun sl => isCanon (v.slot sl)
theorem nearVfe_iff {v : Vfe} : nearVfe v ↔ ∀ sl, isNear (v.slot sl) := forall_slot fun sl => isNear (v.slot sl)
theorem wideVfe_iff {v : Vfe} : wideVfe v ↔ ∀ sl, isWide (v.slot sl) := forall_slot fun sl => isWide (v.slot sl)

/-- Settles O35: the masks are below the limits of N, and those below the limits of W, limb by limb. -/
theorem magnitudeClassesNest : Obligations.MagnitudeClassesNest :=
  ⟨fun _ => ⟨isCanon_iff, forall_congr' fun _ => lt_parity_iff, forall_congr' fun _ => lt_parity_iff,
    isNear_of_isCanon, isWide_of_isNear⟩, fun _ => ⟨canonVfe_iff, nearVfe_iff, wideVfe_iff⟩⟩

/-! ### p and its multiples (R12, R181) -/

@[simp] theorem primeLimb_zero : primeLimb 0 = 2 ^ 26 - 19 := rfl

theorem primeLimb_of_odd {i : Fin 10} (h : i.val % 2 = 1) : primeLimb i = 2 ^ 25 - 1 := by
  have h0 : i ≠ 0 := by rintro rfl; cases h
  rw [primeLimb, if_neg h0, limbMask, limbWidth, if_neg (by omega)]

theorem primeLimb_of_even {i : Fin 10} (h : i.val % 2 = 0) (h0 : i ≠ 0) : primeLimb i = 2 ^ 26 - 1 := by
  rw [primeLimb, if_neg h0, limbMask, limbWidth, if_pos h]

theorem primeLimb_le (i : Fin 10) : primeLimb i ≤ 2 ^ 26 - 1 := by
  fin_cases i <;> decide

/-- The limbs of p sum to p. -/
theorem sum_primeLimb : ∑ i, primeLimb i * 2 ^ limbExp i = prime := by
  decide

theorem multipleLimb_le (k : Nat) (i : Fin 10) : multipleLimb k i ≤ k * (2 ^ 26 - 1) :=
  Nat.mul_le_mul_left k (primeLimb_le i)

/-- Up to 64p no limb of the multiple reaches 2^32. -/
theorem multiple_get_toNat {k : Nat} (hk : k ≤ 64) (i : Fin 10) :
    ((multiple k).get i).toNat = multipleLimb k i := by
  have h := multipleLimb_le k i
  rw [multiple, Ten.get_ofFn, BitVec.toNat_ofNat]
  exact Nat.mod_eq_of_lt (by omega)

theorem val_multiple {k : Nat} (hk : k ≤ 64) : val (multiple k) = k * prime := by
  rw [val_eq_sum, ← sum_primeLimb, Finset.mul_sum]
  exact Finset.sum_congr rfl fun i _ => by rw [multiple_get_toNat hk, multipleLimb, Nat.mul_assoc]

/-! The limbs R181 prints are kp(2, .) and kp(16, .). -/

theorem limbsP2_eq_multiple : limbsP2 = multiple 2 := by decide
theorem limbsP16_eq_multiple : limbsP16 = multiple 16 := by decide

/-! ROM[2] and ROM[3], and their physical view. -/

theorem rom_two : rom 2 = some (allSlots (multiple 2)) := by
  rw [← limbsP2_eq_multiple]
  rfl

theorem rom_three : rom 3 = some (allSlots (multiple 16)) := by
  rw [← limbsP16_eq_multiple]
  rfl

/-- The lanes of a VFE with one limb vector in every slot: limbs 2j and 2j + 1, each in two lanes of either half. -/
theorem vec_allSlots (x : LimbVec) (j : Fin 5) :
    Lanes.vec (allSlots x) j =
      [x.get (laneLimb j 0), x.get (laneLimb j 0), x.get (laneLimb j 2), x.get (laneLimb j 2),
       x.get (laneLimb j 0), x.get (laneLimb j 0), x.get (laneLimb j 2), x.get (laneLimb j 2)] := rfl

theorem vec_romP2_zero : Lanes.vec romP2 0 = vecP2Lo := vec_allSlots limbsP2 0
theorem vec_romP16_zero : Lanes.vec romP16 0 = vecP16Lo := vec_allSlots limbsP16 0

/-- Above limb 0 the limbs of p are the two masks, so every vector but the first is the same. -/
theorem vec_allSlots_multiple (k : Nat) {j : Fin 5} (h : j ≠ 0) :
    let even := BitVec.ofNat 32 (k * (2 ^ 26 - 1))
    let odd := BitVec.ofNat 32 (k * (2 ^ 25 - 1))
    Lanes.vec (allSlots (multiple k)) j = [even, even, odd, odd, even, even, odd, odd] := by
  rw [vec_allSlots]
  fin_cases j
  · exact absurd rfl h
  all_goals rfl

theorem vec_romP2_ne_zero {j : Fin 5} (h : j ≠ 0) : Lanes.vec romP2 j = vecP2Hi := by
  rw [romP2, limbsP2_eq_multiple, vec_allSlots_multiple 2 h]
  rfl

theorem vec_romP16_ne_zero {j : Fin 5} (h : j ≠ 0) : Lanes.vec romP16 j = vecP16Hi := by
  rw [romP16, limbsP16_eq_multiple, vec_allSlots_multiple 16 h]
  rfl

/-- Settles O45: the multiple k has the value k*p as no limb wraps, and the printed limbs are those of 2p and 16p. -/
theorem reductionConstants : Obligations.ReductionConstants :=
  ⟨(val_multiple (by decide)).trans (Nat.one_mul prime), val_multiple (by decide), val_multiple (by decide),
    primeLimb_zero, fun _ => primeLimb_of_odd, fun _ => primeLimb_of_even, fun _ _ => rfl, multipleLimb_le 16, rom_two, rom_three,
    vec_romP2_zero, fun _ => vec_romP2_ne_zero, vec_romP16_zero, fun _ => vec_romP16_ne_zero⟩

end Sys2Proof.Machine
end

section
/-! PROOFS. Which words fault (30_encoding.md R78, 60_exceptions.md R200 to R203): the decoder rejects exactly the
illegal words, what it accepts is the one word of the command, and so the word and LMWORDS alone settle whether a
command completes. -/

namespace Sys2Proof.Machine

/-! ### Ranges of bits -/

theorem append_eq_zero_iff {m n : Nat} (x : BitVec m) (y : BitVec n) : x ++ y = 0 ↔ x = 0 ∧ y = 0 := by
  rw [← BitVec.toNat_inj, ← BitVec.toNat_inj, ← BitVec.toNat_inj, BitVec.toNat_append]
  simp [Nat.or_eq_zero_iff]

/-- Two adjacent ranges are zero exactly when the range they make up is. -/
theorem extractLsb'_add_eq_zero_iff {n : Nat} (x : BitVec n) (lo a b : Nat) :
    x.extractLsb' lo (a + b) = 0 ↔ x.extractLsb' (lo + b) a = 0 ∧ x.extractLsb' lo b = 0 := by
  rw [← BitVec.extractLsb'_append_extractLsb'_eq_extractLsb' rfl, append_eq_zero_iff]

theorem eq_append_extractLsb' {n : Nat} (x : BitVec n) {hi lo : Nat} (h : hi + lo = n) :
    x = (x.extractLsb' lo hi ++ x.extractLsb' 0 lo).cast h := by
  subst h
  rw [BitVec.extractLsb'_append_extractLsb'_eq_extractLsb' (Nat.zero_add lo).symm, BitVec.extractLsb'_eq_self]
  rfl

theorem extractLsb'_one {n : Nat} (x : BitVec n) (i : Nat) : x.extractLsb' i 1 = BitVec.ofBool (x.getLsbD i) := by
  ext j hj
  obtain rfl : j = 0 := by omega
  simp

/-- A range of zeros with the qualifier bit below it. -/
theorem extractLsb'_of_zero_above {n : Nat} (x : BitVec n) {lo len : Nat} (h : x.extractLsb' (lo + 1) len = 0) :
    x.extractLsb' lo (len + 1) = 0#len ++ BitVec.ofBool (x.getLsbD lo) := by
  rw [← BitVec.extractLsb'_append_extractLsb'_eq_extractLsb' rfl, h, extractLsb'_one]
  rfl

/-- Masking with the ones of a range leaves nothing exactly when the range is zero. -/
theorem and_eq_zero_iff_of_range (w : Word) {m : Word} (lo len : Nat) (hm : m.toNat = (2 ^ len - 1) * 2 ^ lo) :
    w &&& m = 0#32 ↔ w.extractLsb' lo len = 0 := by
  have hand : w.toNat &&& (2 ^ len - 1) * 2 ^ lo = (w.extractLsb' lo len).toNat * 2 ^ lo := by
    rw [BitVec.extractLsb'_toNat, ← Nat.and_two_pow_sub_one_eq_mod, ← Nat.shiftLeft_eq, ← Nat.shiftLeft_eq,
      Nat.shiftLeft_and_distrib]
    refine Nat.eq_of_testBit_eq fun i => ?_
    simp only [Nat.testBit_and, Nat.testBit_shiftLeft, Nat.testBit_shiftRight]
    grind
  rw [← BitVec.toNat_inj, ← BitVec.toNat_inj, BitVec.toNat_and, hm, hand]
  simp

theorem opOf_eq_opField (w : Word) : opOf w = (opField w).toNat := by
  simp only [opOf, opField, BitVec.extractLsb'_toNat, Nat.shiftRight_eq_div_pow]
  omega

theorem addrField_toNat (w : Word) : (addrField w).toNat = w.toNat % 2 ^ 16 := by
  simp [addrField]

theorem immField_extractLsb' (w : Word) {lo len : Nat} (h : lo + len ≤ 14) :
    (immField w).extractLsb' lo len = w.extractLsb' lo len := BitVec.extractLsb'_extractLsb'_of_le h

/-! ### The decoder accepts exactly the words that are not illegal (R78) -/

theorem mustBeZero_eq_none {op : Nat}
    (h : op ∉ [0x01, 0x02, 0x03, 0x04, 0x05, 0x06, 0x08, 0x09, 0x10, 0x11, 0x12, 0x20, 0x21, 0x22, 0x23, 0x24]) :
    mustBeZero op = none := by
  unfold mustBeZero
  split <;> simp_all

/-- A word of an op other than VLDC's is legal exactly when its unused bits are zero. -/
theorem illegalWord_eq {w m : Word} {op : Nat} (lo len : Nat) (hop : (opField w).toNat = op)
    (hm : mustBeZero op = some m) (hop' : op ≠ 0x12) (hr : m.toNat = (2 ^ len - 1) * 2 ^ lo) :
    illegalWord w = !decide (w.extractLsb' lo len = 0) := by
  simp [illegalWord, opOf_eq_opField, hop, hm, hop', and_eq_zero_iff_of_range w lo len hr]

/-- A sub-format that asks for the unused bits of its op to be zero accepts exactly the legal words of that op. -/
theorem requireZero_isOk {w m : Word} {ok : Bool} {op : Nat} {i : Instr} (lo len : Nat) (hop : (opField w).toNat = op)
    (hm : mustBeZero op = some m) (hop' : op ≠ 0x12) (hr : m.toNat = (2 ^ len - 1) * 2 ^ lo)
    (hok : ok = true ↔ w.extractLsb' lo len = 0) : (requireZero ok i).isOk = !illegalWord w := by
  have hok' : ok = decide (w.extractLsb' lo len = 0) := Bool.eq_iff_iff.2 (hok.trans decide_eq_true_iff.symm)
  rw [illegalWord_eq lo len hop hm hop' hr, Bool.not_not, ← hok']
  cases ok <;> rfl

theorem immField_zero_iff (w : Word) {lo len : Nat} (h : lo + len ≤ 14) :
    decide ((immField w).extractLsb' lo len = 0) = true ↔ w.extractLsb' lo len = 0 := by
  rw [decide_eq_true_iff, immField_extractLsb' w h]

/-- An unused fb lengthens the unused range of the immediate below it. -/
theorem fbField_and_zero_iff {w : Word} {b : Bool} (lo len : Nat) (h : lo + len = 14)
    (hb : b = true ↔ w.extractLsb' lo len = 0) :
    (decide (fbField w = 0) && b) = true ↔ w.extractLsb' lo (4 + len) = 0 := by
  rw [extractLsb'_add_eq_zero_iff, h, ← hb, Bool.and_eq_true, decide_eq_true_iff]
  rfl

theorem decodeVldc_isOk {w : Word} (hop : (opField w).toNat = 0x12) : (decodeVldc w).isOk = !illegalWord w := by
  have hz : w &&& 0x003FFFE0#32 = 0#32 ↔ faField w = 0 ∧ fbField w = 0 ∧ (immField w).extractLsb' 5 9 = 0 := by
    rw [and_eq_zero_iff_of_range w 5 (4 + (4 + 9)) rfl, extractLsb'_add_eq_zero_iff, extractLsb'_add_eq_zero_iff,
      immField_extractLsb' w (by decide)]
    rfl
  have he : (immField w).extractLsb' 0 5 = BitVec.ofNat 5 w.toNat := by
    rw [immField_extractLsb' w (by decide)]
    rfl
  have hm : mustBeZero 0x12 = some 0x003FFFE0#32 := rfl
  simp only [illegalWord, opOf_eq_opField, hop, hm, ne_eq, hz, decodeVldc, he]
  split_ifs <;> simp_all [Except.isOk, Except.toBool]

theorem decode_isOk (w : Word) : (decode w).isOk = !illegalWord w := by
  unfold decode
  split
  -- three registers (R3, R3K, R3M)
  case h_1 hop | h_4 hop | h_13 hop | h_14 hop =>
    exact requireZero_isOk 0 14 hop rfl (by decide) rfl decide_eq_true_iff
  case h_2 hop => exact requireZero_isOk 1 13 hop rfl (by decide) rfl (immField_zero_iff w (by decide))
  case h_8 hop => exact requireZero_isOk 4 10 hop rfl (by decide) rfl (immField_zero_iff w (by decide))
  -- two registers (R2, R2KM, R2K, R2S)
  case h_5 hop | h_12 hop | h_15 hop | h_16 hop =>
    exact requireZero_isOk 0 18 hop rfl (by decide) rfl (fbField_and_zero_iff 0 14 rfl decide_eq_true_iff)
  case h_3 hop =>
    exact requireZero_isOk 5 13 hop rfl (by decide) rfl
      (fbField_and_zero_iff 5 9 rfl (immField_zero_iff w (by decide)))
  case h_6 hop =>
    exact requireZero_isOk 1 17 hop rfl (by decide) rfl
      (fbField_and_zero_iff 1 13 rfl (immField_zero_iff w (by decide)))
  case h_7 hop =>
    exact requireZero_isOk 8 10 hop rfl (by decide) rfl
      (fbField_and_zero_iff 8 6 rfl (immField_zero_iff w (by decide)))
  -- format M
  case h_9 hop | h_10 hop => exact requireZero_isOk 16 6 hop rfl (by decide) rfl decide_eq_true_iff
  -- VLDC
  case h_11 hop => exact decodeVldc_isOk hop
  -- a reserved op
  case h_17 =>
    have hm : mustBeZero (opOf w) = none := mustBeZero_eq_none (by rw [opOf_eq_opField]; simp_all)
    simp only [illegalWord, hm]
    rfl

theorem illegalWord_of_decode_error {w : Word} {e : Reject} (h : decode w = .error e) : illegalWord w = true := by
  simpa [h, Except.isOk, Except.toBool] using decode_isOk w

theorem not_illegalWord_of_decode_ok {w : Word} {i : Instr} (h : decode w = .ok i) : illegalWord w = false := by
  simpa [h, Except.isOk, Except.toBool] using decode_isOk w

/-! ### An accepted word is the one word of its command -/

theorem wordR_of_fields {w : Word} {op : BitVec 6} {fb : BitVec 4} {imm : BitVec 14}
    (hop : (opField w).toNat = op.toNat) (hb : fbField w = fb) (hi : immField w = imm) :
    wordR op (regBits (regOfBits (fdField w))) (regBits (regOfBits (faField w))) fb imm = w := by
  rw [regBits_regOfBits, regBits_regOfBits, ← hb, ← hi, ← BitVec.eq_of_toNat_eq hop, wordR_fields]

theorem wordM_of_fields {w : Word} {op : BitVec 6} (hop : (opField w).toNat = op.toNat) (hz : zeroField w = 0) :
    wordM op (regBits (regOfBits (fdField w))) (addrField w) = w := by
  rw [regBits_regOfBits, ← BitVec.eq_of_toNat_eq hop, wordM_fields hz]

theorem decodeR3_ok {w : Word} {b : Bool} {mk : FReg → FReg → FReg → Instr} {i : Instr}
    (h : decodeR3 w b mk = .ok i) :
    b = true ∧ mk (regOfBits (fdField w)) (regOfBits (faField w)) (regOfBits (fbField w)) = i := requireZero_ok.1 h

theorem decodeR2_ok {w : Word} {b : Bool} {mk : FReg → FReg → Instr} {i : Instr} (h : decodeR2 w b mk = .ok i) :
    fbField w = 0 ∧ b = true ∧ mk (regOfBits (fdField w)) (regOfBits (faField w)) = i := by
  obtain ⟨hz, hi⟩ := requireZero_ok.1 h
  obtain ⟨hfb, hb⟩ := Bool.and_eq_true_iff.1 hz
  exact ⟨of_decide_eq_true hfb, hb, hi⟩

theorem decodeM_ok {w : Word} {mk : FReg → BitVec 16 → Instr} {i : Instr} (h : decodeM w mk = .ok i) :
    zeroField w = 0 ∧ mk (regOfBits (fdField w)) (addrField w) = i := by
  obtain ⟨hz, hi⟩ := requireZero_ok.1 h
  exact ⟨of_decide_eq_true hz, hi⟩

theorem decodeVldc_ok {w : Word} {i : Instr} (h : decodeVldc w = .ok i) :
    (faField w = 0 ∧ fbField w = 0 ∧ (immField w).extractLsb' 5 9 = 0) ∧
      romPopulated ((immField w).extractLsb' 0 5) = true ∧
      .vldc (regOfBits (fdField w)) ((immField w).extractLsb' 0 5) = i := by
  unfold decodeVldc at h
  split_ifs at h with hz hp
  exact ⟨hz, hp, Except.ok.inj h⟩

/-- What the decoder accepts is a legal command, and the word is the one that spells it. -/
theorem encode_of_decode {w : Word} {i : Instr} (h : decode w = .ok i) : encode i = w ∧ i.wellFormed = true := by
  unfold decode at h
  split at h
  -- no immediate
  case h_1 hop | h_4 hop | h_13 hop | h_14 hop =>
    obtain ⟨hz, rfl⟩ := decodeR3_ok h
    exact ⟨wordR_of_fields hop (regBits_regOfBits _).symm (of_decide_eq_true hz), rfl⟩
  case h_5 hop | h_12 hop | h_15 hop | h_16 hop =>
    obtain ⟨hb, hz, rfl⟩ := decodeR2_ok h
    exact ⟨wordR_of_fields hop hb (of_decide_eq_true hz), rfl⟩
  -- the qualifier bit alone
  case h_2 hop =>
    obtain ⟨hz, rfl⟩ := decodeR3_ok h
    have himm := extractLsb'_of_zero_above (immField w) (lo := 0) (of_decide_eq_true hz)
    rw [BitVec.extractLsb'_eq_self] at himm
    cases hk : (immField w).getLsbD 0 <;> rw [hk] at himm <;>
      exact ⟨wordR_of_fields hop (regBits_regOfBits _).symm himm, rfl⟩
  case h_6 hop =>
    obtain ⟨hb, hz, rfl⟩ := decodeR2_ok h
    have himm := extractLsb'_of_zero_above (immField w) (lo := 0) (of_decide_eq_true hz)
    rw [BitVec.extractLsb'_eq_self] at himm
    cases hk : (immField w).getLsbD 0 <;> rw [hk] at himm <;> exact ⟨wordR_of_fields hop hb himm, rfl⟩
  -- the qualifier bit above a mask
  case h_3 hop =>
    obtain ⟨hb, hz, rfl⟩ := decodeR2_ok h
    have himm := eq_append_extractLsb' (immField w) (hi := 10) (lo := 4) rfl
    rw [extractLsb'_of_zero_above (immField w) (lo := 4) (of_decide_eq_true hz)] at himm
    cases hk : (immField w).getLsbD 4 <;> rw [hk] at himm <;> exact ⟨wordR_of_fields hop hb himm, rfl⟩
  -- a selector, a mask, a ROM index
  case h_7 hop =>
    obtain ⟨hb, hz, rfl⟩ := decodeR2_ok h
    have himm := eq_append_extractLsb' (immField w) (hi := 6) (lo := 8) rfl
    rw [of_decide_eq_true hz] at himm
    exact ⟨wordR_of_fields hop hb himm, rfl⟩
  case h_8 hop =>
    obtain ⟨hz, rfl⟩ := decodeR3_ok h
    have himm := eq_append_extractLsb' (immField w) (hi := 10) (lo := 4) rfl
    rw [of_decide_eq_true hz] at himm
    exact ⟨wordR_of_fields hop (regBits_regOfBits _).symm himm, rfl⟩
  case h_11 hop =>
    obtain ⟨⟨ha, hb, hz⟩, hp, rfl⟩ := decodeVldc_ok h
    have himm := eq_append_extractLsb' (immField w) (hi := 9) (lo := 5) rfl
    rw [hz] at himm
    have hw := wordR_of_fields (op := 0x12#6) hop hb himm
    rw [ha] at hw
    exact ⟨hw, hp⟩
  -- format M
  case h_9 hop | h_10 hop =>
    obtain ⟨hz, rfl⟩ := decodeM_ok h
    exact ⟨wordM_of_fields hop hz, rfl⟩
  case h_17 => cases h

/-! ### The address range (20_memory.md R54) -/

theorem rangeViolation_wordM (c : Config) {op : BitVec 6} (fr : BitVec 4) (addr : BitVec 16)
    (hop : op = 0x10#6 ∨ op = 0x11#6) :
    rangeViolation c (wordM op fr addr) = decide (c.lmWords < addr.toNat + 40) := by
  have haddr : (wordM op fr addr).toNat % 2 ^ 16 = addr.toNat := by rw [← addrField_toNat, addrField_wordM]
  rw [rangeViolation, haddr, opOf_eq_opField, opField_wordM]
  rcases hop with rfl | rfl <;> rfl

theorem rangeViolation_encode_iff {c : Config} {i : Instr} :
    rangeViolation c (encode i) = true ↔
      ∃ fr addr, (i = .vld fr addr ∨ i = .vst fr addr) ∧ c.lmWords < addr.toNat + 40 := by
  cases i with
  | vld fr addr => simp [encode, rangeViolation_wordM]
  | vst fr addr => simp [encode, rangeViolation_wordM]
  | _ => simp [rangeViolation, opOf_eq_opField, encode]

theorem inRange_eq_false_iff {s : State} {addr : BitVec 16} :
    s.inRange addr = false ↔ s.cfg.lmWords < addr.toNat + 40 := by
  simp [State.inRange]

/-! ### A command faults or completes -/

theorem exec_of_rangeViolation {i : Instr} {s : State} (h : rangeViolation s.cfg (encode i) = true) :
    exec i s = .next (s.takeFault causeAddressRange (encode i)) := by
  obtain ⟨fr, addr, rfl | rfl, hlt⟩ := rangeViolation_encode_iff.1 h
  · simp [exec, execVld, inRange_eq_false_iff.2 hlt, State.raiseAddressRange]
  · simp [exec, execVst, inRange_eq_false_iff.2 hlt, State.raiseAddressRange]

/-- A legal command whose words exist completes: pc grows by one and the fault registers are kept. -/
theorem exec_completes {i : Instr} {s : State} (hw : i.wellFormed = true)
    (hr : rangeViolation s.cfg (encode i) = false) :
    ∃ t, exec i s = .next t ∧ keptFaultRegisters s t ∧ keptSetting s t ∧ t.pc = s.pc + 1#32 := by
  obtain ⟨t, ht⟩ := exec_answers_next i s
  refine ⟨t, ht, ?_⟩
  obtain ⟨fd, v, rfl⟩ | ⟨fr, addr, -, -, rfl⟩ | ⟨fr, addr, hi, ha, -⟩ | ⟨hw', -⟩ := exec_cases ht
  · simp [keptFaultRegisters, keptSetting]
  · simp [keptFaultRegisters, keptSetting]
  · have hr' := rangeViolation_encode_iff.2 ⟨fr, addr, hi, inRange_eq_false_iff.1 ha⟩
    simp [hr] at hr'
  · simp [hw] at hw'

theorem runCommand_of_faulted {s : State} (cw : Word) (hf : s.faulted = true) : s.runCommand cw = .next s := by
  simp [State.runCommand, hf]

/-- A faulting word takes its fault, decoding first (R202, R203). -/
theorem runCommand_of_faultingWord {s : State} {cw : Word} (hf : s.faulted = false)
    (h : faultingWord s.cfg cw = true) : s.runCommand cw = .next (s.takeFault (causeOf cw) cw) := by
  cases hd : decode cw with
  | error e =>
    simp [State.runCommand, hf, hd, State.raiseIllegalCommand, causeOf, illegalWord_of_decode_error hd,
      causeIllegalCommand]
  | ok i =>
    obtain ⟨rfl, -⟩ := encode_of_decode hd
    have hl := not_illegalWord_of_decode_ok hd
    have hr : rangeViolation s.cfg (encode i) = true := by simpa [faultingWord, hl] using h
    simp [State.runCommand, hf, hd, exec_of_rangeViolation hr, causeOf, hl, causeAddressRange]

theorem runCommand_of_not_faultingWord {s : State} {cw : Word} (hf : s.faulted = false)
    (h : faultingWord s.cfg cw = false) :
    ∃ t, s.runCommand cw = .next t ∧ keptFaultRegisters s t ∧ keptSetting s t ∧ t.pc = s.pc + 1#32 := by
  obtain ⟨hl, hr⟩ := Bool.or_eq_false_iff.1 h
  cases hd : decode cw with
  | error e => simp [illegalWord_of_decode_error hd] at hl
  | ok i =>
    obtain ⟨rfl, hw⟩ := encode_of_decode hd
    simpa [State.runCommand, hf, hd] using exec_completes hw hr

end Sys2Proof.Machine
end

section
/-! PROOFS. The state of the unit (10_state.md R22, R27, R28, R35): pc over a run of issued words, the status port, the
lane layout, and the values after reset. -/

namespace Sys2Proof.Machine

/-! ### Runs of issued words -/

theorem run_succ {s t : State} (k : Nat) (h : step s = .next t) :
    Host.Core.run core (k + 1) s = Host.Core.run core k t := by
  simp [Host.Core.run, core, h]

theorem run_succ_issue {s t : State} {cw : Word} {rest : List HostMove} (k : Nat) (hp : s.port = .issue cw :: rest)
    (h : State.runCommand { s with port := rest } cw = .next t) :
    Host.Core.run core (k + 1) s = Host.Core.run core k t := run_succ k ((step_of_port hp).trans h)

/-- A faulted unit discards every word (60_exceptions.md R204). -/
theorem run_of_faulted (ws : List Word) {s : State} (hf : s.faulted = true) (hp : s.port = ws.map HostMove.issue) :
    Host.Core.run core ws.length s = .next { s with port := [] } := by
  induction ws generalizing s with
  | nil =>
    rw [← show s.port = [] from hp]
    rfl
  | cons w ws ih => exact (run_succ_issue _ hp (runCommand_of_faulted w hf)).trans (ih hf rfl)

theorem run_of_issue (ws : List Word) {s : State} (hf : s.faulted = false) (hp : s.port = ws.map HostMove.issue) :
    ∃ t, Host.Core.run core ws.length s = .next t ∧ t.port = [] ∧
      t.pc = s.pc + BitVec.ofNat 32 (ws.takeWhile fun w => !faultingWord s.cfg w).length ∧
      t.faulted = ws.any (faultingWord s.cfg) ∧
      ∀ w, ws.find? (faultingWord s.cfg) = some w → t.cause = causeOf w ∧ t.finfo = w := by
  induction ws generalizing s with
  | nil => exact ⟨s, rfl, hp, by simp, hf, by simp⟩
  | cons w ws ih =>
    cases hw : faultingWord s.cfg w with
    | true =>
      have hrun := runCommand_of_faultingWord (s := { s with port := ws.map .issue }) hf hw
      refine ⟨_, (run_succ_issue _ hp hrun).trans (run_of_faulted ws (takeFault_faulted ..) rfl), rfl, ?_, ?_, ?_⟩
      · simp [hw]
      · rw [List.any_cons, hw, Bool.true_or]
        exact takeFault_faulted s (causeOf w) w
      · simp [hw]
    | false =>
      obtain ⟨u, hrun, ⟨hs, -, -⟩, ⟨hc, hup⟩, hpc⟩ :=
        runCommand_of_not_faultingWord (s := { s with port := ws.map .issue }) hf hw
      obtain ⟨t, ht, htp, htpc, htf, hfirst⟩ := ih (s := u) (by simpa [State.faulted, hs] using hf) hup
      refine ⟨t, (run_succ_issue _ hp hrun).trans ht, htp, ?_, ?_, ?_⟩
      · rw [htpc, hpc, hc]
        simp [hw, BitVec.add_assoc, BitVec.ofNat_add, BitVec.add_comm 1#32]
      · simpa [hw, hc] using htf
      · simpa [hw, hc] using hfirst

/-- Settles O16, by induction on the issued words: one that does not fault adds one to pc, the first that faults leaves
its cause and itself behind, and the faulted unit discards the rest. -/
theorem pcCountsCompletedCommands : Obligations.PcCountsCompletedCommands :=
  ⟨fun _ => rfl, fun ws _ hf hp => run_of_issue ws hf hp⟩

/-! ### The status port -/

theorem and_faultBit (w : Word) : w &&& faultBit = if w.getLsbD 0 then 1#32 else 0#32 := by
  rw [faultBit, BitVec.and_one_eq_setWidth_ofBool_getLsbD]
  cases w.getLsbD 0 <;> rfl

theorem eq_hostStore_of_perform {s t : State} {a : Nat} {v : Word} (h : s.perform (.writeLm a v) = .next t) :
    t = s.hostStore a v := by
  rw [State.perform] at h
  split_ifs at h
  exact (Host.Outcome.next.inj h).symm

/-- No command reads pc, STATUS, CAUSE or FINFO: whatever they hold, it leaves the same registers and memory. -/
theorem exec_other_status {i : Instr} {s t : State} (pc status cause finfo : Word) (h : exec i s = .next t) :
    ∃ t', exec i { s with pc := pc, status := status, cause := cause, finfo := finfo } = .next t' ∧
      t'.f = t.f ∧ t'.written = t.written ∧ t'.lm = t.lm := by
  cases i with
  | vld fr addr =>
    rw [exec, execVld] at h
    split_ifs at h with hr
    · obtain rfl := retire_eq_next.1 h
      exact ⟨_, if_pos hr, rfl, rfl, rfl⟩
    · obtain rfl := raiseAddressRange_eq_next.1 h
      exact ⟨_, if_neg hr, rfl, rfl, rfl⟩
  | vst fr addr =>
    rw [exec, execVst] at h
    split_ifs at h with hr
    · obtain rfl := Host.Outcome.next.inj h
      exact ⟨_, if_pos hr, rfl, rfl, rfl⟩
    · obtain rfl := raiseAddressRange_eq_next.1 h
      exact ⟨_, if_neg hr, rfl, rfl, rfl⟩
  | vldc fd e =>
    rw [exec, execVldc] at h ⊢
    cases hr : rom e with
    | some v =>
      rw [hr] at h
      obtain rfl := retire_eq_next.1 h
      exact ⟨_, rfl, rfl, rfl, rfl⟩
    | none =>
      rw [hr] at h
      obtain rfl := raiseIllegalCommand_eq_next.1 h
      exact ⟨_, rfl, rfl, rfl, rfl⟩
  | _ =>
    obtain rfl := retire_eq_next.1 h
    exact ⟨_, rfl, rfl, rfl, rfl⟩

/-- Settles O19: STATUS reads as FAULT alone, a memory write keeps the four registers, and no command looks at them. -/
theorem statusRegistersAreHostReadOnly : Obligations.StatusRegistersAreHostReadOnly := by
  refine ⟨fun s => ⟨and_faultBit s.status, rfl, rfl, rfl⟩, fun _ _ _ => rfl, ?_,
    fun _ _ _ pc status cause finfo h => exec_other_status pc status cause finfo h⟩
  intro s t a v n h
  rw [eq_hostStore_of_perform h]
  rfl

/-! ### The lane layout (R22) -/

@[simp] theorem laneSlot_limbLane (sl : Slot) (i : Fin 10) : laneSlot (limbLane sl i) = sl := by
  cases sl <;> revert i <;> decide

@[simp] theorem laneLimb_limbLane (sl : Slot) (i : Fin 10) : laneLimb (limbVector i) (limbLane sl i) = i := by
  cases sl <;> revert i <;> decide

@[simp] theorem limbVector_laneLimb (j : Fin 5) (n : Fin 8) : limbVector (laneLimb j n) = j := by
  revert j n
  decide

@[simp] theorem limbLane_laneLimb (j : Fin 5) (n : Fin 8) : limbLane (laneSlot n) (laneLimb j n) = n := by
  revert j n
  decide

theorem limb_eq_lane (v : Vfe) (sl : Slot) (i : Fin 10) :
    v.limb sl i = Lanes.lane v (limbVector i) (limbLane sl i) := by
  simp [Lanes.lane]

theorem ofLanes_lane (v : Vfe) : Lanes.ofLanes (Lanes.lane v) = v :=
  Vfe.ext_limb fun sl i => by simp [Lanes.ofLanes, ← limb_eq_lane]

theorem lane_ofLanes (lane : Fin 5 → Fin 8 → Word) : Lanes.lane (Lanes.ofLanes lane) = lane := by
  funext j n
  simp [Lanes.lane, Lanes.ofLanes]

/-! The positions as R22 writes them, where the remainder never applies. -/

theorem limbVector_eq_ofNat (i : Fin 10) : limbVector i = Fin.ofNat 5 (i.val / 2) :=
  Fin.ext (Nat.mod_eq_of_lt (limbVector i).isLt).symm

theorem limbLane_eq_ofNat (sl : Slot) (i : Fin 10) :
    limbLane sl i = Fin.ofNat 8 (sl.code % 2 + 2 * (i.val % 2) + 4 * (sl.code / 2)) :=
  Fin.ext (Nat.mod_eq_of_lt (limbLane sl i).isLt).symm

theorem laneLimb_eq_ofNat (j : Fin 5) (n : Fin 8) : laneLimb j n = Fin.ofNat 10 (2 * j.val + (lanePar n).val) :=
  Fin.ext (Nat.mod_eq_of_lt (laneLimb j n).isLt).symm

/-- Settles O44: the position of a limb and the contents of a lane are inverse to each other, so the two views are. -/
theorem laneLayoutIsTheBijection : Obligations.LaneLayoutIsTheBijection := by
  refine ⟨fun v j => ?_, fun v sl i => ?_, ofLanes_lane, lane_ofLanes⟩
  · have hlane : Lanes.lane v j = fun n => v.limb (laneSlot n) (Fin.ofNat 10 (2 * j.val + (lanePar n).val)) :=
      funext fun n => by rw [Lanes.lane, laneLimb_eq_ofNat]
    rw [Lanes.vec, hlane]
    rfl
  · rw [← limbVector_eq_ofNat, ← limbLane_eq_ofNat, limb_eq_lane]

/-! ### Reset (R35) -/

theorem applyReset_written_get (s : State) (r : FReg) : s.applyReset.written.get r = false := by
  simp [Vector.get_eq_getElem]

@[simp] theorem powerOn_faulted (c : Config) : (State.powerOn c).faulted = false :=
  BitVec.getLsbD_zero

/-- Settles O13: a later reset leaves the registers that power-on leaves. -/
theorem resetStateHasTheSpecValues : Obligations.ResetStateHasTheSpecValues :=
  ⟨rfl, fun c => ⟨rfl, rfl, powerOn_faulted c, rfl, rfl, applyReset_written_get (.powerOn c), fun _ => rfl, rfl,
    fun s => ⟨s.applyReset, rfl, rfl, rfl, rfl, rfl, applyReset_written_get s, fun _ => rfl⟩⟩⟩

end Sys2Proof.Machine
end

section
/-! PROOFS. The encoding (30_encoding.md R75, R78, R80, R81): the decoder is the match and mask table of 19 rows, an
illegal word takes the fault and does nothing else, and the words of the pseudo-commands and of the worked table. -/

namespace Sys2Proof.Machine

/-! ### Illegal words (R78) -/

theorem decode_error_iff {w : Word} : (∃ e, decode w = .error e) ↔ illegalWord w = true := by
  refine ⟨fun ⟨_, h⟩ => illegalWord_of_decode_error h, fun h => ?_⟩
  cases hd : decode w with
  | error e => exact ⟨e, rfl⟩
  | ok i => simp [not_illegalWord_of_decode_ok hd] at h

theorem decode_ok_iff {w : Word} : (∃ i, decode w = .ok i) ↔ illegalWord w = false := by
  refine ⟨fun ⟨_, h⟩ => not_illegalWord_of_decode_ok h, fun h => ?_⟩
  cases hd : decode w with
  | error e => simp [illegalWord_of_decode_error hd] at h
  | ok i => exact ⟨i, rfl⟩

theorem takeFault_entersFault (s : State) (c cw : Word) : entersFault c cw s (s.takeFault c cw) := by
  have hstatus (n : Nat) (hn : 0 < n) : (s.takeFault c cw).status.getLsbD n = s.status.getLsbD n := by
    have hbit : faultBit.getLsbD n = false := by simp [faultBit, hn.ne']
    rw [takeFault_status, BitVec.getLsbD_or, hbit, Bool.or_false]
  exact ⟨rfl, rfl, takeFault_faulted s c cw, hstatus, rfl, fun _ => ⟨rfl, rfl⟩, fun _ => rfl, rfl, rfl⟩

theorem runCommand_of_illegalWord {s : State} {w : Word} (hf : s.faulted = false) (h : illegalWord w = true) :
    s.runCommand w = .next (s.takeFault causeIllegalCommand w) := by
  obtain ⟨e, he⟩ := decode_error_iff.2 h
  simp [State.runCommand, hf, he, State.raiseIllegalCommand]

/-- Settles O4: the decoder rejects exactly the illegal words, and what it rejects enters the fault with cause 1. -/
theorem illegalWordsRaiseIllegalCommand : Obligations.IllegalWordsRaiseIllegalCommand := fun w =>
  ⟨decode_error_iff, fun h s hf => ⟨_, runCommand_of_illegalWord hf h, takeFault_entersFault s causeIllegalCommand w⟩⟩

/-! ### The rows of the opcode table (R75) -/

theorem matches_iff {r : Row} {w : Word} : r.matches w = true ↔ w &&& r.mask = r.pat := decide_eq_true_iff

/-- Two rows differ in a bit that both of them compare. -/
theorem eq_of_pat_and_mask :
    ∀ r ∈ opcodeRows, ∀ r' ∈ opcodeRows, r.pat &&& r'.mask = r'.pat &&& r.mask → r = r' := by
  decide +kernel

theorem row_unique {w : Word} {r r' : Row} (hr : r ∈ opcodeRows) (hr' : r' ∈ opcodeRows) (h : r.matches w = true)
    (h' : r'.matches w = true) : r = r' := by
  refine eq_of_pat_and_mask r hr r' hr' ?_
  rw [← matches_iff.1 h, ← matches_iff.1 h', BitVec.and_assoc, BitVec.and_comm r.mask, ← BitVec.and_assoc]

/-- Every row compares the whole op. -/
theorem opField_mask : ∀ r ∈ opcodeRows, opField r.mask = BitVec.allOnes 6 := by decide

theorem opField_pat_iff : ∀ r ∈ opcodeRows, (opField r.pat).toNat = 0x12 ↔ r.name = "VLDC" := by decide

/-- Every row compares, with zero, all the bits that must be zero for its op. -/
theorem mustBeZero_pat : ∀ r ∈ opcodeRows,
    ((mustBeZero (opField r.pat).toNat).any fun m => decide (r.mask &&& m = m ∧ r.pat &&& m = 0#32)) = true := by
  decide

theorem opField_and (w m : Word) : opField (w &&& m) = opField w &&& opField m := BitVec.extractLsb'_and

theorem opField_of_matches {w : Word} {r : Row} (hr : r ∈ opcodeRows) (h : r.matches w = true) :
    opField w = opField r.pat := by
  rw [← matches_iff.1 h, opField_and, opField_mask r hr, BitVec.and_allOnes]

/-- A word that matches a row is illegal in one way only: it is VLDC of a reserved index. -/
theorem illegalWord_eq_false_iff_of_matches {w : Word} {r : Row} (hr : r ∈ opcodeRows) (h : r.matches w = true) :
    illegalWord w = false ↔ (r.name = "VLDC" → romPopulated (w.extractLsb' 0 5) = true) := by
  obtain ⟨m, hm, hrow⟩ := (Option.any_eq_true _ _).1 (mustBeZero_pat r hr)
  obtain ⟨hmask, hpat⟩ := of_decide_eq_true hrow
  have hunused : w &&& m = 0#32 := by rw [← hmask, ← BitVec.and_assoc, matches_iff.1 h, hpat]
  have hindex : BitVec.ofNat 5 w.toNat = w.extractLsb' 0 5 := rfl
  simp [illegalWord, opOf_eq_opField, opField_of_matches hr h, hm, hunused, hindex, opField_pat_iff r hr]

/-- A command's word matches the row of its mnemonic. -/
theorem encode_matches_row (i : Instr) : Laws.RowBits.Statement i := by
  cases i with
  | vadd fd fa fb => exact Laws.RowBits.vadd fd fa fb
  | vsubP2 fd fa fb => exact Laws.RowBits.vsubP2 fd fa fb
  | vsubP16 fd fa fb => exact Laws.RowBits.vsubP16 fd fa fb
  | vnegP2 fd fa m => exact Laws.RowBits.vnegP2 fd fa m
  | vnegP16 fd fa m => exact Laws.RowBits.vnegP16 fd fa m
  | vmul fd fa fb => exact Laws.RowBits.vmul fd fa fb
  | vsq fd fa => exact Laws.RowBits.vsq fd fa
  | vredL fd fa => exact Laws.RowBits.vredL fd fa
  | vredF fd fa => exact Laws.RowBits.vredF fd fa
  | vshuf fd fa sel => exact Laws.RowBits.vshuf fd fa sel
  | vblend fd fa fb m => exact Laws.RowBits.vblend fd fa fb m
  | vld fr addr => exact Laws.RowBits.vld fr addr
  | vst fr addr => exact Laws.RowBits.vst fr addr
  | vldc fd e => exact Laws.RowBits.vldc fd e
  | pdbl fd fa => exact Laws.RowBits.pdbl fd fa
  | padd fd fa fb => exact Laws.RowBits.padd fd fa fb
  | paddc fd fa fc => exact Laws.RowBits.paddc fd fa fc
  | pcache fd fa => exact Laws.RowBits.pcache fd fa
  | pneg fd fa => exact Laws.RowBits.pneg fd fa

/-- An accepted word matches the row of the mnemonic it decodes to. -/
theorem row_of_decode {w : Word} {i : Instr} (h : decode w = .ok i) :
    ∃ r ∈ opcodeRows, r.name = i.name ∧ r.matches w = true := by
  rw [← (encode_of_decode h).1]
  exact encode_matches_row i

/-- Settles O3: an accepted word matches the row of its command, and no other; a word that matches a row is accepted
unless it is VLDC of a reserved index. -/
theorem decoderIsTheOpcodeTable : Obligations.DecoderIsTheOpcodeTable := by
  refine ⟨rfl, fun _ _ _ hr hr' h h' => row_unique hr hr' h h', fun w name => ⟨?_, ?_⟩⟩
  · rintro ⟨i, hi, rfl⟩
    obtain ⟨r, hr, hname, hrow⟩ := row_of_decode hi
    have hpop := (illegalWord_eq_false_iff_of_matches hr hrow).1 (decode_ok_iff.1 ⟨i, hi⟩)
    exact ⟨⟨r, hr, hname, hrow⟩, hname ▸ hpop⟩
  · rintro ⟨⟨r, hr, rfl, hrow⟩, hpop⟩
    obtain ⟨i, hi⟩ := decode_ok_iff.2 ((illegalWord_eq_false_iff_of_matches hr hrow).2 hpop)
    obtain ⟨r', hr', hname, hrow'⟩ := row_of_decode hi
    exact ⟨i, hi, by rw [← hname, row_unique hr' hr hrow' hrow]⟩

/-! ### Pseudo-commands (R80) -/

theorem toNat_append_eq_mul_add {m n : Nat} (x : BitVec m) (y : BitVec n) :
    (x ++ y).toNat = x.toNat * 2 ^ n + y.toNat := by
  rw [BitVec.toNat_append, ← Nat.shiftLeft_add_eq_or_of_lt y.isLt, Nat.shiftLeft_eq]

theorem regBits_toNat (r : FReg) : (regBits r).toNat = r.val := Nat.mod_eq_of_lt r.isLt

/-- A format R word as the sum of its fields at their places. -/
theorem wordR_eq_ofNat (op : BitVec 6) (fd fa fb : BitVec 4) (imm : BitVec 14) :
    wordR op fd fa fb imm =
      BitVec.ofNat 32 (op.toNat * 2 ^ 26 + fd.toNat * 2 ^ 22 + fa.toNat * 2 ^ 18 + fb.toNat * 2 ^ 14 + imm.toNat) := by
  apply BitVec.eq_of_toNat_eq
  simp only [wordR, toNat_append_eq_mul_add, BitVec.toNat_ofNat]
  omega

theorem encode_vshuf (fd fa : FReg) (sel : BitVec 8) :
    encode (.vshuf fd fa sel) = BitVec.ofNat 32 (0x20000000 + fd.val * 2 ^ 22 + fa.val * 2 ^ 18 + sel.toNat) := by
  rw [encode, wordR_eq_ofNat, toNat_append_eq_mul_add, regBits_toNat, regBits_toNat]
  simp

theorem encode_vldc (fd : FReg) (e : BitVec 5) :
    encode (.vldc fd e) = BitVec.ofNat 32 (0x48000000 + e.toNat + fd.val * 2 ^ 22) := by
  rw [encode, wordR_eq_ofNat, toNat_append_eq_mul_add, regBits_toNat]
  apply congrArg
  simp only [BitVec.toNat_ofNat]
  omega

/-- VLDC of entry i of a table of eight that starts at index b of the ROM. -/
theorem encode_vldc_table (fd : FReg) {b : Nat} (hb : b + 8 ≤ 32) (i : Fin 8) :
    encode (.vldc fd (BitVec.ofNat 5 b + BitVec.ofNat 5 i.val)) =
      BitVec.ofNat 32 (0x48000000 + b + fd.val * 2 ^ 22 + i.val) := by
  have he : (BitVec.ofNat 5 b + BitVec.ofNat 5 i.val).toNat = b + i.val := by
    rw [← BitVec.ofNat_add, BitVec.toNat_ofNat]
    omega
  rw [encode_vldc, he]
  apply congrArg
  omega

theorem romPopulated_table : ∀ i : Fin 8,
    romPopulated (8#5 + BitVec.ofNat 5 i.val) = true ∧ romPopulated (16#5 + BitVec.ofNat 5 i.val) = true := by
  decide

theorem expand_wellFormed (p : Pseudo) : p.expand.wellFormed = true := by
  cases p with
  | vmov fd fa | vzero fd | vone fd | pident fd => rfl
  | plut fd i => exact (romPopulated_table i).1
  | plutc fd i => exact (romPopulated_table i).2

theorem vshufFn_identity (x : Vfe) : vshufFn x 0xE4#8 = x := rfl

theorem exec_vmov (fd fa : FReg) (s : State) : exec (Pseudo.expand (.vmov fd fa)) s = s.retire fd (s.field fa) := by
  rw [Pseudo.expand, exec, execVshuf, vshufFn_identity]

theorem retire_retires (s : State) (fd : FReg) (v : Vfe) : ∃ t, s.retire fd v = .next t ∧ retires fd v s t :=
  ⟨_, rfl, writeField_written_self s fd v, writeField_f_self s fd v,
    fun _ hr => ⟨writeField_f_ne s v hr, writeField_written_ne s v hr⟩, fun _ => rfl, ⟨rfl, rfl, rfl⟩, ⟨rfl, rfl⟩, rfl⟩

/-- Settles O6: the words by the sum of their fields; VMOV Fd, Fd shuffles each slot to its own place. -/
theorem pseudoCommandWords : Obligations.PseudoCommandWords := by
  refine ⟨expand_wellFormed, fun d a => encode_vshuf d a 0xE4#8, fun d => encode_vldc d 0#5, fun d => encode_vldc d 1#5,
    fun d => encode_vldc d 5#5, fun d => encode_vldc_table d (by decide), fun d => encode_vldc_table d (by decide),
    fun d s => ?_⟩
  rw [exec_vmov]
  exact retire_retires s d (s.field d)

/-! ### The worked encodings (R81) -/

/-- Settles O5, by running the decoder and the assembler on each of the 14 words and lines. -/
theorem workedEncodingsDecode : Obligations.WorkedEncodingsDecode := by
  unfold Obligations.WorkedEncodingsDecode
  and_intros <;> decide

end Sys2Proof.Machine
end

section
/-! PROOFS. The field commands without a multiplier (40_field_ops.md R102 to R104): each lane result as an exact number,
and from the lanes the value and the field element of a slot. -/

namespace Sys2Proof.Machine

/-! ### Values and field elements -/

theorem fe_eq_iff {x y : LimbVec} : fe x = fe y ↔ val x % prime = val y % prime := ZMod.natCast_eq_natCast_iff' _ _ _

/-- A whole multiple of p in the value is nothing in the field. -/
theorem fe_of_val_add_mul_prime {x y : LimbVec} {k : Nat} (h : val x + k * prime = val y) : fe x = fe y := by
  rw [fe_eq_iff, ← h, Nat.add_mul_mod_self_right]

theorem fe_multiple {k : Nat} (hk : k ≤ 64) : fe (multiple k) = 0 := by
  rw [fe, val_multiple hk, Nat.cast_mul, ZMod.natCast_self, mul_zero]

/-- canon takes the number mod p, so it sees the field element only. -/
theorem canon_eq_canon_iff {m n : Nat} : canon m = canon n ↔ (m : ZMod prime) = n := by
  rw [eq_canon_iff, val_canon, ZMod.natCast_eq_natCast_iff']
  refine ⟨fun h => ?_, fun h => ⟨canon_withinMasks m, ?_⟩⟩
  · exact_mod_cast h.2
  · exact_mod_cast h

theorem isCanon_canon (n : Int) : isCanon (canon n) := isCanon_iff.2 ⟨canon_withinMasks n, val_canon_lt n⟩

/-! ### VADD (R102) -/

theorem addSlot_get_toNat {x y : LimbVec} (h : addFits x y) (i : Fin 10) :
    ((addSlot x y).get i).toNat = (x.get i).toNat + (y.get i).toNat := by
  rw [addSlot_get, BitVec.toNat_add_of_lt (h i)]

theorem val_addSlot {x y : LimbVec} (h : addFits x y) : val (addSlot x y) = val x + val y := by
  simp only [val_eq_sum, addSlot_get_toNat h, add_mul, Finset.sum_add_distrib]

theorem fe_addSlot {x y : LimbVec} (h : addFits x y) : fe (addSlot x y) = fe x + fe y := by
  rw [fe, val_addSlot h, Nat.cast_add, fe, fe]

theorem addFits_comm {x y : LimbVec} (h : addFits x y) : addFits y x := fun i => by
  rw [Nat.add_comm]
  exact h i

/-- A sum of class-N values, limb by limb, against their number. -/
theorem limbSum_le {xs : List LimbVec} (h : ∀ x ∈ xs, isNear x) (i : Fin 10) :
    limbSum xs i ≤ xs.length * nearLimit i := by
  have hle : ∀ a ∈ xs.map (fun x => (x.get i).toNat), a ≤ nearLimit i := by
    intro a ha
    obtain ⟨x, hx, rfl⟩ := List.mem_map.1 ha
    exact (h x hx i).le
  simpa [limbSum] using List.sum_le_card_nsmul _ _ hle

theorem five_mul_nearLimit_le_wideLimit : ∀ i, 5 * nearLimit i ≤ wideLimit i := by decide

theorem isWide_addSlot {xs : List LimbVec} {x y : LimbVec} (hlen : xs.length ≤ 4) (hxs : ∀ x ∈ xs, isNear x)
    (hx : ∀ i, (x.get i).toNat = limbSum xs i) (hy : isNear y) : isWide (addSlot x y) := by
  intro i
  calc ((addSlot x y).get i).toNat
      ≤ (x.get i).toNat + (y.get i).toNat := by
        rw [addSlot_get, BitVec.toNat_add]
        exact Nat.mod_le _ _
    _ < 4 * nearLimit i + nearLimit i :=
        add_lt_add_of_le_of_lt (by rw [hx i]; exact (limbSum_le hxs i).trans (Nat.mul_le_mul_right _ hlen)) (hy i)
    _ ≤ wideLimit i := by linarith [five_mul_nearLimit_le_wideLimit i]

/-- Settles O24: where no lane wraps the values add; five class-N limbs are below the limit of class W. -/
theorem vaddAddsLimbs : Obligations.VaddAddsLimbs := by
  intro fd fa fb s
  obtain ⟨t, ht, hret⟩ := retire_retires s fd (vaddFn (s.field fa) (s.field fb))
  refine ⟨t, _, ht, hret, fun sl i => ?_, fun sl h => ?_, fun sl xs hlen hxs hx hy => ?_⟩
  · rw [Vfe.limb, vaddFn_slot, addSlot_get, BitVec.toNat_add]
    rfl
  · rw [vaddFn_slot]
    exact ⟨val_addSlot h, fe_addSlot h⟩
  · rw [vaddFn_slot]
    exact isWide_addSlot hlen hxs hx hy

/-! ### VSUB and VNEG (R103, R104) -/

theorem withinMultiple_two_of_isNear {y : LimbVec} (h : isNear y) : withinMultiple 2 y := fun i =>
  have hle : ∀ i, nearLimit i ≤ multipleLimb 2 i := by decide
  (h i).le.trans (hle i)

theorem withinMultiple_sixteen_of_isWide {y : LimbVec} (h : isWide y) : withinMultiple 16 y := fun i =>
  have hle : ∀ i, wideLimit i ≤ multipleLimb 16 i := by decide
  (h i).le.trans (hle i)

theorem subSlot_get_toInt (k : Nat) (x y : LimbVec) (i : Fin 10) :
    (((subSlot k x y).get i).toNat : Int) =
      ((x.get i).toNat + multipleLimb k i - (y.get i).toNat : Int) % 2 ^ 32 := by
  rw [subSlot_get, BitVec.toNat_sub, BitVec.toNat_add, BitVec.toNat_ofNat]
  omega

theorem negSlot_get_toInt (k : Nat) (x : LimbVec) (i : Fin 10) :
    (((negSlot k x).get i).toNat : Int) = (multipleLimb k i - (x.get i).toNat : Int) % 2 ^ 32 := by
  rw [negSlot_get, BitVec.toNat_sub, BitVec.toNat_ofNat]
  omega

/-- Adding the subtrahend back gives the sum with kp(k, .), lane by lane mod 2^32. -/
theorem addSlot_subSlot (k : Nat) (x y : LimbVec) : addSlot (subSlot k x y) y = addSlot x (multiple k) :=
  Ten.ext_get fun i => by simp [multiple]

theorem addSlot_negSlot (k : Nat) (x : LimbVec) : addSlot (negSlot k x) x = multiple k :=
  Ten.ext_get fun i => by simp [multiple]

theorem subSlot_self (k : Nat) (x : LimbVec) : subSlot k x x = multiple k :=
  Ten.ext_get fun i => by simp [multiple]

theorem negSlot_negSlot (k : Nat) (x : LimbVec) : negSlot k (negSlot k x) = x :=
  Ten.ext_get fun i => by simp

section Contract
variable {k : Nat} {x y : LimbVec}

theorem addFits_multiple (hk : k ≤ 64) (hx : multipleFits k x) : addFits x (multiple k) := fun i => by
  rw [multiple_get_toNat hk]
  exact hx i

theorem subSlot_get_add (hy : withinMultiple k y) (hx : multipleFits k x) (i : Fin 10) :
    ((subSlot k x y).get i).toNat + (y.get i).toNat = (x.get i).toNat + multipleLimb k i := by
  have h := subSlot_get_toInt k x y i
  have hxi := hx i
  have hyi := hy i
  omega

theorem val_subSlot (hk : k ≤ 64) (hy : withinMultiple k y) (hx : multipleFits k x) :
    val (subSlot k x y) + val y = val x + k * prime := by
  have hfits : addFits (subSlot k x y) y := fun i => by
    rw [subSlot_get_add hy hx]
    exact hx i
  rw [← val_addSlot hfits, addSlot_subSlot, val_addSlot (addFits_multiple hk hx), val_multiple hk]

theorem fe_subSlot (hk : k ≤ 64) (hy : withinMultiple k y) (hx : multipleFits k x) :
    fe (subSlot k x y) = fe x - fe y := by
  have h := congrArg (Nat.cast : Nat → ZMod prime) (val_subSlot hk hy hx)
  push_cast [ZMod.natCast_self, mul_zero, add_zero] at h
  exact eq_sub_of_add_eq h

theorem negSlot_get_add (hk : k ≤ 64) (hx : withinMultiple k x) (i : Fin 10) :
    ((negSlot k x).get i).toNat + (x.get i).toNat = multipleLimb k i := by
  have h := negSlot_get_toInt k x i
  have hxi := hx i
  have := multipleLimb_le k i
  omega

theorem addFits_negSlot (hk : k ≤ 64) (hx : withinMultiple k x) : addFits (negSlot k x) x := fun i => by
  rw [negSlot_get_add hk hx]
  have := multipleLimb_le k i
  omega

theorem withinMultiple_negSlot (hk : k ≤ 64) (hx : withinMultiple k x) : withinMultiple k (negSlot k x) := fun i =>
  Nat.le.intro (negSlot_get_add hk hx i)

theorem val_negSlot (hk : k ≤ 64) (hx : withinMultiple k x) : val (negSlot k x) + val x = k * prime := by
  rw [← val_addSlot (addFits_negSlot hk hx), addSlot_negSlot, val_multiple hk]

theorem fe_negSlot (hk : k ≤ 64) (hx : withinMultiple k x) : fe (negSlot k x) = -fe x := by
  rw [eq_neg_iff_add_eq_zero, ← fe_addSlot (addFits_negSlot hk hx), addSlot_negSlot, fe_multiple hk]

end Contract

theorem isWide_negSlot_two {x : LimbVec} (h : isNear x) : isWide (negSlot 2 x) := fun i =>
  have hlt : ∀ i, multipleLimb 2 i < wideLimit i := by decide
  (withinMultiple_negSlot (by decide) (withinMultiple_two_of_isNear h) i).trans_lt (hlt i)

/-- Both qualifiers of VSUB retire with their multiple. -/
theorem exec_vsub {k : Nat} {command : FReg → FReg → FReg → Instr}
    (hc : (k = 2 ∧ command = .vsubP2) ∨ (k = 16 ∧ command = .vsubP16)) (fd fa fb : FReg) (s : State) :
    exec (command fd fa fb) s = s.retire fd (vsubFn k (s.field fa) (s.field fb)) := by
  obtain ⟨rfl, rfl⟩ | ⟨rfl, rfl⟩ := hc <;> rfl

/-- Both qualifiers of VNEG retire with their multiple. -/
theorem exec_vneg {k : Nat} {command : FReg → FReg → BitVec 4 → Instr}
    (hc : (k = 2 ∧ command = .vnegP2) ∨ (k = 16 ∧ command = .vnegP16)) (fd fa : FReg) (m : BitVec 4) (s : State) :
    exec (command fd fa m) s = s.retire fd (vnegFn k (s.field fa) m) := by
  obtain ⟨rfl, rfl⟩ | ⟨rfl, rfl⟩ := hc <;> rfl

/-- Settles O25: the difference and the subtrahend add up to the minuend and kp(K, .), in every lane and so in value. -/
theorem vsubSubtractsFromMultiple : Obligations.VsubSubtractsFromMultiple := by
  intro k command hc fd fa fb s
  have hk : k ≤ 64 := by omega
  obtain ⟨t, ht, hret⟩ := retire_retires s fd (vsubFn k (s.field fa) (s.field fb))
  refine ⟨t, _, (exec_vsub hc fd fa fb s).trans ht, hret, fun sl i => ?_, fun sl hy hx => ?_, fun y => ⟨?_, ?_⟩, ?_⟩
  · rw [Vfe.limb, vsubFn_slot]
    exact subSlot_get_toInt k _ _ i
  · rw [vsubFn_slot]
    refine ⟨val_subSlot hk hy hx, fe_subSlot hk hy hx, fun i => ?_⟩
    rw [Vfe.limb, vsubFn_slot]
    exact Nat.le.intro (subSlot_get_add hy hx i)
  · exact fun _ => withinMultiple_two_of_isNear
  · exact fun _ => withinMultiple_sixteen_of_isWide
  · rintro rfl - sl
    rw [vsubFn_slot, subSlot_self]

/-! VNEG slot by slot, by the slot's mask bit. -/

theorem vnegFn_slot_selected {k : Nat} {x : Vfe} {m : BitVec 4} {sl : Slot} (h : m.getLsbD sl.code = true) :
    (vnegFn k x m).slot sl = negSlot k (x.slot sl) := (vnegFn_slot k x m sl).trans (if_pos h)

theorem vnegFn_slot_copied {k : Nat} {x : Vfe} {m : BitVec 4} {sl : Slot} (h : m.getLsbD sl.code = false) :
    (vnegFn k x m).slot sl = x.slot sl := (vnegFn_slot k x m sl).trans (if_neg (Bool.eq_false_iff.1 h))

theorem vnegFn_vnegFn (k : Nat) (x : Vfe) (m : BitVec 4) : vnegFn k (vnegFn k x m) m = x :=
  Vfe.ext_slot fun sl => by
    cases h : m.getLsbD sl.code with
    | true => rw [vnegFn_slot_selected h, vnegFn_slot_selected h, negSlot_negSlot]
    | false => rw [vnegFn_slot_copied h, vnegFn_slot_copied h]

theorem isWide_vnegFn_two {x : Vfe} {sl : Slot} (m : BitVec 4) (hx : isNear (x.slot sl)) :
    isWide ((vnegFn 2 x m).slot sl) := by
  cases h : m.getLsbD sl.code with
  | true =>
    rw [vnegFn_slot_selected h]
    exact isWide_negSlot_two hx
  | false =>
    rw [vnegFn_slot_copied h]
    exact isWide_of_isNear hx

/-- Settles O26, by the mask bit of the slot; a negated slot and its source add up to kp(K, .). -/
theorem vnegNegatesSelectedSlots : Obligations.VnegNegatesSelectedSlots := by
  intro k command hc fd fa m s
  have hk : k ≤ 64 := by omega
  obtain ⟨t, ht, hret⟩ := retire_retires s fd (vnegFn k (s.field fa) m)
  refine ⟨t, _, (exec_vneg hc fd fa m s).trans ht, hret, fun sl i h => ?_, fun sl => vnegFn_slot_copied,
    fun sl h hx => ?_, ?_, vnegFn_vnegFn k _ m⟩
  · rw [Vfe.limb, vnegFn_slot_selected h]
    exact negSlot_get_toInt k _ i
  · rw [vnegFn_slot_selected h]
    exact ⟨val_negSlot hk hx, fe_negSlot hk hx, withinMultiple_negSlot hk hx⟩
  · rintro rfl sl hx
    exact isWide_vnegFn_two m hx

end Sys2Proof.Machine
end

section
/-! PROOFS. The reductions (40_field_ops.md R109, R110): carries between limbs change the value by multiples of p. -/

namespace Sys2Proof.Machine

/-! ### Carries between limbs -/

/-- What each limb receives when limb i sends `c i` on to the next, limb 9 wrapping to limb 0 with the factor 19. -/
def carryIn (c : Fin 10 → Nat) (i : Fin 10) : Nat := if i = 0 then 19 * c 9 else c (i - 1)

@[simp] theorem carryIn_zero (c : Fin 10 → Nat) : carryIn c 0 = 19 * c 9 := if_pos rfl

@[simp] theorem carryIn_succ (c : Fin 10 → Nat) (i : Fin 9) : carryIn c i.succ = c i.castSucc := by
  have hpred : i.succ - 1 = i.castSucc := by
    revert i
    decide
  rw [carryIn, if_neg (Fin.succ_ne_zero i), hpred]

/-- Each limb begins where the one before it ends. -/
theorem limbExp_succ (i : Fin 9) : limbExp i.succ = limbWidth i.castSucc + limbExp i.castSucc := by
  revert i
  decide

/-- What the limbs receive weighs what was sent, less p for each carry around the top: 2^255 = p + 19. -/
theorem sum_carryIn (c : Fin 10 → Nat) :
    ∑ i, carryIn c i * 2 ^ limbExp i + c 9 * prime = ∑ i, c i * 2 ^ limbWidth i * 2 ^ limbExp i := by
  have htop : 19 * c 9 * 2 ^ limbExp 0 + c 9 * prime = c 9 * 2 ^ limbWidth 9 * 2 ^ limbExp 9 := by
    have hweight : 2 ^ limbWidth 9 * 2 ^ limbExp 9 = 19 * 2 ^ limbExp 0 + prime := by decide
    rw [mul_assoc (c 9), hweight]
    ring
  rw [Fin.sum_univ_succ, Fin.sum_univ_castSucc (n := 9), carryIn_zero, add_right_comm, htop, add_comm]
  simp only [carryIn_succ, limbExp_succ, pow_add, mul_assoc]
  rfl

/-- Splitting every limb at its width and sending its high part on keeps the value mod p. -/
theorem sum_carry (z : Fin 10 → Nat) :
    ∑ i, (z i % 2 ^ limbWidth i + carryIn (fun j => z j / 2 ^ limbWidth j) i) * 2 ^ limbExp i +
      z 9 / 2 ^ limbWidth 9 * prime = ∑ i, z i * 2 ^ limbExp i := by
  simp only [add_mul, Finset.sum_add_distrib]
  rw [add_assoc, sum_carryIn, ← Finset.sum_add_distrib]
  refine Finset.sum_congr rfl fun i _ => ?_
  rw [← add_mul, Nat.mod_add_div']

/-! ### VRED.L (R109) -/

/-- The high part of a 32-bit limb. -/
def limbHigh (x : LimbVec) (i : Fin 10) : Nat := (x.get i).toNat / 2 ^ limbWidth i

theorem limbHigh_le_of_even {i : Fin 10} (x : LimbVec) (h : i.val % 2 = 0) : limbHigh x i ≤ 63 := by
  have := (x.get i).isLt
  rw [limbHigh, limbWidth, if_pos h]
  omega

theorem limbHigh_le_of_odd {i : Fin 10} (x : LimbVec) (h : i.val % 2 = 1) : limbHigh x i ≤ 127 := by
  have := (x.get i).isLt
  rw [limbHigh, limbWidth, if_neg (by omega)]
  omega

theorem limbHigh_le (x : LimbVec) (i : Fin 10) : limbHigh x i ≤ 127 := by
  obtain h | h := Nat.mod_two_eq_zero_or_one i.val
  · exact (limbHigh_le_of_even x h).trans (by decide)
  · exact limbHigh_le_of_odd x h

theorem carryIn_limbHigh_le (x : LimbVec) (i : Fin 10) : carryIn (limbHigh x) i ≤ 19 * 127 := by
  rw [carryIn]
  split
  · exact Nat.mul_le_mul_left 19 (limbHigh_le x 9)
  · exact (limbHigh_le x (i - 1)).trans (by decide)

theorem and_maskWord_toNat (w : Word) (i : Fin 10) : (w &&& maskWord i).toNat = w.toNat % 2 ^ limbWidth i := by
  have hmask : (maskWord i).toNat = 2 ^ limbWidth i - 1 := by
    revert i
    decide
  rw [BitVec.toNat_and, hmask, Nat.and_two_pow_sub_one_eq_mod]

/-- No lane of the carry pass wraps. -/
theorem reduceLazySlot_get_toNat (x : LimbVec) (i : Fin 10) :
    ((reduceLazySlot x).get i).toNat = (x.get i).toNat % 2 ^ limbWidth i + carryIn (limbHigh x) i := by
  have hlow : (x.get i).toNat % 2 ^ limbWidth i ≤ 2 ^ 26 := by
    refine (Nat.mod_lt _ (by positivity)).le.trans (Nat.pow_le_pow_right (by decide) ?_)
    revert i
    decide
  have hshift (j : Fin 10) : (x.get j >>> limbWidth j).toNat = limbHigh x j := by
    rw [BitVec.toNat_ushiftRight, Nat.shiftRight_eq_div_pow, limbHigh]
  have hcarry : (if i = 0 then 19#32 * (x.get 9 >>> limbWidth 9) else x.get (i - 1) >>> limbWidth (i - 1)).toNat =
      carryIn (limbHigh x) i := by
    have h9 := limbHigh_le x 9
    rw [carryIn]
    split
    · rw [BitVec.toNat_mul, hshift, BitVec.toNat_ofNat]
      omega
    · exact hshift (i - 1)
  have hin := carryIn_limbHigh_le x i
  rw [reduceLazySlot, Ten.get_ofFn, BitVec.toNat_add, and_maskWord_toNat, hcarry]
  omega

theorem val_reduceLazySlot (x : LimbVec) : val (reduceLazySlot x) + limbHigh x 9 * prime = val x := by
  simp only [val_eq_sum, reduceLazySlot_get_toNat]
  exact sum_carry fun i => (x.get i).toNat

theorem fe_reduceLazySlot (x : LimbVec) : fe (reduceLazySlot x) = fe x :=
  fe_of_val_add_mul_prime (val_reduceLazySlot x)

/-- The low part of a limb is within the limb's mask. -/
theorem mod_le_limbMask (n : Nat) (i : Fin 10) : n % 2 ^ limbWidth i ≤ limbMask i :=
  Nat.le_sub_one_of_lt (Nat.mod_lt n (by positivity))

theorem reduceLazySlot_get_le (x : LimbVec) (i : Fin 10) :
    ((reduceLazySlot x).get i).toNat ≤ limbMask i + carryIn (limbHigh x) i := by
  rw [reduceLazySlot_get_toNat]
  exact Nat.add_le_add_right (mod_le_limbMask _ i) _

theorem reduceLazySlot_get_zero_le (x : LimbVec) : ((reduceLazySlot x).get 0).toNat ≤ 2 ^ 26 - 1 + 2413 :=
  (reduceLazySlot_get_le x 0).trans (Nat.add_le_add_left (Nat.mul_le_mul_left 19 (limbHigh_le x 9)) _)

theorem reduceLazySlot_get_odd_le (x : LimbVec) {i : Fin 10} (h : i.val % 2 = 1) :
    ((reduceLazySlot x).get i).toNat ≤ 2 ^ 25 - 1 + 63 := by
  have h0 : i ≠ 0 := by rintro rfl; cases h
  have hle := reduceLazySlot_get_le x i
  have hin := limbHigh_le_of_even x (i := i - 1) (by omega)
  rw [limbMask, limbWidth, if_neg (by omega), carryIn, if_neg h0] at hle
  omega

theorem reduceLazySlot_get_even_le (x : LimbVec) {i : Fin 10} (h : i.val % 2 = 0) (h0 : i ≠ 0) :
    ((reduceLazySlot x).get i).toNat ≤ 2 ^ 26 - 1 + 127 := by
  have hle := reduceLazySlot_get_le x i
  have hin := limbHigh_le x (i - 1)
  rw [limbMask, limbWidth, if_pos h, carryIn, if_neg h0] at hle
  omega

theorem isNear_reduceLazySlot (x : LimbVec) : isNear (reduceLazySlot x) := fun i => by
  have hlt : ∀ i, limbMask i + 19 * 127 < nearLimit i := by decide
  calc ((reduceLazySlot x).get i).toNat
      ≤ limbMask i + carryIn (limbHigh x) i := reduceLazySlot_get_le x i
    _ ≤ limbMask i + 19 * 127 := Nat.add_le_add_left (carryIn_limbHigh_le x i) _
    _ < nearLimit i := hlt i

/-- Within the masks there is nothing to carry. -/
theorem reduceLazySlot_of_withinMasks {x : LimbVec} (h : withinMasks x) : reduceLazySlot x = x := by
  have hlt (i) : (x.get i).toNat < 2 ^ limbWidth i := (h i).trans_lt (Nat.sub_one_lt (by positivity))
  have hhigh (i) : limbHigh x i = 0 := Nat.div_eq_of_lt (hlt i)
  refine Ten.ext_get fun i => BitVec.eq_of_toNat_eq ?_
  rw [reduceLazySlot_get_toNat, Nat.mod_eq_of_lt (hlt i)]
  simp [carryIn, hhigh]

/-- Settles O31: each limb is its low part and one carry of a source limb, and the carries keep the value mod p. -/
theorem vredLCarriesOnce : Obligations.VredLCarriesOnce := by
  refine ⟨fun fd fa s => ?_, by decide, by decide, by decide⟩
  obtain ⟨t, ht, hret⟩ := retire_retires s fd (vredLFn (s.field fa))
  have hlimb (sl i) : (vredLFn (s.field fa)).limb sl i = (reduceLazySlot ((s.field fa).slot sl)).get i := by
    rw [Vfe.limb, vredLFn_slot]
  refine ⟨t, _, ht, hret, fun sl => ?_, fun sl i hi => ?_, fun sl => ⟨?_, ?_, ?_, fun i hi => ?_, fun i hi h0 => ?_⟩,
    fun sl hcanon => ?_⟩
  · rw [hlimb]
    exact reduceLazySlot_get_toNat _ 0
  · rw [hlimb, reduceLazySlot_get_toNat, carryIn, if_neg hi]
    rfl
  · rw [vredLFn_slot, fe_reduceLazySlot]
  · rw [vredLFn_slot]
    exact isNear_reduceLazySlot _
  · rw [hlimb]
    exact reduceLazySlot_get_zero_le _
  · rw [hlimb]
    exact reduceLazySlot_get_odd_le _ hi
  · rw [hlimb]
    exact reduceLazySlot_get_even_le _ hi h0
  · rw [vredLFn_slot, reduceLazySlot_of_withinMasks (isCanon_iff.1 hcanon).1]

/-! ### VRED.F (R110) -/

theorem reduceFullSlot_eq_iff {x y : LimbVec} : reduceFullSlot x = reduceFullSlot y ↔ fe x = fe y := canon_eq_canon_iff

/-- Settles O32: canon takes each value mod p, and is within class CANON. -/
theorem vredFIsCanonical : Obligations.VredFIsCanonical := by
  refine ⟨fun fd fa s => ?_, fun x y => reduceFullSlot_eq_iff⟩
  obtain ⟨t, ht, hret⟩ := retire_retires s fd (vredFFn (s.field fa))
  have hslot (sl) : (vredFFn (s.field fa)).slot sl = canon (val ((s.field fa).slot sl)) := vredFFn_slot _ sl
  refine ⟨t, _, ht, hret, hslot, canonVfe_iff.2 fun sl => ?_, fun sl hcanon => (hslot sl).trans hcanon.symm⟩
  rw [hslot]
  exact isCanon_canon _

end Sys2Proof.Machine
end

section
/-! PROOFS. The multiplier (40_field_ops.md R106 to R108, R111; 70_reset_and_hazards.md R224): the model's carry chain
is the printed loop, its sums stay exact on class W, and so a slot of VMUL holds the product mod p. -/

namespace Sys2Proof.Machine

/-! ### The printed loop (R106) -/

theorem productSum_eq_sum (x y : LimbVec) (k : Fin 10) : productSum x y k = ∑ i, productTerm x y k i := by
  simp only [Fin.sum_univ_ofNat]
  rfl

/-- What the product of limbs i and j counts in accumulator k (R106). -/
def foldFactor (i j k : Fin 10) : Nat :=
  if i.val + j.val = k.val then oddFactor i j else if i.val + j.val = k.val + 10 then 19 * oddFactor i j else 0

theorem accumulatorSum_eq_foldFactor (x y : LimbVec) (k : Fin 10) :
    accumulatorSum x y k = ∑ i, ∑ j, (x.get i).toNat * (y.get j).toNat * foldFactor i j k := by
  refine Finset.sum_congr rfl fun i _ => Finset.sum_congr rfl fun j _ => ?_
  rw [foldFactor]
  split_ifs <;> ring

/-- The partners i and j of accumulator k, by whether their sum passes 9. -/
theorem partner_iff (k i j : Fin 10) :
    (i.val + j.val = k.val ↔ j = k - i ∧ i ≤ k) ∧ (i.val + j.val = k.val + 10 ↔ j = k - i ∧ ¬ i ≤ k) := by
  simp only [Fin.ext_iff, Fin.le_def, Fin.sub_def]
  omega

/-- Limb i of x meets one limb of y in accumulator k. -/
theorem productTerm_eq_sum (x y : LimbVec) (k i : Fin 10) :
    productTerm x y k i = ∑ j, (x.get i).toNat * (y.get j).toNat * foldFactor i j k := by
  simp only [foldFactor, partner_iff k i]
  rw [Finset.sum_eq_single (k - i) (fun j _ hj => by simp [hj]) (by simp), productTerm]
  by_cases h : i ≤ k
  · simp [h, mul_comm]
  · simp [h, mul_comm, mul_assoc]

theorem productSum_eq_accumulatorSum (x y : LimbVec) (k : Fin 10) : productSum x y k = accumulatorSum x y k := by
  simp only [productSum_eq_sum, accumulatorSum_eq_foldFactor, productTerm_eq_sum]

/-- The turns of the loop, one by one, leave what the chain writes out. -/
theorem carryLoop_eq_carryChain (z : Fin 10 → BitVec 64) : carryLoop z = (carryChain (Ten.ofFn z)).get := by
  funext i
  fin_cases i <;> rfl

/-- Settles O27: the accumulators by the one partner of each limb, the loop by running its ten turns. -/
theorem mulSlotIsThePrintedLoop : Obligations.MulSlotIsThePrintedLoop := fun x y => by
  simp only [mulSlot, narrow, mulSlotByLoop, carryLoop_eq_carryChain, accumulators, productSum_eq_accumulatorSum]

/-! ### The chain as exact numbers

As long as no sum reaches the width of its register, the accumulators hold `exactSum`, `exactWrapped` and
`exactLastCarry` (R224). -/

/-- No accumulator reaches 2^64 and no limb 2^32. -/
def sumsFit (x y : LimbVec) : Prop :=
  (∀ k : Fin 10, exactSum x y k.val < 2 ^ 64) ∧ exactWrapped x y < 2 ^ 64 ∧
    exactSum x y 1 % 2 ^ 25 + exactLastCarry x y < 2 ^ 32

/-- Limb i of the product as an exact number. -/
def exactLimb (x y : LimbVec) (i : Fin 10) : Nat :=
  if i = 0 then exactWrapped x y % 2 ^ 26
  else if i = 1 then exactSum x y 1 % 2 ^ 25 + exactLastCarry x y
  else exactSum x y i.val % 2 ^ limbWidth i

/-- Accumulator k of the model's chain with the carry of accumulator k - 1 in it. -/
def carried (z : Ten (BitVec 64)) : Nat → BitVec 64
  | 0 => z.get 0
  | k + 1 => z.get (Fin.ofNat 10 (k + 1)) + carryOut (Fin.ofNat 10 k) (carried z k)

/-- Accumulator 0 of the model's chain with the wrapped carry of accumulator 9 in it. -/
def wrapped (z : Ten (BitVec 64)) : BitVec 64 := keepLow 0 (carried z 0) + 19#64 * carryOut 9 (carried z 9)

theorem carryChain_get (z : Ten (BitVec 64)) (i : Fin 10) :
    (carryChain z).get i =
      if i = 0 then keepLow 0 (wrapped z)
      else if i = 1 then keepLow 1 (carried z 1) + carryOut 0 (wrapped z)
      else keepLow i (carried z i.val) := by
  fin_cases i <;> rfl

@[simp] theorem carryOut_toNat (i : Fin 10) (z : BitVec 64) : (carryOut i z).toNat = z.toNat / 2 ^ limbWidth i := by
  rw [carryOut, BitVec.toNat_ushiftRight, Nat.shiftRight_eq_div_pow]

@[simp] theorem keepLow_toNat (i : Fin 10) (z : BitVec 64) : (keepLow i z).toNat = z.toNat % 2 ^ limbWidth i := by
  have hmask : (BitVec.ofNat 64 (limbMask i)).toNat = 2 ^ limbWidth i - 1 := by
    revert i
    decide
  rw [keepLow, BitVec.toNat_and, hmask, Nat.and_two_pow_sub_one_eq_mod]

theorem accumulators_get (x y : LimbVec) (k : Fin 10) :
    (accumulators x y).get k = BitVec.ofNat 64 (accumulatorSum x y k) := by
  rw [accumulators, Ten.get_ofFn, productSum_eq_accumulatorSum]

section Exact
variable {x y : LimbVec}

theorem limbWidth_lt (i : Fin 10) : limbWidth i < 32 := by
  revert i
  decide

theorem carried_toNat (h : ∀ k : Fin 10, exactSum x y k.val < 2 ^ 64) {k : Nat} (hk : k < 10) :
    (carried (accumulators x y) k).toNat = exactSum x y k := by
  induction k with
  | zero =>
    rw [carried, accumulators_get, BitVec.toNat_ofNat]
    exact Nat.mod_eq_of_lt (h 0)
  | succ k ih =>
    rw [carried, accumulators_get, BitVec.toNat_add, carryOut_toNat, ih (by omega), BitVec.toNat_ofNat, Nat.mod_add_mod]
    exact Nat.mod_eq_of_lt (h ⟨k + 1, hk⟩)

theorem wrapped_toNat (h : sumsFit x y) : (wrapped (accumulators x y)).toNat = exactWrapped x y := by
  obtain ⟨hsum, hwrap, -⟩ := h
  rw [wrapped, BitVec.toNat_add, BitVec.toNat_mul, keepLow_toNat, carryOut_toNat, carried_toNat hsum (by decide),
    carried_toNat hsum (by decide), BitVec.toNat_ofNat, Nat.mod_mul_mod, Nat.add_mod_mod]
  exact Nat.mod_eq_of_lt hwrap

/-- A limb of the product is its exact number. -/
theorem mulSlot_get_toNat (h : sumsFit x y) (i : Fin 10) : ((mulSlot x y).get i).toNat = exactLimb x y i := by
  have hwrap := wrapped_toNat h
  obtain ⟨hsum, -, hone⟩ := h
  rw [mulSlot, narrow, Ten.get_ofFn, BitVec.toNat_setWidth, carryChain_get, exactLimb]
  split_ifs with h0 h1
  · rw [keepLow_toNat, hwrap]
    exact Nat.mod_eq_of_lt ((Nat.mod_lt _ (by decide)).trans (by decide))
  · rw [BitVec.toNat_add, keepLow_toNat, carryOut_toNat, carried_toNat hsum (by decide), hwrap]
    exact (Nat.mod_mod_of_dvd _ (by decide)).trans (Nat.mod_eq_of_lt hone)
  · rw [keepLow_toNat, carried_toNat hsum i.isLt]
    exact Nat.mod_eq_of_lt ((Nat.mod_lt _ (by positivity)).trans (Nat.pow_lt_pow_right (by decide) (limbWidth_lt i)))

/-! ### The product as a field element -/

/-- The last carry only moves weight from limb 0 to limb 1: the limbs weigh the low parts and the wrapped carry. -/
theorem sum_exactLimb (x y : LimbVec) :
    ∑ i, exactLimb x y i * 2 ^ limbExp i =
      ∑ i : Fin 10, exactSum x y i.val % 2 ^ limbWidth i * 2 ^ limbExp i + 19 * exactTopCarry x y := by
  have hlast : exactWrapped x y % 2 ^ 26 + exactLastCarry x y * 2 ^ limbExp 1 =
      exactSum x y 0 % 2 ^ limbWidth 0 + 19 * exactTopCarry x y := Nat.mod_add_div' (exactWrapped x y) (2 ^ 26)
  have hzero : exactLimb x y 0 = exactWrapped x y % 2 ^ 26 := rfl
  have hone : exactLimb x y 1 = exactSum x y 1 % 2 ^ limbWidth 1 + exactLastCarry x y := rfl
  have hrest (i : Fin 8) : exactLimb x y i.succ.succ = exactSum x y i.succ.succ.val % 2 ^ limbWidth i.succ.succ := rfl
  have hfoot : 2 ^ limbExp 0 = 1 := rfl
  simp only [Fin.sum_univ_succ (n := 9), Fin.sum_univ_succ (n := 8), Fin.succ_zero_eq_one, hzero, hone, hrest, hfoot,
    Fin.val_zero, Fin.val_one, add_mul, mul_one]
  linarith

theorem exactSum_succ (x y : LimbVec) (k : Fin 9) :
    exactSum x y k.succ.val =
      accumulatorSum x y k.succ + exactSum x y k.castSucc.val / 2 ^ limbWidth k.castSucc := by
  have hsucc : Fin.ofNat 10 (k.val + 1) = k.succ := Fin.ext (Nat.mod_eq_of_lt (by omega))
  have hcast : Fin.ofNat 10 k.val = k.castSucc := Fin.ext (Nat.mod_eq_of_lt (by omega))
  rw [Fin.val_succ, exactSum, hsucc, hcast, Fin.val_castSucc]

/-- The sums of step 1 with all carries in, and the accumulators with the wrapped one in too. -/
theorem accumulatorSum_add_carryIn (x y : LimbVec) (k : Fin 10) :
    accumulatorSum x y k + carryIn (fun j => exactSum x y j.val / 2 ^ limbWidth j) k =
      exactSum x y k.val + if k = 0 then 19 * exactTopCarry x y else 0 := by
  cases k using Fin.cases with
  | zero => rfl
  | succ k => rw [carryIn_succ, exactSum_succ, if_neg (Fin.succ_ne_zero k), Nat.add_zero]

/-- Step 2 changes the weighed sum by p for each carry out of z[9]. -/
theorem sum_exactLimb_add (x y : LimbVec) :
    ∑ i, exactLimb x y i * 2 ^ limbExp i + exactTopCarry x y * prime = ∑ k, accumulatorSum x y k * 2 ^ limbExp k := by
  have hcarry := sum_carry fun k => exactSum x y k.val
  have hsum := congrArg (fun f => ∑ k, f k * 2 ^ limbExp k) (funext (accumulatorSum_add_carryIn x y))
  have hzero : ∑ k : Fin 10, (if k = 0 then 19 * exactTopCarry x y else 0) * 2 ^ limbExp k =
      19 * exactTopCarry x y := by
    simp [limbExp]
  simp only [add_mul, Finset.sum_add_distrib, hzero] at hcarry hsum
  change _ + _ + exactTopCarry x y * prime = _ at hcarry
  rw [sum_exactLimb]
  linarith

/-- The factor 2 makes up for the odd limbs' half bits, and 2^255 is 19 mod p. -/
theorem sum_foldFactor_mod : ∀ i j : Fin 10,
    (∑ k, foldFactor i j k * 2 ^ limbExp k) % prime = 2 ^ limbExp i * 2 ^ limbExp j % prime := by
  decide

theorem sum_foldFactor (i j : Fin 10) :
    ∑ k, (foldFactor i j k : ZMod prime) * 2 ^ limbExp k = 2 ^ limbExp i * 2 ^ limbExp j := by
  exact_mod_cast (ZMod.natCast_eq_natCast_iff' _ _ _).2 (sum_foldFactor_mod i j)

theorem fe_eq_sum (x : LimbVec) : fe x = ∑ i, ((x.get i).toNat : ZMod prime) * 2 ^ limbExp i := by
  rw [fe, val_eq_sum]
  push_cast
  rfl

/-- Step 1 multiplies mod p. -/
theorem sum_accumulatorSum (x y : LimbVec) :
    ((∑ k, accumulatorSum x y k * 2 ^ limbExp k : Nat) : ZMod prime) = fe x * fe y := by
  simp only [accumulatorSum_eq_foldFactor, Nat.cast_sum, Nat.cast_mul, Nat.cast_pow, Finset.sum_mul, Nat.cast_ofNat]
  rw [fe_eq_sum, fe_eq_sum, Finset.sum_mul_sum, Finset.sum_comm]
  refine Finset.sum_congr rfl fun i _ => ?_
  rw [Finset.sum_comm]
  refine Finset.sum_congr rfl fun j _ => ?_
  rw [mul_mul_mul_comm, ← sum_foldFactor, Finset.mul_sum]
  exact Finset.sum_congr rfl fun k _ => mul_assoc _ _ _

theorem val_mulSlot (h : sumsFit x y) :
    val (mulSlot x y) + exactTopCarry x y * prime = ∑ k, accumulatorSum x y k * 2 ^ limbExp k := by
  simp only [val_eq_sum, mulSlot_get_toNat h, sum_exactLimb_add]

theorem fe_mulSlot_of_sumsFit (h : sumsFit x y) : fe (mulSlot x y) = fe x * fe y := by
  rw [← sum_accumulatorSum, ← val_mulSlot h, Nat.cast_add, Nat.cast_mul, ZMod.natCast_self, mul_zero, add_zero, fe]

end Exact

/-! ### Bounds on class W (R224) -/

section Mono
variable {x y X Y : LimbVec} (hx : ∀ i, (x.get i).toNat ≤ (X.get i).toNat) (hy : ∀ i, (y.get i).toNat ≤ (Y.get i).toNat)
include hx hy

theorem accumulatorSum_mono (k : Fin 10) : accumulatorSum x y k ≤ accumulatorSum X Y k := by
  simp only [accumulatorSum_eq_foldFactor]
  gcongr with i _ j _
  · exact hx i
  · exact hy j

theorem exactSum_mono (k : Nat) : exactSum x y k ≤ exactSum X Y k := by
  induction k with
  | zero => exact accumulatorSum_mono hx hy 0
  | succ k ih => exact Nat.add_le_add (accumulatorSum_mono hx hy _) (Nat.div_le_div_right ih)

theorem exactTopCarry_mono : exactTopCarry x y ≤ exactTopCarry X Y := Nat.div_le_div_right (exactSum_mono hx hy 9)

end Mono

/-- The largest class-W limb vector. -/
def wideMax : LimbVec := Ten.ofFn fun i => BitVec.ofNat 32 (wideLimit i - 1)

theorem get_le_wideMax {x : LimbVec} (h : isWide x) (i : Fin 10) : (x.get i).toNat ≤ (wideMax.get i).toNat := by
  have hmax : ∀ i, (wideMax.get i).toNat = wideLimit i - 1 := by decide
  rw [hmax]
  exact Nat.le_sub_one_of_lt (h i)

theorem accumulatorSum_wideMax : ∀ k, accumulatorSum wideMax wideMax k = accumulatorMax k := by decide

theorem exactSum_wideMax_lt : ∀ k : Fin 10, exactSum wideMax wideMax k.val < 2 ^ 64 := by decide

theorem exactTopCarry_wideMax : exactTopCarry wideMax wideMax = 20300432193 := by decide

theorem exactWrapped_le (x y : LimbVec) : exactWrapped x y ≤ 2 ^ 26 - 1 + 19 * exactTopCarry x y := by
  rw [exactWrapped]
  omega

section Wide
variable {x y : LimbVec} (hx : isWide x) (hy : isWide y)
include hx hy

theorem accumulatorSum_le_accumulatorMax (k : Fin 10) : accumulatorSum x y k ≤ accumulatorMax k :=
  (accumulatorSum_mono (get_le_wideMax hx) (get_le_wideMax hy) k).trans_eq (accumulatorSum_wideMax k)

theorem exactSum_lt (k : Fin 10) : exactSum x y k.val < 2 ^ 64 :=
  (exactSum_mono (get_le_wideMax hx) (get_le_wideMax hy) k).trans_lt (exactSum_wideMax_lt k)

theorem exactTopCarry_le : exactTopCarry x y ≤ 20300432193 :=
  (exactTopCarry_mono (get_le_wideMax hx) (get_le_wideMax hy)).trans_eq exactTopCarry_wideMax

theorem exactLastCarry_le : exactLastCarry x y ≤ 5748 := by
  have htop := exactTopCarry_le hx hy
  have hwrap := exactWrapped_le x y
  rw [exactLastCarry]
  omega

theorem sumsFit_of_isWide : sumsFit x y := by
  have htop := exactTopCarry_le hx hy
  have hwrap := exactWrapped_le x y
  have hlast := exactLastCarry_le hx hy
  exact ⟨exactSum_lt hx hy, by omega, by omega⟩

/-- R107, the field level. -/
theorem fe_mulSlot : fe (mulSlot x y) = fe x * fe y := fe_mulSlot_of_sumsFit (sumsFit_of_isWide hx hy)

theorem mulSlot_get_le_of_ne_one {i : Fin 10} (hi : i ≠ 1) : ((mulSlot x y).get i).toNat ≤ limbMask i := by
  rw [mulSlot_get_toNat (sumsFit_of_isWide hx hy), exactLimb, if_neg hi]
  split
  next h0 =>
    subst h0
    exact mod_le_limbMask _ 0
  · exact mod_le_limbMask _ i

theorem mulSlot_get_one_le : ((mulSlot x y).get 1).toNat ≤ limbMask 1 + 5748 := by
  rw [mulSlot_get_toNat (sumsFit_of_isWide hx hy)]
  exact Nat.add_le_add (mod_le_limbMask _ 1) (exactLastCarry_le hx hy)

theorem mulSlot_get_le (i : Fin 10) : ((mulSlot x y).get i).toNat ≤ limbMask i + if i = 1 then 5748 else 0 := by
  split
  next h =>
    subst h
    exact mulSlot_get_one_le hx hy
  · exact mulSlot_get_le_of_ne_one hx hy ‹_›

theorem isNear_mulSlot : isNear (mulSlot x y) := fun i =>
  have hlt : ∀ i : Fin 10, (limbMask i + if i = 1 then 5748 else 0) < nearLimit i := by decide
  (mulSlot_get_le hx hy i).trans_lt (hlt i)

theorem val_mulSlot_lt : val (mulSlot x y) < 2 ^ 255 + 5748 * 2 ^ 26 := by
  rw [val_eq_sum]
  calc ∑ i, ((mulSlot x y).get i).toNat * 2 ^ limbExp i
      ≤ ∑ i : Fin 10, (limbMask i + if i = 1 then 5748 else 0) * 2 ^ limbExp i :=
        Finset.sum_le_sum fun i _ => Nat.mul_le_mul_right _ (mulSlot_get_le hx hy i)
    _ < 2 ^ 255 + 5748 * 2 ^ 26 := by decide

theorem val_mulSlot_mod : val (mulSlot x y) % prime = val x * val y % prime := by
  rw [← ZMod.natCast_eq_natCast_iff', Nat.cast_mul]
  exact fe_mulSlot hx hy

/-- The result is less than 19 + 5748 * 2^26 above p, so a residue of that size or more is the result itself. -/
theorem val_mulSlot_eq (h : 19 + 5748 * 2 ^ 26 ≤ val x * val y % prime) :
    val (mulSlot x y) = val x * val y % prime := by
  have hlt := val_mulSlot_lt hx hy
  have hprime : prime + 19 = 2 ^ 255 := by decide
  rw [← val_mulSlot_mod hx hy] at h ⊢
  obtain hp | hp := Nat.lt_or_ge (val (mulSlot x y)) prime
  · exact (Nat.mod_eq_of_lt hp).symm
  · have hsub := Nat.mod_le (val (mulSlot x y) - prime) prime
    rw [← Nat.mod_eq_sub_mod hp] at hsub
    omega

theorem isCanon_mulSlot (h : 19 + 5748 * 2 ^ 26 ≤ val x * val y % prime)
    (hone : ((mulSlot x y).get 1).toNat ≤ limbMask 1) : isCanon (mulSlot x y) := by
  refine isCanon_iff.2 ⟨fun i => ?_, ?_⟩
  · obtain rfl | hi := eq_or_ne i 1
    · exact hone
    · exact mulSlot_get_le_of_ne_one hx hy hi
  · rw [val_mulSlot_eq hx hy h]
    exact Nat.mod_lt _ (by decide)

end Wide

/-- A factor without limbs leaves every accumulator empty. -/
theorem mulSlot_get_of_zero {x y : LimbVec} (h : (∀ i, x.get i = 0#32) ∨ (∀ i, y.get i = 0#32)) (i : Fin 10) :
    (mulSlot x y).get i = 0#32 := by
  have hacc : accumulators x y = Ten.ofFn fun _ => 0#64 := Ten.ext_get fun k => by
    rw [accumulators_get]
    obtain h | h := h <;> simp [accumulatorSum, h]
  rw [mulSlot, hacc]
  revert i
  decide

/-! ### VMUL and VSQ (R107, R108) -/

/-- Settles O28, from the exact sums of class-W operands. -/
theorem vmulMultipliesSlots : Obligations.VmulMultipliesSlots := by
  intro fd fa fb s
  obtain ⟨t, ht, hret⟩ := retire_retires s fd (vmulFn (s.field fa) (s.field fb))
  refine ⟨t, _, ht, hret, fun sl x y r hx hy hr => ?_⟩
  rw [vmulFn_slot, ← hx, ← hy] at hr
  subst hr
  refine ⟨mulSlotIsThePrintedLoop x y, mulSlot_get_of_zero, fun hx hy => ?_⟩
  obtain ⟨hsum, hwrap, hone⟩ := sumsFit_of_isWide hx hy
  have hmax : ∀ k, accumulatorMax k < 2 ^ 64 := by decide
  exact ⟨fun k => ⟨(accumulatorSum_le_accumulatorMax hx hy k).trans_lt (hmax k), hsum k⟩, hwrap, hone, fe_mulSlot hx hy,
    isNear_mulSlot hx hy, fun _ => mulSlot_get_le_of_ne_one hx hy, mulSlot_get_one_le hx hy, val_mulSlot_lt hx hy,
    fun h => ⟨val_mulSlot_eq hx hy h, isCanon_mulSlot hx hy h⟩⟩

theorem vsqFn_eq_vmulFn (x : Vfe) : vsqFn x = vmulFn x x := rfl

/-- Settles O29: two written registers with the same words read the same, and VSQ is VMUL of that reading. -/
theorem vsqIsVmulOfEqualOperands : Obligations.VsqIsVmulOfEqualOperands := by
  intro fd fa s
  obtain ⟨t, ht, hret⟩ := retire_retires s fd (vsqFn (s.field fa))
  refine ⟨t, _, ht, hret, fun fb ha hb hab => ?_, fun sl => ?_, fun sl hw => ?_⟩
  · have hfield : s.field fb = s.field fa := by rw [field_of_written ha, field_of_written hb, hab]
    rw [exec, execVmul, hfield, ← vsqFn_eq_vmulFn, ht]
  · rw [vsqFn_slot, mulSlotIsThePrintedLoop]
  · simp only [Vfe.limb, vsqFn_slot]
    exact ⟨(fe_mulSlot hw hw).trans (pow_two _).symm, isNear_mulSlot hw hw, fun _ => mulSlot_get_le_of_ne_one hw hw,
      mulSlot_get_one_le hw hw⟩

/-! ### The required properties (R111) -/

theorem romZero_slot (sl : Slot) : romZero.slot sl = canon 0 := by
  cases sl <;> decide

theorem fe_romOne_slot (sl : Slot) : fe (romOne.slot sl) = 1 := by
  have hval : val (romOne.slot sl) = 1 := by cases sl <;> decide
  rw [fe, hval, Nat.cast_one]

theorem isWide_romOne_slot (sl : Slot) : isWide (romOne.slot sl) := by
  cases sl <;> decide

theorem reduceFullSlot_mulSlot {x y : LimbVec} (hx : isWide x) (hy : isWide y) :
    reduceFullSlot (mulSlot x y) = canon (val x * val y) := by
  rw [← Nat.cast_mul, reduceFullSlot, canon_eq_canon_iff, Nat.cast_mul]
  exact fe_mulSlot hx hy

theorem reduceFullSlot_eq_canon_zero {x : LimbVec} (h : fe x = 0) : reduceFullSlot x = canon 0 := by
  rw [reduceFullSlot, ← Nat.cast_zero, canon_eq_canon_iff, Nat.cast_zero]
  exact h

/-- Settles O33: VRED.F sees field elements only, and those of the commands are known. -/
theorem requiredFieldProperties : Obligations.RequiredFieldProperties := by
  refine ⟨fun a b ha hb sl => ?_, fun a ha => Vfe.ext_slot fun sl => ?_, fun a ha => Vfe.ext_slot fun sl => ?_,
    vsqFn_eq_vmulFn⟩
  · rw [vredFFn_slot, vmulFn_slot, reduceFullSlot_mulSlot (wideVfe_iff.1 ha sl) (wideVfe_iff.1 hb sl)]
  · have hall : ∀ sl : Slot, (0b1111#4).getLsbD sl.code = true := fun sl => by cases sl <;> rfl
    have hfits := addFits_negSlot (by decide) (ha sl)
    rw [vredFFn_slot, vaddFn_slot, vnegFn_slot_selected (hall sl), romZero_slot]
    apply reduceFullSlot_eq_canon_zero
    rw [fe_addSlot (addFits_comm hfits), fe_negSlot (by decide) (ha sl), add_neg_cancel]
  · rw [vredFFn_slot, vredFFn_slot, vmulFn_slot, reduceFullSlot_eq_iff,
      fe_mulSlot (wideVfe_iff.1 ha sl) (isWide_romOne_slot sl), fe_romOne_slot, mul_one]

end Sys2Proof.Machine
end

section
/-! PROOFS. The lane and transfer commands (41_lane_and_transfer_ops.md R134 to R138): the slot a selector or a mask
picks, the 40 words of a load or a store and its address range, and the ROM indices that reach the command. -/

namespace Sys2Proof

/-! ### Selectors (R134) -/

theorem Slot.code_ofCode (c : BitVec 2) : (Slot.ofCode c).code = c.toNat := by
  revert c
  decide

theorem Slot.ofCode_code (sl : Slot) : Slot.ofCode (BitVec.ofNat 2 sl.code) = sl := by
  cases sl <;> rfl

theorem Slot.code_injective : Function.Injective Slot.code :=
  Function.LeftInverse.injective (g := fun n => Slot.ofCode (BitVec.ofNat 2 n)) Slot.ofCode_code

namespace Machine

/-- The source slot's code as the number R134 prints. -/
theorem sourceSlot_code (sel : BitVec 8) (sl : Slot) :
    (sourceSlot sel sl).code = sel.toNat / 2 ^ (2 * sl.code) % 4 := by
  rw [sourceSlot, Slot.code_ofCode, BitVec.extractLsb'_toNat, Nat.shiftRight_eq_div_pow]

/-- Settles O38: a slot is known by its code, and that of the source slot is the number R134 prints. -/
theorem vshufMovesWholeSlots : Obligations.VshufMovesWholeSlots := by
  refine ⟨fun fd fa sel s => ?_, fun a b c d => ⟨rfl, rfl, rfl, rfl, rfl, rfl, rfl, rfl, rfl, rfl⟩, fun _ => rfl⟩
  obtain ⟨t, ht, hret⟩ := retire_retires s fd (vshufFn (s.field fa) sel)
  refine ⟨t, _, ht, hret, fun sl src i hsrc => ?_⟩
  rw [← sourceSlot_code] at hsrc
  rw [Slot.code_injective hsrc, Vfe.limb, vshufFn_slot, Vfe.limb]

/-! ### Masks (R135) -/

theorem vblendFn_slot_selected {x y : Vfe} {m : BitVec 4} {sl : Slot} (h : m.getLsbD sl.code = true) :
    (vblendFn x y m).slot sl = y.slot sl := (vblendFn_slot x y m sl).trans (if_pos h)

theorem vblendFn_slot_unselected {x y : Vfe} {m : BitVec 4} {sl : Slot} (h : m.getLsbD sl.code = false) :
    (vblendFn x y m).slot sl = x.slot sl := (vblendFn_slot x y m sl).trans (if_neg (Bool.eq_false_iff.1 h))

theorem vblendFn_none (x y : Vfe) : vblendFn x y 0#4 = x := rfl

theorem vblendFn_all (x y : Vfe) : vblendFn x y 0b1111#4 = y := rfl

/-- Settles O39, by the mask bit of each slot. -/
theorem vblendSelectsSlots : Obligations.VblendSelectsSlots := by
  intro fd fa fb m s
  obtain ⟨t, ht, hret⟩ := retire_retires s fd (vblendFn (s.field fa) (s.field fb) m)
  refine ⟨t, _, ht, hret, fun sl i h => ?_, fun sl i h => ?_, ?_, ?_⟩
  · rw [Vfe.limb, vblendFn_slot_selected h, Vfe.limb]
  · rw [Vfe.limb, vblendFn_slot_unselected h, Vfe.limb]
  · rintro rfl
    exact vblendFn_none _ _
  · rintro rfl
    exact vblendFn_all _ _

/-! ### Loads and stores (R136, R137) -/

theorem inRange_iff {s : State} {addr : BitVec 16} : s.inRange addr = true ↔ addr.toNat + 40 ≤ s.cfg.lmWords :=
  decide_eq_true_iff

/-- Beyond LMWORDS a load and a store alike take the fault, which records the word that was issued: no other word
decodes to the command. -/
theorem exec_entersFault_of_addressRange {i : Instr} {fr : FReg} {addr : BitVec 16} {s : State}
    (hi : i = .vld fr addr ∨ i = .vst fr addr) (hlt : s.cfg.lmWords < addr.toNat + 40) :
    ∃ t, exec i s = .next t ∧ ∀ cw, decode cw = .ok i → entersFault 2#32 cw s t := by
  refine ⟨_, exec_of_rangeViolation (rangeViolation_encode_iff.2 ⟨fr, addr, hi, hlt⟩), fun cw hcw => ?_⟩
  rw [(encode_of_decode hcw).1]
  exact takeFault_entersFault s causeAddressRange cw

theorem exec_vld_of_inRange {fr : FReg} {addr : BitVec 16} {s : State} (h : addr.toNat + 40 ≤ s.cfg.lmWords) :
    exec (.vld fr addr) s = s.retire fr (s.loadVfe addr) := if_pos (inRange_iff.2 h)

theorem exec_vst_of_inRange {fr : FReg} {addr : BitVec 16} {s : State} (h : addr.toNat + 40 ≤ s.cfg.lmWords) :
    exec (.vst fr addr) s = .next (s.storeVfe addr (s.field fr)).complete := if_pos (inRange_iff.2 h)

/-- A written word reads as what was written. -/
theorem word_of_lookup {s : State} {a : Nat} {w : Word} (h : Memory.lookup s.lm a = some w) : s.word a = w := by
  rw [State.word, h]

theorem loadVfe_limb (s : State) (addr : BitVec 16) (sl : Slot) (i : Fin 10) :
    (s.loadVfe addr).limb sl i = s.word (addr.toNat + 10 * sl.code + i.val) := by
  rw [State.loadVfe, ofImage_limb, Nat.add_assoc]

/-- Settles O40: in range the register is loaded with the words as they read, which for a written word is its value. -/
theorem vldLoadsFortyWords : Obligations.VldLoadsFortyWords := by
  refine fun fr addr s => ⟨fun h => ?_, exec_entersFault_of_addressRange (.inl rfl)⟩
  obtain ⟨t, ht, hret⟩ := retire_retires s fr (s.loadVfe addr)
  exact ⟨t, _, (exec_vld_of_inRange h).trans ht, hret, loadVfe_limb s addr,
    fun sl i w hw => (loadVfe_limb s addr sl i).trans (word_of_lookup hw)⟩

/-- Settles O41: in range the 40 words are the image of the source, and completing touches no memory. -/
theorem vstStoresFortyWords : Obligations.VstStoresFortyWords := by
  refine fun fr addr s => ⟨fun h => ?_, exec_entersFault_of_addressRange (.inr rfl)⟩
  refine ⟨_, exec_vst_of_inRange h, fun sl i => ?_, fun a ha => ?_, fun r => ?_, ?_, ?_, ?_⟩
  · rw [complete_lm, Nat.add_assoc]
    exact storeVfe_lookup_inside s addr (s.field fr) sl i
  · rw [complete_lm]
    exact storeVfe_lookup_outside s addr (s.field fr) ha
  · simp [keptRegister]
  · simp [keptFaultRegisters]
  · simp [keptSetting]
  · simp

/-! ### The ROM (R138) -/

theorem romPopulated_iff {e : BitVec 5} : romPopulated e = true ↔ e.toNat ≤ 5 ∨ (8 ≤ e.toNat ∧ e.toNat ≤ 23) := by
  simp [romPopulated]

theorem exec_vldc_of_rom {e : BitVec 5} {v : Vfe} (h : rom e = some v) (fd : FReg) (s : State) :
    exec (.vldc fd e) s = s.retire fd v := by
  rw [exec, execVldc, h]

/-- The word of VLDC is illegal in its index alone: its other fields are zero as they must be. -/
theorem decode_encode_vldc_of_reserved (fd : FReg) {e : BitVec 5} (h : romPopulated e = false) :
    decode (encode (.vldc fd e)) = .error .reservedRomIndex := by
  have hzero : (0#9 ++ e).extractLsb' 5 9 = 0 := BitVec.extractLsb'_append_eq_left
  have hindex : (0#9 ++ e).extractLsb' 0 5 = e := BitVec.extractLsb'_append_eq_right
  simp [decode, encode, decodeVldc, hzero, hindex, h]

/-- Settles O43: the ROM holds an entry exactly at the populated indices, and the decoder rejects the others. -/
theorem vldcLoadsTheRomEntry : Obligations.VldcLoadsTheRomEntry := by
  intro fd e s
  rw [← romPopulated_iff]
  refine ⟨fun hpop => ?_, fun hres => ?_⟩
  · obtain ⟨v, hv⟩ := Option.isSome_iff_exists.1 ((rom_isSome e).trans hpop)
    obtain ⟨t, ht, hret⟩ := retire_retires s fd v
    exact ⟨t, v, hv, (exec_vldc_of_rom hv fd s).trans ht, hret⟩
  · have hdec := decode_encode_vldc_of_reserved fd (Bool.eq_false_iff.2 hres)
    exact ⟨hdec, fun hf => ⟨_, runCommand_of_illegalWord hf (illegalWord_of_decode_error hdec),
      takeFault_entersFault s causeIllegalCommand _⟩⟩

end Machine
end Sys2Proof
end

section
/-! PROOFS. The curve -x^2 + y^2 = 1 + d x^2 y^2 (42_point_ops.md R151, R160): its addition law has no
exceptional pairs, because d is no square and -1 is one, and the sum of two points is a point. -/

namespace Sys2Proof.Machine

/-! ### ZMod p is a field of odd characteristic in which d is no square -/

theorem zmod_two_ne_zero : (2 : ZMod prime) ≠ 0 := by
  have h : ((2 : Nat) : ZMod prime) ≠ 0 := by
    rw [Ne, ZMod.natCast_eq_zero_iff]
    exact Nat.not_dvd_of_pos_of_lt (by decide) (by decide)
  exact_mod_cast h

theorem zmod_mul_ne_zero {a b : ZMod prime} (ha : a ≠ 0) (hb : b ≠ 0) : a * b ≠ 0 :=
  have : Fact (Nat.Prime prime) := ⟨prime_is_prime⟩
  mul_ne_zero ha hb

/-- A multiple of c, for c not 0: the quotient. -/
theorem zmod_exists_mul_eq {c : ZMod prime} (hc : c ≠ 0) (a : ZMod prime) : ∃ x, x * c = a :=
  have : Fact (Nat.Prime prime) := ⟨prime_is_prime⟩
  ⟨a / c, div_mul_cancel₀ a hc⟩

theorem zmod_mul_left_cancel {a b c : ZMod prime} (hc : c ≠ 0) (h : c * a = c * b) : a = b :=
  have : Fact (Nat.Prime prime) := ⟨prime_is_prime⟩
  mul_left_cancel₀ hc h

theorem eq_zero_of_dField_mul_sq {a b : ZMod prime} (h : dField * b ^ 2 = a ^ 2) : b = 0 := by
  by_contra hb
  obtain ⟨r, rfl⟩ := zmod_exists_mul_eq hb a
  have hd : dField = r * r := zmod_mul_left_cancel (zmod_mul_ne_zero hb hb) (by linear_combination h)
  exact dField_not_square ⟨r, hd⟩

/-! ### The addition law (R160) -/

section Addition
variable {x1 y1 x2 y2 x3 y3 : ZMod prime} (h1 : onCurve x1 y1) (h2 : onCurve x2 y2)
include h1 h2

/-- If the product of the law were 1 or -1, then d times the square of this term would be the square of
`j*x1 + κ*y1`. -/
theorem mul_eq_zero_of_crossTerm_sq {j : ZMod prime} (hj : j ^ 2 = -1) (hκ : crossTerm x1 y1 x2 y2 ^ 2 = 1) :
    x1 * y1 * (j * x2 + y2) = 0 := by
  refine eq_zero_of_dField_mul_sq (a := j * x1 + crossTerm x1 y1 x2 y2 * y1) ?_
  unfold onCurve at h1 h2
  unfold crossTerm at *
  linear_combination (dField * x1 ^ 2 * y1 ^ 2 * x2 ^ 2 - x1 ^ 2) * hj + dField * x1 ^ 2 * y1 ^ 2 * h2 - h1
    + (1 - y1 ^ 2) * hκ

theorem crossTerm_sq_ne_one : crossTerm x1 y1 x2 y2 ^ 2 ≠ 1 := by
  intro hκ
  obtain ⟨j, hj⟩ := minus_one_is_square
  have hplus := mul_eq_zero_of_crossTerm_sq h1 h2 hj hκ
  have hminus := mul_eq_zero_of_crossTerm_sq h1 h2 (j := -j) (by linear_combination hj) hκ
  have hzero : (2 : ZMod prime) * 2 = 0 := by
    unfold crossTerm at hκ
    linear_combination 2 * dField ^ 2 * x1 * y1 * x2 ^ 2 * y2 * (hplus + hminus) - 4 * hκ
  exact zmod_mul_ne_zero zmod_two_ne_zero zmod_two_ne_zero hzero

theorem one_add_crossTerm_ne_zero : 1 + crossTerm x1 y1 x2 y2 ≠ 0 := fun h =>
  crossTerm_sq_ne_one h1 h2 (by linear_combination (crossTerm x1 y1 x2 y2 - 1) * h)

theorem one_sub_crossTerm_ne_zero : 1 - crossTerm x1 y1 x2 y2 ≠ 0 := fun h =>
  crossTerm_sq_ne_one h1 h2 (by linear_combination (-1 - crossTerm x1 y1 x2 y2) * h)

theorem exists_isCurveSum : ∃ x3 y3, isCurveSum x1 y1 x2 y2 x3 y3 := by
  obtain ⟨x3, hx⟩ := zmod_exists_mul_eq (one_add_crossTerm_ne_zero h1 h2) (x1 * y2 + x2 * y1)
  obtain ⟨y3, hy⟩ := zmod_exists_mul_eq (one_sub_crossTerm_ne_zero h1 h2) (y1 * y2 + x1 * x2)
  exact ⟨x3, y3, hx, hy⟩

/-- The curve equation of the sum, its fractions multiplied out. -/
theorem curve_equation_of_numerators :
    -((x1 * y2 + x2 * y1) * (1 - crossTerm x1 y1 x2 y2)) ^ 2 + ((y1 * y2 + x1 * x2) * (1 + crossTerm x1 y1 x2 y2)) ^ 2 =
      ((1 + crossTerm x1 y1 x2 y2) * (1 - crossTerm x1 y1 x2 y2)) ^ 2
        + dField * ((x1 * y2 + x2 * y1) * (y1 * y2 + x1 * x2)) ^ 2 := by
  unfold onCurve at h1 h2
  unfold crossTerm
  linear_combination
    ((-x2 ^ 2 + y2 ^ 2) * (1 + dField ^ 2 * x1 ^ 2 * y1 ^ 2 * x2 ^ 2 * y2 ^ 2)
      - dField * x2 ^ 2 * y2 ^ 2 * (-x1 ^ 2 + y1 ^ 2 + 1 + dField * x1 ^ 2 * y1 ^ 2)) * h1
    + ((1 + dField * x1 ^ 2 * y1 ^ 2) * (1 + dField ^ 2 * x1 ^ 2 * y1 ^ 2 * x2 ^ 2 * y2 ^ 2)
      - dField * x1 ^ 2 * y1 ^ 2 * (-x2 ^ 2 + y2 ^ 2 + 1 + dField * x2 ^ 2 * y2 ^ 2)) * h2

theorem onCurve_of_isCurveSum (h : isCurveSum x1 y1 x2 y2 x3 y3) : onCurve x3 y3 := by
  obtain ⟨hx, hy⟩ := h
  have hne := zmod_mul_ne_zero (one_add_crossTerm_ne_zero h1 h2) (one_sub_crossTerm_ne_zero h1 h2)
  have heq := curve_equation_of_numerators h1 h2
  rw [← hx, ← hy] at heq
  exact zmod_mul_left_cancel (zmod_mul_ne_zero hne hne) (by linear_combination heq)

end Addition

theorem isCurveSum_comm {x1 y1 x2 y2 x3 y3 : ZMod prime} (h : isCurveSum x1 y1 x2 y2 x3 y3) :
    isCurveSum x2 y2 x1 y1 x3 y3 := by
  obtain ⟨hx, hy⟩ := h
  unfold crossTerm at hx hy
  constructor
  · unfold crossTerm
    linear_combination hx
  · unfold crossTerm
    linear_combination hy

/-- (0, 1) is the neutral element. -/
theorem isCurveSum_zero_one (x y : ZMod prime) : isCurveSum x y 0 1 x y := by
  simp [isCurveSum, crossTerm]

/-! ### Registers that hold points (R151) -/

theorem exists_represents_of_validPoint {v : Vfe} (h : validPoint v) : ∃ x y, represents v x y := by
  obtain ⟨hz, hseg, hcurve⟩ := h
  obtain ⟨x, hx⟩ := zmod_exists_mul_eq hz (fe v.a)
  obtain ⟨y, hy⟩ := zmod_exists_mul_eq hz (fe v.b)
  have ht : fe v.d = x * y * fe v.c := by
    refine zmod_mul_left_cancel hz ?_
    rw [← hseg, ← hx, ← hy]
    ring
  refine ⟨x, y, hz, ⟨hx.symm, hy.symm, ht⟩, zmod_mul_left_cancel (zmod_mul_ne_zero hz hz) ?_⟩
  rw [← hx, ← hy, ht] at hcurve
  linear_combination hcurve

theorem samePoint_of_represents {v w : Vfe} {x y : ZMod prime} (hv : represents v x y) (hw : represents w x y) :
    samePoint v w := by
  obtain ⟨-, ⟨hva, hvb, -⟩, -⟩ := hv
  obtain ⟨-, ⟨hwa, hwb, -⟩, -⟩ := hw
  constructor
  · rw [hva, hwa]
    ring
  · rw [hvb, hwb]
    ring

/-- The four products in which both formulas end: X = E*F, Y = G*H, Z = F*G, T = E*H (R154, R156). -/
def factored (v : Vfe) (e f g h : ZMod prime) : Prop :=
  fe v.a = e * f ∧ fe v.b = g * h ∧ fe v.c = f * g ∧ fe v.d = e * h

/-- Such a register holds (E/G, H/F). -/
theorem represents_of_factored {v : Vfe} {e f g h x y : ZMod prime} (hv : factored v e f g h) (hf : f ≠ 0) (hg : g ≠ 0)
    (hx : e = x * g) (hy : h = y * f) (hxy : onCurve x y) : represents v x y := by
  obtain ⟨ha, hb, hc, hd⟩ := hv
  subst hx hy
  refine ⟨?_, ⟨?_, ?_, ?_⟩, hxy⟩
  · rw [hc]
    exact zmod_mul_ne_zero hf hg
  · rw [ha, hc]
    ring
  · rw [hb, hc]
    ring
  · rw [hd, hc]
    ring

end Sys2Proof.Machine
end

section
/-! PROOFS. Sums of class-N slots (70_reset_and_hazards.md R224, R225): how many class-N summands a slot counts for and
the field element it holds, carried together through the lane and field functions the point sequences use. -/

namespace Sys2Proof.Machine

/-! ### One slot -/

/-- x holds the field element e, with limbs no larger than those of a sum of n class-N limb vectors. -/
structure slotHolds (n : Nat) (x : LimbVec) (e : ZMod prime) : Prop where
  le : ∀ i, (x.get i).toNat ≤ n * (nearLimit i - 1)
  fe_eq : fe x = e

section SlotRules
variable {m n : Nat} {x y : LimbVec} {e f : ZMod prime}

theorem slotHolds_of_isNear (h : isNear x) : slotHolds 1 x (fe x) :=
  ⟨fun i => by have := h i; omega, rfl⟩

theorem slotHolds.toNear (h : slotHolds 1 x e) : isNear x := fun i => by
  have hpos : ∀ i, 0 < nearLimit i := by decide
  have := h.le i
  have := hpos i
  omega

/-- A bound for more summands, the field element written another way. -/
theorem slotHolds.weaken (h : slotHolds m x e) (hmn : m ≤ n) (hef : e = f) : slotHolds n x f :=
  ⟨fun i => (h.le i).trans (Nat.mul_le_mul_right _ hmn), h.fe_eq.trans hef⟩

/-- Five class-N summands stay in class W (R225). -/
theorem slotHolds.toWide (h : slotHolds n x e) (hn : n ≤ 5) : isWide x := fun i => by
  have hlt : ∀ i, 5 * (nearLimit i - 1) < wideLimit i := by decide
  exact ((h.weaken hn rfl).le i).trans_lt (hlt i)

theorem slotHolds.add (hx : slotHolds m x e) (hy : slotHolds n y f) (hmn : m + n ≤ 5) :
    slotHolds (m + n) (addSlot x y) (e + f) := by
  obtain ⟨hxle, rfl⟩ := hx
  obtain ⟨hyle, rfl⟩ := hy
  have hle : ∀ i, (x.get i).toNat + (y.get i).toNat ≤ (m + n) * (nearLimit i - 1) := fun i => by
    rw [Nat.add_mul]
    exact add_le_add (hxle i) (hyle i)
  have hfits : addFits x y := fun i => by
    have hlt : ∀ i, 5 * (nearLimit i - 1) < 2 ^ 32 := by decide
    exact (hle i).trans_lt ((Nat.mul_le_mul_right _ hmn).trans_lt (hlt i))
  exact ⟨fun i => (addSlot_get_toNat hfits i).trans_le (hle i), fe_addSlot hfits⟩

/-- A negation with 2p counts for two summands. -/
theorem slotHolds.neg (h : slotHolds 1 x e) : slotHolds 2 (negSlot 2 x) (-e) := by
  have hle : ∀ i, multipleLimb 2 i ≤ 2 * (nearLimit i - 1) := by decide
  have hx := withinMultiple_two_of_isNear h.toNear
  exact ⟨fun i => (withinMultiple_negSlot (by decide) hx i).trans (hle i), by rw [fe_negSlot (by decide) hx, h.fe_eq]⟩

theorem slotHolds.mul (hx : slotHolds m x e) (hm : m ≤ 5) (hy : isWide y) : slotHolds 1 (mulSlot x y) (e * fe y) := by
  rw [← hx.fe_eq, ← fe_mulSlot (hx.toWide hm) hy]
  exact slotHolds_of_isNear (isNear_mulSlot (hx.toWide hm) hy)

theorem slotHolds.mulHolds (hx : slotHolds m x e) (hm : m ≤ 5) (hy : slotHolds n y f) (hn : n ≤ 5) :
    slotHolds 1 (mulSlot x y) (e * f) := by
  rw [← hy.fe_eq]
  exact hx.mul hm (hy.toWide hn)

end SlotRules

/-- A zero slot counts for no summand. -/
theorem slotHolds_zero : slotHolds 0 (small 0#32) 0 := by
  refine ⟨by decide, ?_⟩
  simp [fe, val, small]

/-! ### A VFE -/

/-- The four slots of v hold the four field elements, each at most a sum of n class-N limb vectors. -/
structure vfeHolds (n : Nat) (v : Vfe) (x y z t : ZMod prime) : Prop where
  a : slotHolds n v.a x
  b : slotHolds n v.b y
  c : slotHolds n v.c z
  d : slotHolds n v.d t

section VfeRules
variable {v : Vfe} {x y z t : ZMod prime}

theorem vfeHolds_of_nearVfe (h : nearVfe v) : vfeHolds 1 v (fe v.a) (fe v.b) (fe v.c) (fe v.d) := by
  obtain ⟨ha, hb, hc, hd⟩ := h
  exact ⟨slotHolds_of_isNear ha, slotHolds_of_isNear hb, slotHolds_of_isNear hc, slotHolds_of_isNear hd⟩

theorem vfeHolds.toNear (h : vfeHolds 1 v x y z t) : nearVfe v :=
  ⟨h.a.toNear, h.b.toNear, h.c.toNear, h.d.toNear⟩

end VfeRules

end Sys2Proof.Machine
end

section
/-! PROOFS. What the point sequences compute (42_point_ops.md R153 to R158), slot by slot as field elements, and the
points the results represent. -/

namespace Sys2Proof.Machine

/-! ### The sequences slot by slot -/

/-! VNEG, VBLEND and VSHUF with the masks and selectors the sequences name. -/

theorem vnegFn_maskD (k : Nat) (v : Vfe) : vnegFn k v maskD = ⟨v.a, v.b, v.c, negSlot k v.d⟩ := rfl

theorem vnegFn_maskAC (k : Nat) (v : Vfe) : vnegFn k v maskAC = ⟨negSlot k v.a, v.b, negSlot k v.c, v.d⟩ := rfl

theorem vnegFn_maskAD (k : Nat) (v : Vfe) : vnegFn k v maskAD = ⟨negSlot k v.a, v.b, v.c, negSlot k v.d⟩ := rfl

theorem vnegFn_maskABCD (k : Nat) (v : Vfe) :
    vnegFn k v maskABCD = ⟨negSlot k v.a, negSlot k v.b, negSlot k v.c, negSlot k v.d⟩ := rfl

theorem vblendFn_maskAB (v w : Vfe) : vblendFn v w maskAB = ⟨w.a, w.b, v.c, v.d⟩ := rfl

theorem vshufFn_selABDC (v : Vfe) : vshufFn v selABDC = ⟨v.a, v.b, v.d, v.c⟩ := rfl

theorem vmulFn_eq (v w : Vfe) : vmulFn v w = ⟨mulSlot v.a w.a, mulSlot v.b w.b, mulSlot v.c w.c, mulSlot v.d w.d⟩ := rfl

/-! DiffSum, Cache, AddC, Dbl and PNEG, as slots of slots. -/

theorem diffSum_eq (v : Vfe) :
    diffSum v = ⟨addSlot v.b (negSlot 2 v.a), addSlot v.a v.b, addSlot v.d (negSlot 2 v.c), addSlot v.c v.d⟩ := by
  rw [diffSum, vnegFn_maskAC]
  rfl

theorem cache_eq (v : Vfe) :
    cache v =
      ⟨mulSlot (diffSum v).a romKcache.a, mulSlot (diffSum v).b romKcache.b, mulSlot v.c romKcache.c,
        mulSlot v.d romKcache.d⟩ := by
  rw [cache, vblendFn_maskAB, vmulFn_eq]

/-- The second DiffSum of AddC takes the products with C and D exchanged, (A, B, D, C). -/
theorem addcSums_eq (a c : Vfe) :
    addcSums a c =
      diffSum ⟨mulSlot (diffSum a).a c.a, mulSlot (diffSum a).b c.b, mulSlot a.d c.d, mulSlot a.c c.c⟩ := by
  change diffSum (vshufFn (vmulFn (vblendFn a (diffSum a) maskAB) c) selABDC) = _
  rw [vblendFn_maskAB, vmulFn_eq, vshufFn_selABDC]

theorem addC_eq (a c : Vfe) :
    addC a c =
      ⟨mulSlot (addcSums a c).a (addcSums a c).c, mulSlot (addcSums a c).d (addcSums a c).b,
        mulSlot (addcSums a c).d (addcSums a c).c, mulSlot (addcSums a c).a (addcSums a c).b⟩ := rfl

theorem dblSquares_eq (v : Vfe) :
    dblSquares v =
      ⟨mulSlot v.a v.a, mulSlot v.b v.b, mulSlot v.c v.c, mulSlot (addSlot v.b v.a) (addSlot v.b v.a)⟩ := rfl

theorem dblSums_eq (v : Vfe) :
    dblSums v =
      ⟨addSlot (addSlot (addSlot (small 0#32) v.a) v.b) (small 0#32),
        addSlot (addSlot (addSlot (small 0#32) v.a) (small 0#32)) (negSlot 2 v.b),
        addSlot (addSlot (addSlot (addSlot v.c v.c) v.a) (small 0#32)) (negSlot 2 v.b),
        addSlot (addSlot (addSlot (negSlot 2 v.d) v.a) v.b) (small 0#32)⟩ := by
  rw [dblSums, vnegFn_maskD, vnegFn_maskABCD]
  rfl

theorem dbl_eq (v : Vfe) :
    dbl v =
      ⟨mulSlot (dblSums (dblSquares v)).c (dblSums (dblSquares v)).d,
        mulSlot (dblSums (dblSquares v)).a (dblSums (dblSquares v)).b,
        mulSlot (dblSums (dblSquares v)).c (dblSums (dblSquares v)).b,
        mulSlot (dblSums (dblSquares v)).a (dblSums (dblSquares v)).d⟩ := rfl

theorem pnegFn_eq (v : Vfe) :
    pnegFn v =
      ⟨reduceLazySlot (negSlot 2 v.a), reduceLazySlot v.b, reduceLazySlot v.c, reduceLazySlot (negSlot 2 v.d)⟩ := by
  rw [pnegFn, vnegFn_maskAD]
  rfl

/-- The products of a last VMUL, in any order of their factors. -/
theorem nearVfe_and_factored {v : Vfe} {x y z t e f g h : ZMod prime} (hv : vfeHolds 1 v x y z t) (hx : x = e * f)
    (hy : y = g * h) (hz : z = f * g) (ht : t = e * h) : nearVfe v ∧ factored v e f g h :=
  ⟨hv.toNear, hv.a.fe_eq.trans hx, hv.b.fe_eq.trans hy, hv.c.fe_eq.trans hz, hv.d.fe_eq.trans ht⟩

/-! ### DiffSum and Cache (R153, R155) -/

section Sequences
variable {a c v : Vfe} {x y z t : ZMod prime}

theorem diffSum_holds (h : vfeHolds 1 v x y z t) : vfeHolds 3 (diffSum v) (y - x) (y + x) (t - z) (t + z) := by
  rw [diffSum_eq]
  exact ⟨(h.b.add h.a.neg (by decide)).weaken le_rfl (by ring), (h.a.add h.b (by decide)).weaken (by decide) (by ring),
    (h.d.add h.c.neg (by decide)).weaken le_rfl (by ring), (h.c.add h.d (by decide)).weaken (by decide) (by ring)⟩

/-- KCACHE holds (1, 1, 2, 2d) (43_rom_contents.md R183). -/
theorem romKcache_holds : vfeHolds 1 romKcache 1 1 2 (2 * dField) := by
  have hnear : nearVfe romKcache := by decide
  have h := vfeHolds_of_nearVfe hnear
  have ha : fe romKcache.a = ((1 : Nat) : ZMod prime) := Tests.fe_of_val (by decide)
  have hb : fe romKcache.b = ((1 : Nat) : ZMod prime) := Tests.fe_of_val (by decide)
  have hc : fe romKcache.c = ((2 : Nat) : ZMod prime) := Tests.fe_of_val (by decide)
  have hd : fe romKcache.d = ((2 * curveD : Nat) : ZMod prime) :=
    (ZMod.natCast_eq_natCast_iff' _ _ _).2 (by decide)
  refine ⟨h.a.weaken le_rfl ?_, h.b.weaken le_rfl ?_, h.c.weaken le_rfl ?_, h.d.weaken le_rfl ?_⟩
  · rw [ha, Nat.cast_one]
  · rw [hb, Nat.cast_one]
  · rw [hc, Nat.cast_two]
  · rw [hd, Nat.cast_mul, Nat.cast_two, dField]

theorem cache_holds (h : vfeHolds 1 v x y z t) :
    vfeHolds 1 (cache v) (y - x) (y + x) (2 * z) (2 * dField * t) := by
  have hs := diffSum_holds h
  have hk := romKcache_holds
  rw [cache_eq]
  exact ⟨(hs.a.mulHolds (by decide) hk.a (by decide)).weaken le_rfl (by ring),
    (hs.b.mulHolds (by decide) hk.b (by decide)).weaken le_rfl (by ring),
    (h.c.mulHolds (by decide) hk.c (by decide)).weaken le_rfl (by ring),
    (h.d.mulHolds (by decide) hk.d (by decide)).weaken le_rfl (by ring)⟩

theorem cachedForm_cache (h : nearVfe v) : cachedForm (cache v) v := by
  have hc := cache_holds (vfeHolds_of_nearVfe h)
  exact ⟨hc.a.fe_eq, hc.b.fe_eq, hc.c.fe_eq, hc.d.fe_eq⟩

/-! ### AddC (R156) -/

/-- Slots (E, H, F, G) (R156). -/
theorem addcSums_holds (h : vfeHolds 1 a x y z t) (hc : wideVfe c) :
    vfeHolds 3 (addcSums a c)
      ((y + x) * fe c.b - (y - x) * fe c.a) ((y + x) * fe c.b + (y - x) * fe c.a)
      (z * fe c.c - t * fe c.d) (z * fe c.c + t * fe c.d) := by
  obtain ⟨hca, hcb, hcc, hcd⟩ := hc
  have hs := diffSum_holds h
  rw [addcSums_eq]
  exact diffSum_holds
    ⟨hs.a.mul (by decide) hca, hs.b.mul (by decide) hcb, h.d.mul (by decide) hcd, h.c.mul (by decide) hcc⟩

/-- AddC ends in the four products of E, F, G, H. -/
theorem addC_factored (h : vfeHolds 1 a x y z t) (hc : wideVfe c) :
    nearVfe (addC a c) ∧
    factored (addC a c) ((y + x) * fe c.b - (y - x) * fe c.a) (z * fe c.c - t * fe c.d) (z * fe c.c + t * fe c.d)
      ((y + x) * fe c.b + (y - x) * fe c.a) := by
  have hs := addcSums_holds h hc
  rw [addC_eq]
  exact nearVfe_and_factored ⟨hs.a.mulHolds (by decide) hs.c (by decide), hs.d.mulHolds (by decide) hs.b (by decide),
    hs.d.mulHolds (by decide) hs.c (by decide), hs.a.mulHolds (by decide) hs.b (by decide)⟩
      rfl rfl (mul_comm _ _) rfl

/-! ### Dbl (R154) -/

theorem dblSquares_holds (h : vfeHolds 1 v x y z t) :
    vfeHolds 1 (dblSquares v) (x * x) (y * y) (z * z) ((y + x) * (y + x)) := by
  have hs := h.b.add h.a (by decide)
  rw [dblSquares_eq]
  exact ⟨h.a.mulHolds (by decide) h.a (by decide), h.b.mulHolds (by decide) h.b (by decide),
    h.c.mulHolds (by decide) h.c (by decide), hs.mulHolds (by decide) hs (by decide)⟩

/-- Slots (S5, S6, S8, S9) (R154): the third slot counts for five summands, the most that class W holds. -/
theorem dblSums_holds (h : vfeHolds 1 v x y z t) :
    vfeHolds 5 (dblSums v) (x + y) (x - y) (2 * z + x - y) (x + y - t) := by
  have hzero := slotHolds_zero
  have hy := h.b.neg
  rw [dblSums_eq]
  exact ⟨(((hzero.add h.a (by decide)).add h.b (by decide)).add hzero (by decide)).weaken (by decide) (by ring),
    (((hzero.add h.a (by decide)).add hzero (by decide)).add hy (by decide)).weaken (by decide) (by ring),
    ((((h.c.add h.c (by decide)).add h.a (by decide)).add hzero (by decide)).add hy (by decide)).weaken le_rfl (by ring),
    (((h.d.neg.add h.a (by decide)).add h.b (by decide)).add hzero (by decide)).weaken (by decide) (by ring)⟩

/-- Dbl ends in the four products of S9, S8, S6, S5. -/
theorem dbl_factored (h : vfeHolds 1 v x y z t) :
    nearVfe (dbl v) ∧
    factored (dbl v) (-2 * x * y) (2 * z ^ 2 + x ^ 2 - y ^ 2) (x ^ 2 - y ^ 2) (x ^ 2 + y ^ 2) := by
  have hs := dblSums_holds (dblSquares_holds h)
  rw [dbl_eq]
  exact nearVfe_and_factored ⟨hs.c.mulHolds (by decide) hs.d (by decide), hs.a.mulHolds (by decide) hs.b (by decide),
    hs.c.mulHolds (by decide) hs.b (by decide), hs.a.mulHolds (by decide) hs.d (by decide)⟩
      (by ring) (by ring) (by ring) (by ring)

/-! ### Class N in, class N out (R161) -/

theorem nearVfe_dbl (h : nearVfe v) : nearVfe (dbl v) := (dbl_factored (vfeHolds_of_nearVfe h)).1

theorem nearVfe_addC (ha : nearVfe a) (hc : wideVfe c) : nearVfe (addC a c) :=
  (addC_factored (vfeHolds_of_nearVfe ha) hc).1

theorem nearVfe_cache (h : nearVfe v) : nearVfe (cache v) := (cache_holds (vfeHolds_of_nearVfe h)).toNear

theorem wideVfe_of_nearVfe (h : nearVfe v) : wideVfe v :=
  wideVfe_iff.2 fun sl => isWide_of_isNear (nearVfe_iff.1 h sl)

/-- PNEG ends in a lazy reduction, which takes every input to class N. -/
theorem nearVfe_pnegFn (v : Vfe) : nearVfe (pnegFn v) := by
  rw [pnegFn_eq]
  exact ⟨isNear_reduceLazySlot _, isNear_reduceLazySlot _, isNear_reduceLazySlot _, isNear_reduceLazySlot _⟩

end Sequences

end Sys2Proof.Machine
end

section
/-! PROOFS. The point commands PCACHE, PADD and PNEG (42_point_ops.md R155, R157, R158), and chains of point commands
(R161). -/

namespace Sys2Proof.Machine

/-! ### The points the sequences compute -/

section Points
variable {a b c v w : Vfe} {x y x1 y1 x2 y2 x3 y3 : ZMod prime}

theorem represents_addC (ha : nearVfe a) (hc : wideVfe c) (hP : represents a x1 y1) (hQ : represents w x2 y2)
    (hw : cachedForm c w) (hsum : isCurveSum x1 y1 x2 y2 x3 y3) : represents (addC a c) x3 y3 := by
  obtain ⟨hza, ⟨hax, hay, hat⟩, h1⟩ := hP
  obtain ⟨hzw, ⟨hwx, hwy, hwt⟩, h2⟩ := hQ
  obtain ⟨hca, hcb, hcc, hcd⟩ := hw
  have hz : 2 * fe a.c * fe w.c ≠ 0 := zmod_mul_ne_zero (zmod_mul_ne_zero zmod_two_ne_zero hza) hzw
  have hF : fe a.c * fe c.c - fe a.d * fe c.d = 2 * fe a.c * fe w.c * (1 - crossTerm x1 y1 x2 y2) := by
    rw [hcc, hcd, hat, hwt, crossTerm]
    ring
  have hG : fe a.c * fe c.c + fe a.d * fe c.d = 2 * fe a.c * fe w.c * (1 + crossTerm x1 y1 x2 y2) := by
    rw [hcc, hcd, hat, hwt, crossTerm]
    ring
  have hcurve := onCurve_of_isCurveSum h1 h2 hsum
  obtain ⟨hx, hy⟩ := hsum
  refine represents_of_factored (addC_factored (vfeHolds_of_nearVfe ha) hc).2 ?_ ?_ ?_ ?_ hcurve
  · rw [hF]
    exact zmod_mul_ne_zero hz (one_sub_crossTerm_ne_zero h1 h2)
  · rw [hG]
    exact zmod_mul_ne_zero hz (one_add_crossTerm_ne_zero h1 h2)
  · rw [hG, hca, hcb, hax, hay, hwx, hwy]
    linear_combination (-2 * fe a.c * fe w.c) * hx
  · rw [hF, hca, hcb, hax, hay, hwx, hwy]
    linear_combination (-2 * fe a.c * fe w.c) * hy

theorem represents_dbl (ha : nearVfe a) (hP : represents a x y) (hsum : isCurveSum x y x y x3 y3) :
    represents (dbl a) x3 y3 := by
  obtain ⟨hza, ⟨hax, hay, -⟩, h1⟩ := hP
  have hz := zmod_mul_ne_zero hza hza
  have hcross : crossTerm x y x y = y ^ 2 - x ^ 2 - 1 := by
    unfold onCurve at h1
    unfold crossTerm
    linear_combination -h1
  have hF : 2 * fe a.c ^ 2 + fe a.a ^ 2 - fe a.b ^ 2 = fe a.c * fe a.c * (1 - crossTerm x y x y) := by
    rw [hcross, hax, hay]
    ring
  have hG : fe a.a ^ 2 - fe a.b ^ 2 = fe a.c * fe a.c * -(1 + crossTerm x y x y) := by
    rw [hcross, hax, hay]
    ring
  have hcurve := onCurve_of_isCurveSum h1 h1 hsum
  obtain ⟨hx, hy⟩ := hsum
  refine represents_of_factored (dbl_factored (vfeHolds_of_nearVfe ha)).2 ?_ ?_ ?_ ?_ hcurve
  · rw [hF]
    exact zmod_mul_ne_zero hz (one_sub_crossTerm_ne_zero h1 h1)
  · rw [hG]
    exact zmod_mul_ne_zero hz (neg_ne_zero.2 (one_add_crossTerm_ne_zero h1 h1))
  · rw [hG, hax, hay]
    linear_combination (fe a.c * fe a.c) * hx
  · rw [hF, hax, hay]
    linear_combination (-fe a.c * fe a.c) * hy

theorem onCurve_of_represents (h : represents v x y) : onCurve x y := by
  obtain ⟨-, -, hxy⟩ := h
  exact hxy

/-- AddC of a register and the Cache of another adds their points (R157). -/
theorem represents_addC_cache (ha : nearVfe a) (hb : nearVfe b) (hP : represents a x1 y1) (hQ : represents b x2 y2)
    (hsum : isCurveSum x1 y1 x2 y2 x3 y3) : represents (addC a (cache b)) x3 y3 :=
  represents_addC ha (wideVfe_of_nearVfe (nearVfe_cache hb)) hP hQ (cachedForm_cache hb) hsum

theorem exists_represents_addC_cache (ha : nearVfe a) (hb : nearVfe b) (hP : represents a x1 y1)
    (hQ : represents b x2 y2) : ∃ x3 y3, represents (addC a (cache b)) x3 y3 ∧ isCurveSum x1 y1 x2 y2 x3 y3 := by
  obtain ⟨x3, y3, hsum⟩ := exists_isCurveSum (onCurve_of_represents hP) (onCurve_of_represents hQ)
  exact ⟨x3, y3, represents_addC_cache ha hb hP hQ hsum, hsum⟩

theorem samePoint_addC_ident (ha : nearVfe a) (hv : validPoint a) : samePoint (addC a (cache romIdent)) a := by
  obtain ⟨x, y, hP⟩ := exists_represents_of_validPoint hv
  have hnear : nearVfe romIdent := by decide
  exact samePoint_of_represents (represents_addC_cache ha hnear hP Tests.ident_represents (isCurveSum_zero_one x y)) hP

theorem samePoint_addC_dbl (ha : nearVfe a) (hv : validPoint a) : samePoint (addC a (cache a)) (dbl a) := by
  obtain ⟨x, y, hP⟩ := exists_represents_of_validPoint hv
  obtain ⟨x3, y3, hR, hsum⟩ := exists_represents_addC_cache ha ha hP hP
  exact samePoint_of_represents hR (represents_dbl ha hP hsum)

theorem samePoint_addC_comm (ha : nearVfe a) (hb : nearVfe b) (hva : validPoint a) (hvb : validPoint b) :
    samePoint (addC a (cache b)) (addC b (cache a)) := by
  obtain ⟨x1, y1, hP⟩ := exists_represents_of_validPoint hva
  obtain ⟨x2, y2, hQ⟩ := exists_represents_of_validPoint hvb
  obtain ⟨x3, y3, hR, hsum⟩ := exists_represents_addC_cache ha hb hP hQ
  exact samePoint_of_represents hR (represents_addC_cache hb ha hQ hP (isCurveSum_comm hsum))

end Points

/-! ### PCACHE (R155) -/

/-- The identity caches to (1, 1, 2, 0). -/
theorem fe_cache_romIdent :
    fe (cache romIdent).a = 1 ∧ fe (cache romIdent).b = 1 ∧ fe (cache romIdent).c = 2 ∧ fe (cache romIdent).d = 0 := by
  have ha : fe romIdent.a = ((0 : Nat) : ZMod prime) := Tests.fe_of_val (by decide)
  have hb : fe romIdent.b = ((1 : Nat) : ZMod prime) := Tests.fe_of_val (by decide)
  have hc : fe romIdent.c = ((1 : Nat) : ZMod prime) := Tests.fe_of_val (by decide)
  have hd : fe romIdent.d = ((0 : Nat) : ZMod prime) := Tests.fe_of_val (by decide)
  obtain ⟨hca, hcb, hcc, hcd⟩ := cachedForm_cache (v := romIdent) (by decide)
  rw [hca, hcb, hcc, hcd, ha, hb, hc, hd]
  simp

/-- The two tables of the ROM, by running PCACHE and VRED.F on the eight entries (43_rom_contents.md R186). -/
theorem vredFFn_cache_table :
    ∀ i : Fin 8,
      (rom (BitVec.ofNat 5 (8 + i.val))).map (fun v => vredFFn (cache v)) = rom (BitVec.ofNat 5 (16 + i.val)) := by
  decide +kernel

/-- Settles O55: the products with KCACHE's (1, 1, 2, 2d) are the cached form; the ROM's tables by running PCACHE. -/
theorem pcacheWritesTheCachedForm : Obligations.PcacheWritesTheCachedForm := by
  refine ⟨fun fd fa s => ?_, fe_cache_romIdent, fun i v c hv hc => ?_⟩
  · obtain ⟨t, ht, hret⟩ := retire_retires s fd (cache (s.field fa))
    exact ⟨t, _, ht, hret, rfl, fun h => ⟨nearVfe_cache h, cachedForm_cache h⟩⟩
  · have htable := vredFFn_cache_table i
    rw [hv, hc] at htable
    exact Option.some.inj htable

/-! ### PADD (R157) -/

theorem complete_field_ne {s : State} {r q : FReg} (v : Vfe) (h : q ≠ r) (hw : s.written.get q = true) :
    (s.writeField r v).complete.field q = s.field q := by
  have hw' : (s.writeField r v).complete.written.get q = true := (writeField_written_ne s v h).trans hw
  rw [field_of_written hw', field_of_written hw]
  exact writeField_f_ne s v h

/-- PCACHE into a third register and then PADDC leave PADD's words in fd. -/
theorem exec_pcache_then_paddc {fa ft : FReg} (fd fb : FReg) {s : State} (hne : ft ≠ fa)
    (hw : s.written.get fa = true) :
    ∃ u w, exec (.pcache ft fb) s = .next u ∧ exec (.paddc fd fa ft) u = .next w ∧
      w.f.get fd = addC (s.field fa) (cache (s.field fb)) := by
  refine ⟨_, _, rfl, rfl, ?_⟩
  rw [complete_f, writeField_f_self, complete_field_ne _ hne.symm hw, writeField_complete_field_self]

/-- Settles O57: AddC of the cached operand represents the curve sum, from which the identity, the doubling and the
order of the operands follow as points. -/
theorem paddAddsThePoints : Obligations.PaddAddsThePoints := by
  refine ⟨fun fd fa fb s => ?_, fun a ha hv => ⟨samePoint_addC_ident ha hv, samePoint_addC_dbl ha hv⟩,
    fun a b => samePoint_addC_comm⟩
  obtain ⟨t, ht, hret⟩ := retire_retires s fd (addC (s.field fa) (cache (s.field fb)))
  exact ⟨t, _, ht, hret, rfl, fun ft => exec_pcache_then_paddc fd fb,
    fun ha hb => ⟨nearVfe_addC ha (wideVfe_of_nearVfe (nearVfe_cache hb)),
      fun x1 y1 x2 y2 => exists_represents_addC_cache ha hb⟩⟩

/-! ### PNEG (R158) -/

section Negation
variable {a c v : Vfe} {x y : ZMod prime}

theorem fe_reduceLazySlot_negSlot {x : LimbVec} (h : withinMultiple 2 x) :
    fe (reduceLazySlot (negSlot 2 x)) = -fe x := by
  rw [fe_reduceLazySlot, fe_negSlot (by decide) h]

theorem fe_pnegFn (ha : withinMultiple 2 v.a) (hd : withinMultiple 2 v.d) :
    fe (pnegFn v).a = -fe v.a ∧ fe (pnegFn v).b = fe v.b ∧ fe (pnegFn v).c = fe v.c ∧ fe (pnegFn v).d = -fe v.d := by
  rw [pnegFn_eq]
  exact ⟨fe_reduceLazySlot_negSlot ha, fe_reduceLazySlot _, fe_reduceLazySlot _, fe_reduceLazySlot_negSlot hd⟩

theorem represents_pnegFn (ha : withinMultiple 2 v.a) (hd : withinMultiple 2 v.d) (hP : represents v x y) :
    represents (pnegFn v) (-x) y := by
  obtain ⟨hz, ⟨hx, hy, ht⟩, hxy⟩ := hP
  obtain ⟨na, nb, nc, nd⟩ := fe_pnegFn ha hd
  refine ⟨?_, ⟨?_, ?_, ?_⟩, ?_⟩
  · rwa [nc]
  · rw [na, nc, hx, neg_mul]
  · rw [nb, nc, hy]
  · rw [nd, nc, ht, neg_mul, neg_mul]
  · rw [onCurve, neg_sq]
    exact hxy

theorem represents_pnegFn_pnegFn (ha : withinMultiple 2 v.a) (hd : withinMultiple 2 v.d) (hP : represents v x y) :
    represents (pnegFn (pnegFn v)) x y := by
  obtain ⟨na, -, -, nd⟩ := nearVfe_pnegFn v
  have h := represents_pnegFn (withinMultiple_two_of_isNear na) (withinMultiple_two_of_isNear nd)
    (represents_pnegFn ha hd hP)
  rwa [neg_neg] at h

theorem reduceLazySlot_of_isCanon {x : LimbVec} (h : isCanon x) : reduceLazySlot x = x :=
  reduceLazySlot_of_withinMasks (isCanon_iff.1 h).1

theorem pnegFn_b (h : isCanon v.b) : (pnegFn v).b = v.b := by
  rw [pnegFn_eq]
  exact reduceLazySlot_of_isCanon h

theorem pnegFn_c (h : isCanon v.c) : (pnegFn v).c = v.c := by
  rw [pnegFn_eq]
  exact reduceLazySlot_of_isCanon h

/-- Exchanging slots A and B and negating D turns a cached form into that of the opposite point. -/
theorem cachedForm_pnegFn (h : cachedForm c v) (hc : withinMultiple 2 c.d) (ha : withinMultiple 2 v.a)
    (hd : withinMultiple 2 v.d) : cachedForm (vnegFn 2 (vshufFn c 0xE1#8) maskD) (pnegFn v) := by
  obtain ⟨hca, hcb, hcc, hcd⟩ := h
  obtain ⟨na, nb, nc, nd⟩ := fe_pnegFn ha hd
  have hshuf : vshufFn c 0xE1#8 = ⟨c.b, c.a, c.c, c.d⟩ := rfl
  rw [hshuf, vnegFn_maskD]
  refine ⟨?_, ?_, ?_, ?_⟩
  · rw [na, nb, hcb, sub_neg_eq_add]
  · rw [na, nb, hca, sub_eq_add_neg]
  · rw [nc, hcc]
  · rw [nd, fe_negSlot (by decide) hc, hcd, mul_neg]

end Negation

/-- Of the identity, slots A and D become the limbs of p: kp(2, .) carried once. -/
theorem pnegFn_romIdent : pnegFn romIdent = ⟨multiple 1, romIdent.b, romIdent.c, multiple 1⟩ := by
  decide

/-- Settles O58: a lazily reduced negation with 2p holds the opposite field element. -/
theorem pnegNegatesThePoint : Obligations.PnegNegatesThePoint := by
  refine ⟨fun fd fa s => ?_, fun c v => cachedForm_pnegFn, pnegFn_romIdent⟩
  obtain ⟨t, ht, hret⟩ := retire_retires s fd (pnegFn (s.field fa))
  exact ⟨t, _, ht, hret, rfl, nearVfe_pnegFn _, pnegFn_b, pnegFn_c,
    fun ha hd x y hP => ⟨represents_pnegFn ha hd hP, represents_pnegFn_pnegFn ha hd hP⟩⟩

/-! ### Chains of point commands (R161) -/

/-- A point command on class-N sources writes a class-N value into its destination. -/
theorem exec_of_isPointCommand {i : Instr} {s : State} (hi : isPointCommand i = true)
    (hs : ∀ r ∈ sourcesOf i, nearVfe (s.field r)) :
    ∃ fd v, destinationOf i = some fd ∧ exec i s = s.retire fd v ∧ nearVfe v := by
  cases i with
  | pdbl fd fa => exact ⟨fd, _, rfl, rfl, nearVfe_dbl (hs fa (by simp [sourcesOf]))⟩
  | padd fd fa fb =>
    exact ⟨fd, _, rfl, rfl, nearVfe_addC (hs fa (by simp [sourcesOf]))
      (wideVfe_of_nearVfe (nearVfe_cache (hs fb (by simp [sourcesOf]))))⟩
  | paddc fd fa fc =>
    exact ⟨fd, _, rfl, rfl, nearVfe_addC (hs fa (by simp [sourcesOf]))
      (wideVfe_of_nearVfe (hs fc (by simp [sourcesOf])))⟩
  | pcache fd fa => exact ⟨fd, _, rfl, rfl, nearVfe_cache (hs fa (by simp [sourcesOf]))⟩
  | pneg fd fa => exact ⟨fd, _, rfl, rfl, nearVfe_pnegFn _⟩
  | _ => cases hi

theorem decode_encode_of_isPointCommand {i : Instr} (hi : isPointCommand i = true) : decode (encode i) = .ok i := by
  cases i with
  | pdbl | padd | paddc | pcache | pneg => simp [decode, encode, decodeR2, decodeR3]
  | _ => cases hi

/-- All sixteen registers are written and in class N. -/
def registersNear (s : State) : Prop := ∀ r : FReg, s.written.get r = true ∧ nearVfe (s.f.get r)

theorem nearVfe_field {s : State} (h : registersNear s) (r : FReg) : nearVfe (s.field r) := by
  obtain ⟨hw, hn⟩ := h r
  rwa [field_of_written hw]

theorem registersNear_writeField {s : State} {v : Vfe} (h : registersNear s) (fd : FReg) (hv : nearVfe v) :
    registersNear (s.writeField fd v).complete := by
  intro r
  rw [complete_written, complete_f]
  by_cases hr : r = fd
  · subst hr
    rw [writeField_written_self, writeField_f_self]
    exact ⟨rfl, hv⟩
  · rw [writeField_written_ne s v hr, writeField_f_ne s v hr]
    exact h r

/-- One issued point command keeps the registers in class N and completes. -/
theorem runCommand_of_isPointCommand {i : Instr} {s : State} (hi : isPointCommand i = true) (hf : s.faulted = false)
    (h : registersNear s) :
    ∃ t, s.runCommand (encode i) = .next t ∧ t.faulted = false ∧ t.pc = s.pc + 1#32 ∧ t.port = s.port ∧
      registersNear t := by
  obtain ⟨fd, v, -, hexec, hv⟩ := exec_of_isPointCommand hi fun r _ => nearVfe_field h r
  refine ⟨(s.writeField fd v).complete, ?_, hf, rfl, rfl, registersNear_writeField h fd hv⟩
  simp [State.runCommand, hf, decode_encode_of_isPointCommand hi, hexec, State.retire]

theorem run_pointCommands (is : List Instr) {s : State} (his : ∀ i ∈ is, isPointCommand i = true)
    (h : registersNear s) (hf : s.faulted = false) (hp : s.port = is.map fun i => HostMove.issue (encode i)) :
    ∃ t, Host.Core.run core is.length s = .next t ∧ t.faulted = false ∧ t.pc = s.pc + BitVec.ofNat 32 is.length ∧
      registersNear t := by
  induction is generalizing s with
  | nil => exact ⟨s, rfl, hf, by simp, h⟩
  | cons i is ih =>
    rw [List.forall_mem_cons] at his
    obtain ⟨u, hrun, huf, hupc, hup, hu⟩ :=
      runCommand_of_isPointCommand (s := { s with port := is.map fun i => .issue (encode i) }) his.1 hf h
    obtain ⟨t, ht, htf, htpc, hnear⟩ := ih his.2 hu huf hup
    refine ⟨t, (run_succ_issue _ hp hrun).trans ht, htf, ?_, hnear⟩
    rw [htpc, hupc, List.length_cons, Nat.add_comm, BitVec.ofNat_add, BitVec.add_assoc]

/-- Every ROM entry but 2p and 16p is in class N. -/
theorem nearVfe_rom : ∀ e, e ≠ 2#5 → e ≠ 3#5 → ∀ v ∈ rom e, nearVfe v := by
  decide

/-- Settles O60, by induction on the issued commands: each writes a class-N value over class-N registers. -/
theorem pointChainsStayInClassN : Obligations.PointChainsStayInClassN := by
  refine ⟨fun i s hi hs => ?_, fun is s his h hf hp => run_pointCommands is his h hf hp,
    fun e v hv h2 h3 => nearVfe_rom e h2 h3 v hv⟩
  obtain ⟨fd, v, hdest, hexec, hv⟩ := exec_of_isPointCommand hi hs
  refine ⟨_, hexec, fun r hr => ?_⟩
  obtain rfl : fd = r := Option.some.inj (hdest.symm.trans hr)
  rwa [complete_f, writeField_f_self]

end Sys2Proof.Machine
end

section
/-! PROOFS. What the constant ROM holds (43_rom_contents.md R180 to R189): the small constants, the two tables and the
points the table entries represent. -/

namespace Sys2Proof.Machine

/-! ### The entries slot by slot (R183, R185, R186) -/

/-- ZERO, ONE, KCACHE and IDENT in canonical limbs. -/
theorem rom_smallConstants :
    rom 0 = some ⟨canon 0, canon 0, canon 0, canon 0⟩ ∧ rom 1 = some ⟨canon 1, canon 1, canon 1, canon 1⟩ ∧
    rom 4 = some ⟨canon 1, canon 1, canon 2, canon curveTwoD⟩ ∧ rom 5 = some ⟨canon 0, canon 1, canon 1, canon 0⟩ := by
  decide +kernel

/-- (x, y, 1, x*y) of a point's printed coordinates, in canonical limbs (R185). -/
def canonPoint (x y : Nat) : Vfe := ⟨canon x, canon y, canon 1, canon (x * y)⟩

/-- (y - x, y + x, 2, 2*d*x*y) of a point's printed coordinates, in canonical limbs (R186). -/
def canonCached (x y : Nat) : Vfe := ⟨canon (y - x : Int), canon (y + x), canon 2, canon (2 * curveD * x * y)⟩

theorem rom_table : ∀ i : Fin 8,
    rom (BitVec.ofNat 5 (8 + i.val)) = some (canonPoint (tablePoint i).1 (tablePoint i).2) := by
  decide +kernel

theorem rom_cachedTable : ∀ i : Fin 8,
    rom (BitVec.ofNat 5 (16 + i.val)) = some (canonCached (tablePoint i).1 (tablePoint i).2) := by
  decide +kernel

/-! ### The magnitude classes (R180) -/

theorem canonVfe_canon (k l m n : Int) : canonVfe ⟨canon k, canon l, canon m, canon n⟩ :=
  ⟨isCanon_canon k, isCanon_canon l, isCanon_canon m, isCanon_canon n⟩

/-- A populated index is one of the six constants or lies in one of the two tables (R56). -/
theorem romPopulated_cases : ∀ e, romPopulated e = true →
    (e = 0 ∨ e = 1 ∨ e = 2 ∨ e = 3 ∨ e = 4 ∨ e = 5) ∨ (∃ i : Fin 8, e = BitVec.ofNat 5 (8 + i.val)) ∨
      ∃ i : Fin 8, e = BitVec.ofNat 5 (16 + i.val) := by
  decide

theorem canonVfe_rom {e : BitVec 5} {v : Vfe} (hv : rom e = some v) (h2 : e ≠ 2#5) (h3 : e ≠ 3#5) : canonVfe v := by
  obtain ⟨h0, h1, h4, h5⟩ := rom_smallConstants
  have hpop : romPopulated e = true := by rw [← rom_isSome, hv]; rfl
  have hcanon {k l m n : Int} (h : rom e = some ⟨canon k, canon l, canon m, canon n⟩) : canonVfe v := by
    rw [hv] at h
    rw [Option.some.inj h]
    exact canonVfe_canon k l m n
  obtain (rfl | rfl | rfl | rfl | rfl | rfl) | ⟨i, rfl⟩ | ⟨i, rfl⟩ := romPopulated_cases e hpop
  · exact hcanon h0
  · exact hcanon h1
  · exact absurd rfl h2
  · exact absurd rfl h3
  · exact hcanon h4
  · exact hcanon h5
  · exact hcanon (rom_table i)
  · exact hcanon (rom_cachedTable i)

/-- Settles O46: the populated indices, and every entry but 2p and 16p written as canon of four numbers. -/
theorem romEntriesAreCanonical : Obligations.RomEntriesAreCanonical := by
  refine ⟨?_, fun e v => canonVfe_rom, rom_smallConstants⟩
  simp only [rom_isSome]
  decide

/-! ### The curve equations on printed numbers (R160)

A number of the spec stands for its residue, so an equation of the curve is a congruence of natural numbers. -/

theorem onCurve_natCast {x y : Nat} :
    onCurve x y ↔ y ^ 2 ≡ 1 + curveD * x ^ 2 * y ^ 2 + x ^ 2 [MOD prime] := by
  rw [onCurve, dField, ← ZMod.natCast_eq_natCast_iff]
  push_cast
  rw [neg_add_eq_iff_eq_add, add_comm]

theorem isCurveSum_natCast {x1 y1 x2 y2 x3 y3 : Nat} :
    isCurveSum x1 y1 x2 y2 x3 y3 ↔
      x3 * (1 + curveD * x1 * x2 * y1 * y2) ≡ x1 * y2 + x2 * y1 [MOD prime] ∧
      y3 ≡ y1 * y2 + x1 * x2 + y3 * (curveD * x1 * x2 * y1 * y2) [MOD prime] := by
  rw [isCurveSum, crossTerm, dField, ← ZMod.natCast_eq_natCast_iff, ← ZMod.natCast_eq_natCast_iff]
  push_cast
  rw [mul_one_sub, sub_eq_iff_eq_add]

/-! ### d, 2d and the base point (R182, R184) -/

theorem dField_mul : dField * 121666 = -121665 := by
  have h : ((curveD * 121666 + 121665 : Nat) : ZMod prime) = (0 : Nat) :=
    (ZMod.natCast_eq_natCast_iff _ _ _).2 (by decide)
  push_cast at h
  exact eq_neg_of_add_eq_zero_left h

theorem five_mul_tableY_zero : 5 * tableY 0 = 4 := by
  have h : ((5 * (tablePoint 0).2 : Nat) : ZMod prime) = (4 : Nat) :=
    (ZMod.natCast_eq_natCast_iff _ _ _).2 (by decide)
  exact_mod_cast h

theorem onCurve_basePoint : onCurve (tableX 0) (tableY 0) := onCurve_natCast.2 (by decide)

/-- Settles O47: each equation in the field is a congruence of the printed numbers. -/
theorem curveConstants : Obligations.CurveConstants :=
  ⟨dField_mul, by decide, by decide, by decide +kernel, by decide +kernel, by decide, five_mul_tableY_zero, by decide,
    by decide, by decide, onCurve_basePoint⟩

/-! ### The points of the table (R185) -/

/-- The affine coordinates of 2B, which the spec does not print. -/
def doubledBase : Nat × Nat :=
  (0x36ab384c9f5a046c3d043b7d1833e7ac080d8e4515d7a45f83c5a14e2843ce0e,
    0x2260cdf3092329c21da25ee8c9a21f5697390f51643851560e5f46ae6af8a3c9)

theorem isCurveSum_basePoint_self :
    isCurveSum (tableX 0) (tableY 0) (tableX 0) (tableY 0) doubledBase.1 doubledBase.2 :=
  isCurveSum_natCast.2 (by decide)

theorem onCurve_doubledBase : onCurve doubledBase.1 doubledBase.2 :=
  onCurve_of_isCurveSum onCurve_basePoint onCurve_basePoint isCurveSum_basePoint_self

/-- Entry i + 1 is entry i and 2B. -/
theorem isCurveSum_table_succ (i : Fin 7) :
    isCurveSum (tableX i.castSucc) (tableY i.castSucc) doubledBase.1 doubledBase.2 (tableX i.succ) (tableY i.succ) := by
  refine isCurveSum_natCast.2 ?_
  revert i
  decide

theorem onCurve_table (i : Fin 8) : onCurve (tableX i) (tableY i) := by
  induction i using Fin.induction with
  | zero => exact onCurve_basePoint
  | succ i ih => exact onCurve_of_isCurveSum ih onCurve_doubledBase (isCurveSum_table_succ i)

theorem fe_canon (n : Int) : fe (canon n) = n := by
  rw [fe, ← Int.cast_natCast, val_canon, ZMod.intCast_mod]

theorem represents_canonPoint {x y : Nat} (h : onCurve x y) : represents (canonPoint x y) x y := by
  have := Tests.zmod_nontrivial
  simp [represents, coordinatesOf, canonPoint, fe_canon, h]

/-- Settles O48: each entry is the sum of the one before it and 2B, so from the base point on all are on the curve. -/
theorem tableHoldsOddMultiples : Obligations.TableHoldsOddMultiples := by
  refine ⟨fun i => ⟨rom_table i, onCurve_table i⟩, fun i v hv => ?_,
    doubledBase.1, doubledBase.2, onCurve_doubledBase, isCurveSum_basePoint_self, isCurveSum_table_succ⟩
  rw [rom_table i] at hv
  rw [← Option.some.inj hv]
  exact represents_canonPoint (onCurve_table i)

/-! ### The cached table (R186) -/

/-- Settles O49: the entries of both tables, and PCACHE and VRED.F run on the first. -/
theorem cachedTableIsPcacheOfTable : Obligations.CachedTableIsPcacheOfTable := by
  intro i
  have hcache := vredFFn_cache_table i
  rw [rom_table i, rom_cachedTable i] at hcache
  exact ⟨rom_cachedTable i, _, _, rom_table i, rom_cachedTable i, Option.some.inj hcache⟩

/-! ### The table by the unit's own commands (R187) -/

theorem represents_romT0 : represents romT0 (tableX 0) (tableY 0) := by
  have h : romT0 = canonPoint (tablePoint 0).1 (tablePoint 0).2 := Option.some.inj (rom_table 0)
  rw [h]
  exact represents_canonPoint onCurve_basePoint

theorem nearVfe_romT0 : nearVfe romT0 := nearVfe_rom 8 (by decide) (by decide) romT0 rfl

theorem represents_dbl_romT0 : represents (dbl romT0) doubledBase.1 doubledBase.2 :=
  represents_dbl nearVfe_romT0 represents_romT0 isCurveSum_basePoint_self

theorem nearVfe_tableChain (n : Nat) : nearVfe (tableChain n) := by
  induction n with
  | zero => exact nearVfe_romT0
  | succ n ih => exact nearVfe_addC ih (wideVfe_of_nearVfe (nearVfe_cache (nearVfe_dbl nearVfe_romT0)))

theorem represents_tableChain (i : Fin 8) : represents (tableChain i.val) (tableX i) (tableY i) := by
  induction i using Fin.induction with
  | zero => exact represents_romT0
  | succ i ih =>
    exact represents_addC_cache (nearVfe_tableChain i.castSucc.val) (nearVfe_dbl nearVfe_romT0) ih represents_dbl_romT0
      (isCurveSum_table_succ i)

/-- Settles O50, by induction on the table: AddC of the cached 2B takes entry i to entry i + 1 as points. -/
theorem tableIsGeneratedByPointAddition : Obligations.TableIsGeneratedByPointAddition := by
  intro i
  obtain ⟨hz, ⟨hx, hy, -⟩, -⟩ := represents_tableChain i
  exact ⟨hx, hy, hz⟩

end Sys2Proof.Machine
end

section
/-! PROOFS. Faults (60_exceptions.md R200 to R204, R207): a faulting word enters the fault and nothing else, a command
that meets the host's obligations is no such word, and a faulted unit changes in its limb memory alone until reset. -/

namespace Sys2Proof.Machine

/-! ### Fault entry (R203) -/

/-- Settles O8: the step takes the word from the port, and the word takes its fault. -/
theorem faultEntryRecordsTheWord : Obligations.FaultEntryRecordsTheWord := fun s cw rest hp hf h =>
  ⟨_, (step_of_port hp).trans (runCommand_of_faultingWord (s := { s with port := rest }) hf h),
    takeFault_entersFault _ (causeOf cw) cw⟩

/-! ### Which words fault (R200 to R202) -/

theorem encode_vldc_index (fd : FReg) (e : BitVec 5) : (encode (.vldc fd e)).extractLsb' 0 5 = e := by
  rw [← immField_extractLsb' _ (by decide), encode, immField_wordR]
  exact BitVec.extractLsb'_append_eq_right

/-- The word of a legal command is legal: it matches its own row, and the index of a VLDC is populated. -/
theorem illegalWord_encode {i : Instr} (h : i.wellFormed = true) : illegalWord (encode i) = false := by
  obtain ⟨r, hr, hname, hrow⟩ := encode_matches_row i
  rw [illegalWord_eq_false_iff_of_matches hr hrow, hname]
  intro hvldc
  cases i with
  | vldc fd e => rwa [encode_vldc_index]
  | _ => simp [Instr.name] at hvldc

theorem rangeViolation_encode_of_addressesExist {i : Instr} {s : State} (h : addressesExist i s) :
    rangeViolation s.cfg (encode i) = false := by
  rw [← Bool.not_eq_true, rangeViolation_encode_iff]
  rintro ⟨fr, addr, hi, hlt⟩
  exact absurd (inRange_iff.1 (h fr addr hi)) (Nat.not_le.2 hlt)

theorem faultingWord_encode_of_safeCommand {i : Instr} {s : State} (h : safeCommand i s) :
    faultingWord s.cfg (encode i) = false := by
  obtain ⟨hw, haddr, -, -⟩ := h
  rw [faultingWord, illegalWord_encode hw, rangeViolation_encode_of_addressesExist haddr, Bool.or_false]

theorem faulted_of_keptFaultRegisters {s t : State} (h : keptFaultRegisters s t) : t.faulted = s.faulted := by
  obtain ⟨hstatus, -, -⟩ := h
  rw [State.faulted, hstatus, State.faulted]

/-- Settles O9, by whether the word is one of the faulting words. -/
theorem exactlyTwoFaultsFromTheWordAlone : Obligations.ExactlyTwoFaultsFromTheWordAlone := by
  refine ⟨fun i s h => faultingWord_encode_of_safeCommand h, fun s cw hf => ?_⟩
  cases h : faultingWord s.cfg cw with
  | true =>
    exact ⟨_, runCommand_of_faultingWord hf h, takeFault_faulted .., fun _ => takeFault_entersFault s _ cw, nofun⟩
  | false =>
    obtain ⟨t, ht, hkept, -, hpc⟩ := runCommand_of_not_faultingWord hf h
    exact ⟨t, ht, (faulted_of_keptFaultRegisters hkept).trans hf, nofun, fun _ => ⟨hkept, hpc⟩⟩

/-! ### The faulted state (R204) -/

/-- What a host move but reset can do to a faulted unit: the memory is replaced, by itself where the move is ignored. -/
theorem perform_of_faulted {s t : State} {m : HostMove} (hf : s.faulted = true) (hm : m ≠ .reset)
    (h : s.perform m = .next t) : ∃ lm, t = s.withLm lm := by
  cases m with
  | issue cw =>
    obtain rfl := Host.Outcome.next.inj ((runCommand_of_faulted cw hf).symm.trans h)
    exact ⟨s.lm, rfl⟩
  | writeLm a v => exact ⟨_, eq_hostStore_of_perform h⟩
  | writeStatus n v =>
    obtain rfl := Host.Outcome.next.inj h
    exact ⟨s.lm, rfl⟩
  | reset => exact absurd rfl hm

theorem perform_writeLm {s : State} {a : Nat} (v : Word) (h : a < s.cfg.lmWords) :
    s.perform (.writeLm a v) = .next (s.hostStore a v) := if_pos h

theorem hostStore_word_self (s : State) (a : Nat) (v : Word) : (s.hostStore a v).word a = v :=
  word_of_lookup (Memory.lookup_store_self s.lm a v)

/-- Settles O10: a word is discarded, any other move but reset replaces the memory at most, and reset clears FAULT. -/
theorem faultedStateIsTerminalUntilReset : Obligations.FaultedStateIsTerminalUntilReset := by
  refine fun s hf => ⟨fun cw => runCommand_of_faulted cw hf, fun m t hm h => ?_,
    fun a v ha => ⟨_, perform_writeLm v ha, hostStore_word_self s a v⟩, s.applyReset, rfl, applyReset_faulted s⟩
  obtain ⟨lm, rfl⟩ := perform_of_faulted hf hm h
  exact ⟨hf, ⟨rfl, rfl, rfl⟩, rfl, fun _ => ⟨rfl, rfl⟩⟩

/-! ### The example (R207) -/

/-- Settles O21: after reset the VLD word faults, since 0xFFD9 + 40 = 65537 > 65536, and so does the zero word, which is
illegal; the VLDC that follows the first is discarded. -/
theorem faultExampleAfterReset : Obligations.FaultExampleAfterReset := by
  have hf : State.reset.faulted = false := powerOn_faulted _
  have hload := runCommand_of_faultingWord (cw := 0x4000FFD9#32) hf (by decide)
  have hzero := runCommand_of_faultingWord (cw := 0x00000000#32) hf (by decide)
  have hnever : State.reset.written.get 0 = false := applyReset_written_get State.reset 0
  exact ⟨⟨_, hload, by decide, rfl, rfl, rfl, hnever, _,
      runCommand_of_faulted _ (takeFault_faulted ..), rfl, hnever, rfl⟩,
    _, hzero, by decide, rfl, rfl, rfl⟩

end Sys2Proof.Machine
end

section
/-! PROOFS. Reset and the multiplier's bound (70_reset_and_hazards.md R220, R224): only reset leaves the faulted state,
and the exact sums of class-W operands, and of class-N ones more tightly, stay within the printed maxima. -/

namespace Sys2Proof.Machine

/-! ### Reset (R220) -/

/-- Settles O12: reset clears by its definition, and any other move of a faulted unit replaces the memory at most. -/
theorem resetClearsAllButMemory : Obligations.ResetClearsAllButMemory := by
  refine ⟨fun s => ⟨s.applyReset, rfl, rfl, rfl, rfl, rfl, applyReset_written_get s, fun _ => rfl, rfl, rfl⟩,
    fun s t m hf hm h => ?_, fun c r _ => ⟨applyReset_written_get (.powerOn c) r, rfl⟩⟩
  obtain ⟨lm, rfl⟩ := perform_of_faulted hf hm h
  exact hf

/-! ### The multiplier's bound (R224) -/

/-- The limb vector whose every limb is one below a limit. -/
def justBelow (limit : Fin 10 → Nat) : LimbVec := Ten.ofFn fun i => BitVec.ofNat 32 (limit i - 1)

theorem justBelow_get_toNat {limit : Fin 10 → Nat} (h : ∀ i, limit i < 2 ^ 32) (i : Fin 10) :
    ((justBelow limit).get i).toNat = limit i - 1 := by
  rw [justBelow, Ten.get_ofFn, BitVec.toNat_ofNat]
  exact Nat.mod_eq_of_lt ((Nat.sub_le _ _).trans_lt (h i))

theorem get_le_justBelow_nearLimit {x : LimbVec} (h : isNear x) (i : Fin 10) :
    (x.get i).toNat ≤ ((justBelow nearLimit).get i).toNat := by
  rw [justBelow_get_toNat (by decide)]
  exact Nat.le_sub_one_of_lt (h i)

theorem exactTopCarry_justBelow_nearLimit :
    exactTopCarry (justBelow nearLimit) (justBelow nearLimit) = 671334423 := by decide

section Near
variable {x y : LimbVec} (hx : isNear x) (hy : isNear y)
include hx hy

theorem exactTopCarry_le_of_isNear : exactTopCarry x y ≤ 671334423 :=
  (exactTopCarry_mono (get_le_justBelow_nearLimit hx) (get_le_justBelow_nearLimit hy)).trans_eq
    exactTopCarry_justBelow_nearLimit

theorem exactLastCarry_le_of_isNear : exactLastCarry x y ≤ 191 := by
  have htop := exactTopCarry_le_of_isNear hx hy
  have hwrap := exactWrapped_le x y
  rw [exactLastCarry]
  omega

end Near

theorem mulSlot_get_one_le_add_exactLastCarry {x y : LimbVec} (h : sumsFit x y) :
    ((mulSlot x y).get 1).toNat ≤ limbMask 1 + exactLastCarry x y := by
  rw [mulSlot_get_toNat h]
  exact Nat.add_le_add_right (mod_le_limbMask _ 1) _

/-- The limits R224 asks about with 12 in the place of class W's 11. -/
def twelvefoldLimit (i : Fin 10) : Nat := 12 * 2 ^ (limbWidth i - 1)

theorem justBelow_twelvefoldLimit_lt (i : Fin 10) :
    ((justBelow twelvefoldLimit).get i).toNat < 12 * 2 ^ (limbWidth i - 1) := by
  rw [justBelow_get_toNat (by decide)]
  exact Nat.sub_one_lt (Nat.mul_ne_zero (by decide) (pow_ne_zero _ two_ne_zero))

theorem two_pow_le_accumulatorSum_twelvefold :
    2 ^ 64 ≤ accumulatorSum (justBelow twelvefoldLimit) (justBelow twelvefoldLimit) 0 := by decide

/-- Settles O30: the bounds of the exact sums on class W; on class N the carry out of z[9] is smaller; and the
counterexample for 12 has every limb just below its limit. -/
theorem multiplierStaysInBounds : Obligations.MultiplierStaysInBounds := by
  refine ⟨fun x y hx hy => ?_,
    _, _, justBelow_twelvefoldLimit_lt, justBelow_twelvefoldLimit_lt, two_pow_le_accumulatorSum_twelvefold⟩
  obtain ⟨hsum, -, hone⟩ := sumsFit_of_isWide hx hy
  have htop := exactTopCarry_le hx hy
  exact ⟨accumulatorSum_le_accumulatorMax hx hy, hsum, htop, Nat.mul_le_mul_left 19 htop, exactLastCarry_le hx hy,
    fun _ => mulSlot_get_le_of_ne_one hx hy, mulSlot_get_one_le hx hy, isNear_mulSlot hx hy, hone,
    val_mulSlot_mod hx hy, fun hxn hyn =>
      (mulSlot_get_one_le_add_exactLastCarry (sumsFit_of_isWide hx hy)).trans
        (Nat.add_le_add_left (exactLastCarry_le_of_isNear hxn hyn) _)⟩

end Sys2Proof.Machine
end

section
/-! PROOFS. The round trips of the encoding (30_encoding.md R71 to R78): the decoder finds in the word of a command the
fields it was put together from, and a word it accepts is put together from the fields it finds. -/

namespace Sys2Proof.Machine

/-- VNEG's immediate is the mask, above it the qualifier bit, and above that zeros (R72). -/
theorem qualifiedMask_fields (m : BitVec 4) :
    ((0#10 ++ m).extractLsb' 5 9 = 0 ∧ (0#10 ++ m)[4] = false ∧ (0#10 ++ m).extractLsb' 0 4 = m) ∧
    ((1#10 ++ m).extractLsb' 5 9 = 0 ∧ (1#10 ++ m)[4] = true ∧ (1#10 ++ m).extractLsb' 0 4 = m) := by
  revert m
  decide

/-- The decoder reads back the fields that encode put into the word. -/
theorem decode_encode {i : Instr} (h : i.wellFormed = true) : decode (encode i) = .ok i := by
  cases i with
  | vnegP2 fd fa m =>
    obtain ⟨⟨hzero, hbit, hmask⟩, -⟩ := qualifiedMask_fields m
    simp [decode, encode, decodeR2, hzero, hbit, hmask]
  | vnegP16 fd fa m =>
    obtain ⟨-, hzero, hbit, hmask⟩ := qualifiedMask_fields m
    simp [decode, encode, decodeR2, hzero, hbit, hmask]
  | vshuf fd fa sel =>
    have hzero : (0#6 ++ sel).extractLsb' 8 6 = 0 := BitVec.extractLsb'_append_eq_left
    have hsel : (0#6 ++ sel).extractLsb' 0 8 = sel := BitVec.extractLsb'_append_eq_right
    simp [decode, encode, decodeR2, hzero, hsel]
  | vblend fd fa fb m =>
    have hzero : (0#10 ++ m).extractLsb' 4 10 = 0 := BitVec.extractLsb'_append_eq_left
    have hmask : (0#10 ++ m).extractLsb' 0 4 = m := BitVec.extractLsb'_append_eq_right
    simp [decode, encode, decodeR3, hzero, hmask]
  | vldc fd e =>
    have hpop : romPopulated e = true := h
    have hzero : (0#9 ++ e).extractLsb' 5 9 = 0 := BitVec.extractLsb'_append_eq_left
    have hindex : (0#9 ++ e).extractLsb' 0 5 = e := BitVec.extractLsb'_append_eq_right
    simp [decode, encode, decodeVldc, hpop, hzero, hindex]
  | vld fr addr | vst fr addr => simp [decode, encode, decodeM]
  | vsq fd fa | vredL fd fa | vredF fd fa | pdbl fd fa | pcache fd fa | pneg fd fa =>
    simp [decode, encode, decodeR2]
  | vadd fd fa fb | vsubP2 fd fa fb | vsubP16 fd fa fb | vmul fd fa fb | padd fd fa fb | paddc fd fa fb =>
    simp [decode, encode, decodeR3]

/-- Settles O1, by the sub-format of the command's word (R72). -/
theorem decodeOfEncodeIsTheCommand : Obligations.DecodeOfEncodeIsTheCommand := fun _ h => decode_encode h

/-- Settles O2: an accepted word is put together from its own fields, of which the rest are zero. -/
theorem encodeOfDecodeIsTheWord : Obligations.EncodeOfDecodeIsTheWord := fun _ _ h => encode_of_decode h

end Sys2Proof.Machine
end

section
/-! PROOFS. The machine invariant (10_state.md R25, R29 to R31; 20_memory.md R50; 60_exceptions.md R201, R203): it holds
at power-on, and every shared operation that a step is made of keeps it. -/

namespace Sys2Proof.Machine

/-! ### The state operations that keep the invariant -/

section Operations
variable {s : State}

/-- The invariant speaks of neither pc, nor the host's moves, nor the model's counter. -/
theorem invariant_complete (h : invariant s) : invariant s.complete := h

theorem invariant_withPort (h : invariant s) (rest : List HostMove) : invariant { s with port := rest } := h

/-- A register that is written is no longer never-written. -/
theorem invariant_writeField (h : invariant s) (fd : FReg) (v : Vfe) : invariant (s.writeField fd v) := by
  obtain ⟨hcfg, hwf, hin, hfault, hnever⟩ := h
  refine ⟨hcfg, hwf, hin, hfault, fun r hr => ?_⟩
  by_cases hfd : r = fd
  · subst hfd
    rw [writeField_written_self] at hr
    cases hr
  · rw [writeField_written_ne s v hfd] at hr
    rw [writeField_f_ne s v hfd]
    exact hnever r hr

theorem invariant_withLm (h : invariant s) {m : List Cell} (hwf : Memory.wf m = true)
    (hin : Memory.inside s.cfg.lmWords m = true) : invariant (s.withLm m) := by
  obtain ⟨hcfg, -, -, hfault, hnever⟩ := h
  exact ⟨hcfg, hwf, hin, hfault, hnever⟩

theorem invariant_storeVfe (h : invariant s) {addr : BitVec 16} (v : Vfe) (hr : s.inRange addr = true) :
    invariant (s.storeVfe addr v) := by
  have ⟨_, hwf, hin, _, _⟩ := h
  exact invariant_withLm h (Memory.wf_storeWords _ _ hwf) (Memory.inside_storeWords _ hin (inRange_iff.1 hr))

theorem invariant_hostStore (h : invariant s) {a : Nat} (v : Word) (ha : a < s.cfg.lmWords) :
    invariant (s.hostStore a v) := by
  have ⟨_, hwf, hin, _, _⟩ := h
  exact invariant_withLm h (Memory.wf_store a v hwf) (Memory.inside_store v hin ha)

/-- Fault registers and field registers as after reset. -/
theorem invariant_of_cleared (hcfg : s.cfg.legal = true) (hwf : Memory.wf s.lm = true)
    (hin : Memory.inside s.cfg.lmWords s.lm = true) (hf : s.f = Vector.replicate 16 unwrittenContent)
    (hfault : s.status = 0#32 ∧ s.cause = 0#32 ∧ s.finfo = 0#32) : invariant s :=
  ⟨hcfg, hwf, hin, .inl hfault, fun r _ => by simp [hf, Vector.get_eq_getElem]⟩

theorem invariant_applyReset (h : invariant s) : invariant s.applyReset := by
  obtain ⟨hcfg, hwf, hin, -, -⟩ := h
  exact invariant_of_cleared hcfg hwf hin rfl ⟨rfl, rfl, rfl⟩

theorem invariant_powerOn {c : Config} (h : c.legal = true) : invariant (.powerOn c) :=
  invariant_of_cleared h rfl rfl rfl ⟨rfl, rfl, rfl⟩

/-! ### Taking a fault (R203) -/

/-- While FAULT = 0 all of STATUS is 0 (10_state.md R29). -/
theorem status_eq_zero_of_not_faulted (h : faultRegistersLegal s) (hf : s.faulted = false) : s.status = 0#32 := by
  obtain ⟨hs, -⟩ | ⟨hs, -⟩ | ⟨hs, -⟩ := h
  · exact hs
  · simp [State.faulted, hs] at hf
  · simp [State.faulted, hs] at hf

/-- What FINFO must say for its cause, for a fault to leave the fault registers legal. -/
theorem invariant_takeFault (h : invariant s) (hf : s.faulted = false) {c cw : Word}
    (hc : c = 1#32 ∧ (∀ i, decode cw ≠ .ok i) ∨
      c = 2#32 ∧ ∃ fr addr, (decode cw = .ok (.vld fr addr) ∨ decode cw = .ok (.vst fr addr)) ∧
        s.cfg.lmWords < addr.toNat + 40) :
    invariant (s.takeFault c cw) := by
  obtain ⟨hcfg, hwf, hin, hfault, hnever⟩ := h
  have hstatus : (s.takeFault c cw).status = 1#32 := by
    rw [takeFault_status, status_eq_zero_of_not_faulted hfault hf]
    rfl
  refine ⟨hcfg, hwf, hin, .inr ?_, hnever⟩
  exact hc.imp (fun ⟨hc, hcw⟩ => ⟨hstatus, hc, hcw⟩) fun ⟨hc, hcw⟩ => ⟨hstatus, hc, hcw⟩

end Operations

/-! ### Steps -/

/-- A decoded command keeps the invariant: if it faults it is a VLD or VST, and its word is the one that was issued. -/
theorem invariant_exec {s t : State} {cw : Word} {i : Instr} (h : invariant s) (hf : s.faulted = false)
    (hi : decode cw = .ok i) (ht : exec i s = .next t) : invariant t := by
  obtain ⟨hword, hlegal⟩ := encode_of_decode hi
  obtain ⟨fd, v, rfl⟩ | ⟨fr, addr, -, hr, rfl⟩ | ⟨fr, addr, hld, hr, rfl⟩ | ⟨hillegal, -⟩ := exec_cases ht
  · exact invariant_complete (invariant_writeField h fd v)
  · exact invariant_complete (invariant_storeVfe h _ hr)
  · refine invariant_takeFault h hf (.inr ⟨rfl, fr, addr, ?_, inRange_eq_false_iff.1 hr⟩)
    rw [hword, hi]
    exact hld.imp (congrArg _) (congrArg _)
  · simp [hlegal] at hillegal

theorem invariant_runCommand {s t : State} {cw : Word} (h : invariant s) (ht : s.runCommand cw = .next t) :
    invariant t := by
  obtain ⟨-, rfl⟩ | ⟨hf, ⟨e, he⟩, rfl⟩ | ⟨hf, i, hi, hexec⟩ := runCommand_cases ht
  · exact h
  · exact invariant_takeFault h hf (.inl ⟨rfl, fun i hi => by simp [he] at hi⟩)
  · exact invariant_exec h hf hi hexec

theorem invariant_step {s t : State} (h : invariant s) (ht : step s = .next t) : invariant t := by
  obtain ⟨-, rfl⟩ | ⟨cw, rest, -, hrun⟩ | ⟨a, v, rest, -, ha, rfl⟩ | ⟨n, v, rest, -, rfl⟩ | ⟨rest, -, rfl⟩ :=
    step_cases ht
  · exact h
  · exact invariant_runCommand (invariant_withPort h rest) hrun
  · exact invariant_hostStore (invariant_withPort h rest) v ha
  · exact invariant_withPort h rest
  · exact invariant_applyReset (invariant_withPort h rest)

/-- Settles O14: an empty memory is canonical, and every register holds the model's fixed content. -/
theorem invariantHoldsAtReset : Obligations.InvariantHoldsAtReset :=
  ⟨invariant_powerOn (by decide), fun _ => invariant_powerOn⟩

/-- Settles O15, by the host's next move. -/
theorem everyStepKeepsTheInvariant : Obligations.EveryStepKeepsTheInvariant := fun _ _ => invariant_step

end Sys2Proof.Machine
end

section
/-! PROOFS. The points of the curve and the commands PDBL and PADDC (42_point_ops.md R151, R154, R156, R160): the
addition law has one answer for every pair, and the sequences compute it. -/

namespace Sys2Proof.Machine

/-! ### The addition law (R160) -/

/-- Where neither denominator is 0, the fractions have one value. -/
theorem isCurveSum_unique {x1 y1 x2 y2 x y x3 y3 : ZMod prime} (h1 : onCurve x1 y1) (h2 : onCurve x2 y2)
    (h : isCurveSum x1 y1 x2 y2 x y) (h3 : isCurveSum x1 y1 x2 y2 x3 y3) : x = x3 ∧ y = y3 := by
  obtain ⟨hx, hy⟩ := h
  obtain ⟨hx3, hy3⟩ := h3
  constructor
  · exact zmod_mul_left_cancel (one_add_crossTerm_ne_zero h1 h2) (by linear_combination hx - hx3)
  · exact zmod_mul_left_cancel (one_sub_crossTerm_ne_zero h1 h2) (by linear_combination hy - hy3)

/-- Settles O52: the denominators are not 0 because d is no square, and fractions of field elements have one value. -/
theorem curveAdditionIsComplete : Obligations.CurveAdditionIsComplete := by
  intro x1 y1 x2 y2 h1 h2
  obtain ⟨x3, y3, h3⟩ := exists_isCurveSum h1 h2
  exact ⟨one_add_crossTerm_ne_zero h1 h2, one_sub_crossTerm_ne_zero h1 h2, x3, y3, onCurve_of_isCurveSum h1 h2 h3, h3,
    fun x y h => isCurveSum_unique h1 h2 h h3⟩

/-- A point and its opposite add up to the identity (0, 1). -/
theorem isCurveSum_neg {x y : ZMod prime} (h : onCurve x y) : isCurveSum x y (-x) y 0 1 := by
  unfold onCurve at h
  constructor
  · ring
  · unfold crossTerm
    linear_combination -h

/-! ### Registers that hold points (R151) -/

section Registers
variable {v : Vfe} {x y x' y' : ZMod prime}

theorem validPoint_of_represents (h : represents v x y) : validPoint v := by
  obtain ⟨hz, ⟨hx, hy, ht⟩, hxy⟩ := h
  unfold onCurve at hxy
  refine ⟨hz, ?_, ?_⟩
  · rw [hx, hy, ht]
    ring
  · rw [hx, hy, ht]
    linear_combination fe v.c ^ 2 * hxy

theorem validPoint_iff : validPoint v ↔ ∃ x y, represents v x y :=
  ⟨exists_represents_of_validPoint, fun ⟨_, _, h⟩ => validPoint_of_represents h⟩

theorem represents_unique (h : represents v x y) (h' : represents v x' y') : x = x' ∧ y = y' := by
  obtain ⟨hz, ⟨hx, hy, -⟩, -⟩ := h
  obtain ⟨-, ⟨hx', hy', -⟩, -⟩ := h'
  constructor
  · exact zmod_mul_left_cancel hz (by linear_combination hx' - hx)
  · exact zmod_mul_left_cancel hz (by linear_combination hy' - hy)

/-- With Z = 0 one of X and Y is 0, so d*T^2 is a square, and T is 0 too. -/
theorem fe_d_eq_zero_of_fe_c_eq_zero (h : pointEquations v) (hz : fe v.c = 0) : fe v.d = 0 := by
  obtain ⟨hseg, hcurve⟩ := h
  rw [hz] at hseg hcurve
  by_cases ha : fe v.a = 0
  · exact eq_zero_of_dField_mul_sq (a := fe v.b) (by linear_combination -hcurve - fe v.a * ha)
  · have hb : fe v.b = 0 := zmod_mul_left_cancel ha (by linear_combination hseg)
    obtain ⟨j, hj⟩ := minus_one_is_square
    exact eq_zero_of_dField_mul_sq (a := j * fe v.a) (by linear_combination fe v.b * hb - hcurve - fe v.a ^ 2 * hj)

end Registers

/-- Settles O53: X/Z and Y/Z are the point's coordinates; d is no square, so Z = 0 forces T = 0. -/
theorem validPointsRepresentAffinePoints : Obligations.ValidPointsRepresentAffinePoints := fun _ =>
  ⟨validPoint_iff, fun _ _ _ _ => represents_unique, fun heq hzt hz =>
    hzt.elim (fun h => h hz) fun h => h (fe_d_eq_zero_of_fe_c_eq_zero heq hz)⟩

/-! ### The printed sequences (R153 to R158) -/

/-- Settles O51: each command retires with the function that runs its sequence. -/
theorem pointCommandsRunTheirSequences : Obligations.PointCommandsRunTheirSequences := by
  refine ⟨fun fd fa s => ?_, fun fd fa s => ?_, fun fd fa fc s => ?_, fun fd fa fb s => ?_, fun fd fa s => ?_⟩
  · obtain ⟨t, ht, hret⟩ := retire_retires s fd (dbl (s.field fa))
    exact ⟨t, _, ht, hret, rfl⟩
  · obtain ⟨t, ht, hret⟩ := retire_retires s fd (cache (s.field fa))
    exact ⟨t, _, ht, hret, rfl⟩
  · obtain ⟨t, ht, hret⟩ := retire_retires s fd (addC (s.field fa) (s.field fc))
    exact ⟨t, _, ht, hret, rfl⟩
  · exact retire_retires s fd (addC (s.field fa) (cache (s.field fb)))
  · exact retire_retires s fd (pnegFn (s.field fa))

/-! ### PDBL and PADDC (R154, R156) -/

/-- The four products satisfy the Segre relation X*Y = Z*T, for any E, F, G, H. -/
theorem segre_of_factored {v : Vfe} {e f g h : ZMod prime} (hv : factored v e f g h) :
    fe v.a * fe v.b = fe v.c * fe v.d := by
  obtain ⟨ha, hb, hc, hd⟩ := hv
  rw [ha, hb, hc, hd]
  ring

/-- Dbl reads slots A, B and C only. -/
theorem dbl_ignores_t (x y z u u' : LimbVec) : dbl ⟨x, y, z, u⟩ = dbl ⟨x, y, z, u'⟩ := by
  rw [dbl_eq, dbl_eq, dblSquares_eq, dblSquares_eq]

/-- Settles O54: Dbl ends in the four products of class-N factors, which are those of P + P. -/
theorem pdblDoublesThePoint : Obligations.PdblDoublesThePoint := by
  refine ⟨fun fd fa s ha => ?_, dbl_ignores_t⟩
  obtain ⟨t, ht, hret⟩ := retire_retires s fd (dbl (s.field fa))
  obtain ⟨hnear, hfactored⟩ := dbl_factored (vfeHolds_of_nearVfe ha)
  refine ⟨t, _, ht, hret, hnear, segre_of_factored hfactored, fun x y hP => ?_⟩
  obtain ⟨x3, y3, hsum⟩ := exists_isCurveSum (onCurve_of_represents hP) (onCurve_of_represents hP)
  exact ⟨x3, y3, represents_dbl ha hP hsum, hsum⟩

/-- Settles O56: AddC ends in the four products of class-N factors, which are those of P + Q whatever P and Q are. -/
theorem paddcAddsTheCachedPoint : Obligations.PaddcAddsTheCachedPoint := by
  intro fd fa fc s ha hc
  obtain ⟨t, ht, hret⟩ := retire_retires s fd (addC (s.field fa) (s.field fc))
  obtain ⟨hnear, hfactored⟩ := addC_factored (vfeHolds_of_nearVfe ha) hc
  refine ⟨t, _, ht, hret, hnear, segre_of_factored hfactored, fun x1 y1 x2 y2 hP hQ => ?_⟩
  obtain ⟨w, hw, hcached⟩ := hQ
  obtain ⟨x3, y3, hsum⟩ := exists_isCurveSum (onCurve_of_represents hP) (onCurve_of_represents hw)
  exact ⟨x3, y3, represents_addC ha hc hP hw hcached hsum, hsum⟩

/-! ### The identity as a result (R154, R156, R158) -/

/-- The registers that represent (0, 1) are those with X = 0, T = 0 and Y = Z. -/
theorem identityForm_of_represents {v : Vfe} (h : represents v 0 1) :
    fe v.a = 0 ∧ fe v.d = 0 ∧ fe v.b = fe v.c ∧ fe v.c ≠ 0 := by
  obtain ⟨hz, ⟨hx, hy, ht⟩, -⟩ := h
  refine ⟨?_, ?_, ?_, hz⟩
  · rw [hx, zero_mul]
  · rw [ht, zero_mul, zero_mul]
  · rw [hy, one_mul]

theorem represents_addC_pnegFn {a : Vfe} (ha : nearVfe a) (hv : validPoint a) :
    represents (addC a (cache (pnegFn a))) 0 1 := by
  obtain ⟨x, y, hP⟩ := exists_represents_of_validPoint hv
  have hneg := represents_pnegFn (withinMultiple_two_of_isNear (nearVfe_iff.1 ha .A))
    (withinMultiple_two_of_isNear (nearVfe_iff.1 ha .D)) hP
  exact represents_addC_cache ha (nearVfe_pnegFn a) hP hneg (isCurveSum_neg (onCurve_of_represents hP))

/-- Settles O59: both results represent (0, 1), as (x, y) + (-x, y) does and (0, 1) + (0, 1). -/
theorem oppositePointsAddToIdentity : Obligations.OppositePointsAddToIdentity :=
  ⟨fun _ ha hv => identityForm_of_represents (represents_addC_pnegFn ha hv),
    identityForm_of_represents (represents_dbl (by decide) Tests.ident_represents (isCurveSum_zero_one 0 1))⟩

end Sys2Proof.Machine
end

section
/-! PROOFS. The documented chain lengths (70_reset_and_hazards.md R225): what a chain starts from and the class-N limit
for every further summand, against the limits of class W and of a lane. -/

namespace Sys2Proof.Machine

/-- A difference of a class-N value and one within k*p is at most the class-N limit and kp(k, .). -/
theorem subSlot_get_le {k : Nat} {a b : LimbVec} (ha : isNear a) (hb : withinMultiple k b) (hfits : multipleFits k a)
    (i : Fin 10) : ((subSlot k a b).get i).toNat ≤ nearLimit i + multipleLimb k i := by
  have hsum := subSlot_get_add hb hfits i
  have hai := ha i
  omega

theorem multipleFits_of_isNear {k : Nat} {a : LimbVec} (hk : k ≤ 16) (ha : isNear a) : multipleFits k a := fun i => by
  have hnear : ∀ i, nearLimit i ≤ 2 ^ 27 := by decide
  have hai := (ha i).trans_le (hnear i)
  have hmul := multipleLimb_le k i
  omega

section Chains
variable {xs : List LimbVec} (h : ∀ x ∈ xs, isNear x)
include h

/-- A chain that starts from `start` and adds at most n class-N values, against a limit for start and n. -/
theorem add_limbSum_lt {n start limit : Nat} {i : Fin 10} (hlen : xs.length ≤ n)
    (hlimit : start + n * nearLimit i < limit) : start + limbSum xs i < limit :=
  (Nat.add_le_add_left ((limbSum_le h i).trans (Nat.mul_le_mul_right _ hlen)) start).trans_lt hlimit

theorem limbSum_lt_wideLimit (hlen : xs.length ≤ 5) (i : Fin 10) : limbSum xs i < wideLimit i := by
  have hlimit : ∀ i, 0 + 5 * nearLimit i < wideLimit i := by decide
  simpa using add_limbSum_lt h hlen (hlimit i)

theorem limbSum_lt_two_pow (hlen : xs.length ≤ 63) (i : Fin 10) : limbSum xs i < 2 ^ 32 := by
  have hlimit : ∀ i, 0 + 63 * nearLimit i < 2 ^ 32 := by decide
  simpa using add_limbSum_lt h hlen (hlimit i)

theorem subSlot_two_add_limbSum_lt {a b : LimbVec} (ha : isNear a) (hb : isNear b) (hlen : xs.length ≤ 2) (i : Fin 10) :
    ((subSlot 2 a b).get i).toNat + limbSum xs i < wideLimit i := by
  have hlimit : ∀ i, nearLimit i + multipleLimb 2 i + 2 * nearLimit i < wideLimit i := by decide
  have hsub := subSlot_get_le ha (withinMultiple_two_of_isNear hb) (multipleFits_of_isNear (by decide) ha) i
  exact (Nat.add_le_add_right hsub _).trans_lt (add_limbSum_lt h hlen (hlimit i))

theorem negSlot_two_add_limbSum_lt {a : LimbVec} (ha : isNear a) (hlen : xs.length ≤ 3) (i : Fin 10) :
    ((negSlot 2 a).get i).toNat + limbSum xs i < wideLimit i := by
  have hlimit : ∀ i, multipleLimb 2 i + 3 * nearLimit i < wideLimit i := by decide
  have hneg := withinMultiple_negSlot (by decide) (withinMultiple_two_of_isNear ha) i
  exact (Nat.add_le_add_right hneg _).trans_lt (add_limbSum_lt h hlen (hlimit i))

theorem subSlot_sixteen_add_limbSum_lt {a b : LimbVec} (ha : isNear a) (hb : withinMultiple 16 b)
    (hlen : xs.length ≤ 46) (i : Fin 10) : ((subSlot 16 a b).get i).toNat + limbSum xs i < 2 ^ 32 := by
  have hlimit : ∀ i, nearLimit i + multipleLimb 16 i + 46 * nearLimit i < 2 ^ 32 := by decide
  have hsub := subSlot_get_le ha hb (multipleFits_of_isNear (by decide) ha) i
  exact (Nat.add_le_add_right hsub _).trans_lt (add_limbSum_lt h hlen (hlimit i))

end Chains

/-- Settles O36: the limits hold with the class-N limit in every summand's place; the chains that are one longer are
the largest class-N limb vector added up, with 0 as what is subtracted or negated first. -/
theorem documentedChainLengths : Obligations.DocumentedChainLengths := by
  have hnear : isNear (justBelow nearLimit) := by decide
  have hzero : isNear (small 0#32) := by decide
  refine ⟨fun xs h => ⟨fun hlen => limbSum_lt_wideLimit h hlen, fun hlen => limbSum_lt_two_pow h hlen,
      fun a b ha hb hlen => subSlot_two_add_limbSum_lt h ha hb hlen,
      fun a ha hlen => negSlot_two_add_limbSum_lt h ha hlen,
      fun a b ha hb hlen => subSlot_sixteen_add_limbSum_lt h ha hb hlen⟩,
    ⟨justBelow nearLimit, hnear, by decide, by decide⟩,
    ⟨justBelow nearLimit, small 0#32, justBelow nearLimit, hnear, hzero, hnear, by decide⟩,
    ⟨small 0#32, justBelow nearLimit, hzero, hnear, by decide⟩,
    ⟨justBelow nearLimit, small 0#32, hnear, hzero, by decide⟩,
    justBelow wideLimit, by decide, fun hwithin => absurd (hwithin 0) (by decide)⟩

end Sys2Proof.Machine
end

section
/-! PROOFS. What a command writes (10_state.md R23 to R25; 20_memory.md R55, R59): the value as a function of what its
sources read as, the one register it goes to, and what depends on neither. -/

namespace Sys2Proof.Machine

/-! ### The value a command computes -/

/-- What a field, lane or point command writes, from what its sources read as; none for a transfer command. -/
def computed (i : Instr) (read : FReg → Vfe) : Option Vfe :=
  match i with
  | .vadd _ fa fb => some (vaddFn (read fa) (read fb))
  | .vsubP2 _ fa fb => some (vsubFn multipleP2 (read fa) (read fb))
  | .vsubP16 _ fa fb => some (vsubFn multipleP16 (read fa) (read fb))
  | .vnegP2 _ fa m => some (vnegFn multipleP2 (read fa) m)
  | .vnegP16 _ fa m => some (vnegFn multipleP16 (read fa) m)
  | .vmul _ fa fb => some (vmulFn (read fa) (read fb))
  | .vsq _ fa => some (vsqFn (read fa))
  | .vredL _ fa => some (vredLFn (read fa))
  | .vredF _ fa => some (vredFFn (read fa))
  | .vshuf _ fa sel => some (vshufFn (read fa) sel)
  | .vblend _ fa fb m => some (vblendFn (read fa) (read fb) m)
  | .pdbl _ fa => some (dbl (read fa))
  | .padd _ fa fb => some (addC (read fa) (cache (read fb)))
  | .paddc _ fa fc => some (addC (read fa) (read fc))
  | .pcache _ fa => some (cache (read fa))
  | .pneg _ fa => some (pnegFn (read fa))
  | .vld _ _ | .vst _ _ | .vldc _ _ => none

/-- A command that computes a value retires with it. -/
theorem exec_of_computed {i : Instr} {s : State} {v : Vfe} (h : computed i s.field = some v) :
    ∃ fd, destinationOf i = some fd ∧ exec i s = s.retire fd v := by
  cases i with
  | vld | vst | vldc => cases h
  | _ =>
    obtain rfl := Option.some.inj h
    exact ⟨_, rfl, rfl⟩

/-- What a command can do, by what it writes: its destination register, the memory, or the fault registers. -/
theorem exec_cases_destination {i : Instr} {s t : State} (h : exec i s = .next t) :
    (∃ fd v, destinationOf i = some fd ∧ t = (s.writeField fd v).complete) ∨
    (∃ fr addr, i = .vst fr addr ∧ t = (s.storeVfe addr (s.field fr)).complete) ∨
    ∃ c, t = s.takeFault c (encode i) := by
  cases i with
  | vld fr addr =>
    rw [exec, execVld] at h
    split_ifs at h
    · exact .inl ⟨fr, _, rfl, retire_eq_next.1 h⟩
    · exact .inr (.inr ⟨_, raiseAddressRange_eq_next.1 h⟩)
  | vst fr addr =>
    rw [exec, execVst] at h
    split_ifs at h
    · exact .inr (.inl ⟨fr, addr, rfl, (Host.Outcome.next.inj h).symm⟩)
    · exact .inr (.inr ⟨_, raiseAddressRange_eq_next.1 h⟩)
  | vldc fd e =>
    rw [exec, execVldc] at h
    split at h
    · exact .inl ⟨fd, _, rfl, retire_eq_next.1 h⟩
    · exact .inr (.inr ⟨_, raiseIllegalCommand_eq_next.1 h⟩)
  | _ => exact .inl ⟨_, _, rfl, retire_eq_next.1 h⟩

/-- Settles O18, by what the command writes; only the fault registers are written when FAULT becomes 1. -/
theorem oneRegisterAndNoPartialResult : Obligations.OneRegisterAndNoPartialResult := by
  intro i s t h
  obtain ⟨fd, v, hdest, rfl⟩ | ⟨fr, addr, rfl, rfl⟩ | ⟨c, rfl⟩ := exec_cases_destination h
  · refine ⟨fun r hr => ?_, fun _ _ => rfl, ⟨rfl, rfl⟩, fun hf ht => ?_⟩
    · have hne : r ≠ fd := by
        rintro rfl
        exact hr hdest
      exact ⟨writeField_f_ne s v hne, writeField_written_ne s v hne⟩
    · simp [hf] at ht
  · refine ⟨fun r _ => ?_, fun hne => absurd rfl (hne fr addr), ?_, fun hf ht => ?_⟩
    · simp [keptRegister]
    · simp [keptSetting]
    · simp [hf] at ht
  · exact ⟨fun _ _ => ⟨rfl, rfl⟩, fun _ _ => rfl, ⟨rfl, rfl⟩, fun _ _ => ⟨fun _ => ⟨rfl, rfl⟩, fun _ => rfl, rfl⟩⟩

/-! ### Slots (R23) -/

/-- What a field command computes in a slot depends on that slot of its sources. -/
theorem computed_slot_congr {i : Instr} {read read' : FReg → Vfe} {sl : Slot} (hi : isFieldCommand i = true)
    (h : ∀ r ∈ sourcesOf i, (read r).slot sl = (read' r).slot sl) :
    ∃ v v', computed i read = some v ∧ computed i read' = some v' ∧ v.slot sl = v'.slot sl := by
  cases i with
  | vadd fd fa fb | vsubP2 fd fa fb | vsubP16 fd fa fb | vmul fd fa fb =>
    have ha := h fa (by simp [sourcesOf])
    have hb := h fb (by simp [sourcesOf])
    exact ⟨_, _, rfl, rfl, by simp [ha, hb]⟩
  | vnegP2 fd fa m | vnegP16 fd fa m | vsq fd fa | vredL fd fa | vredF fd fa =>
    have ha := h fa (by simp [sourcesOf])
    exact ⟨_, _, rfl, rfl, by simp [ha]⟩
  | _ => cases hi

/-- The destination holds what the command computed. -/
theorem destination_of_computed {i : Instr} {s t : State} {v : Vfe} {fd : FReg} (hv : computed i s.field = some v)
    (hfd : destinationOf i = some fd) (h : exec i s = .next t) : t.f.get fd = v := by
  obtain ⟨r, hr, hexec⟩ := exec_of_computed hv
  obtain rfl : r = fd := Option.some.inj (hr.symm.trans hfd)
  obtain rfl := retire_eq_next.1 (hexec.symm.trans h)
  exact writeField_f_self s r v

/-- Settles O37: a field command computes each slot from that slot of its sources. -/
theorem fieldCommandSlotsAreIndependent : Obligations.FieldCommandSlotsAreIndependent := by
  intro i sl s s' t t' hi h ht ht' fd hfd
  obtain ⟨v, v', hv, hv', hslot⟩ := computed_slot_congr hi h
  rw [destination_of_computed hv hfd ht, destination_of_computed hv' hfd ht', hslot]

/-! ### The content of never-written registers (R25) -/

/-- t' is t but for what never-written registers are stored as. -/
def sameButUnwritten (t t' : State) : Prop :=
  { t' with f := t.f } = t ∧ ∀ r : FReg, t.written.get r = true → t'.f.get r = t.f.get r

section Unwritten
variable {s : State} {g : Vector Vfe 16} (hg : ∀ r : FReg, s.written.get r = true → g.get r = s.f.get r)
include hg

theorem field_other_unwritten : State.field { s with f := g } = s.field := by
  funext r
  by_cases hr : s.written.get r = true
  · rw [field_of_written hr, ← hg r hr]
    exact field_of_written hr
  · simp [State.field, hr]

theorem sameButUnwritten_writeField (fd : FReg) (v : Vfe) :
    sameButUnwritten (s.writeField fd v).complete (State.writeField { s with f := g } fd v).complete := by
  refine ⟨rfl, fun r hr => ?_⟩
  by_cases hfd : r = fd
  · subst hfd
    exact (writeField_f_self _ r v).trans (writeField_f_self s r v).symm
  · have hw : s.written.get r = true := (writeField_written_ne s v hfd).symm.trans hr
    exact ((writeField_f_ne _ v hfd).trans (hg r hw)).trans (writeField_f_ne s v hfd).symm

theorem sameButUnwritten_withLm (m : List Cell) :
    sameButUnwritten (s.withLm m).complete (State.withLm { s with f := g } m).complete := ⟨rfl, hg⟩

/-- No command reads the stored content of a never-written register. -/
theorem exec_other_unwritten {i : Instr} {t : State} (h : exec i s = .next t) :
    ∃ t', exec i { s with f := g } = .next t' ∧ sameButUnwritten t t' := by
  cases i with
  | vld fr addr =>
    rw [exec, execVld] at h
    split_ifs at h with hr
    · obtain rfl := retire_eq_next.1 h
      exact ⟨_, if_pos hr, sameButUnwritten_writeField hg fr (s.loadVfe addr)⟩
    · obtain rfl := raiseAddressRange_eq_next.1 h
      exact ⟨_, if_neg hr, rfl, hg⟩
  | vst fr addr =>
    rw [exec, execVst] at h
    split_ifs at h with hr
    · obtain rfl := Host.Outcome.next.inj h
      refine ⟨_, if_pos hr, ?_⟩
      rw [field_other_unwritten hg]
      exact sameButUnwritten_withLm hg _
    · obtain rfl := raiseAddressRange_eq_next.1 h
      exact ⟨_, if_neg hr, rfl, hg⟩
  | vldc fd e =>
    rw [exec, execVldc] at h ⊢
    cases hr : rom e with
    | some v =>
      rw [hr] at h
      obtain rfl := retire_eq_next.1 h
      exact ⟨_, rfl, sameButUnwritten_writeField hg fd v⟩
    | none =>
      rw [hr] at h
      obtain rfl := raiseIllegalCommand_eq_next.1 h
      exact ⟨_, rfl, rfl, hg⟩
  | _ =>
    obtain rfl := retire_eq_next.1 h
    refine ⟨_, rfl, ?_⟩
    rw [field_other_unwritten hg]
    exact sameButUnwritten_writeField hg _ _

end Unwritten

/-- Settles O20: a source reads the same whatever is stored in the never-written registers. -/
theorem unwrittenContentIsNeverRead : Obligations.UnwrittenContentIsNeverRead := fun _ _ _ _ hg h =>
  exec_other_unwritten hg h

/-! ### VST and then VLD (20_memory.md R59) -/

/-- The words a store wrote load as the register that was stored. -/
theorem loadVfe_storeVfe (s : State) (addr : BitVec 16) (v : Vfe) : (s.storeVfe addr v).complete.loadVfe addr = v :=
  Vfe.ext_limb fun sl i => by
    rw [loadVfe_limb, Nat.add_assoc]
    apply word_of_lookup
    rw [complete_lm]
    exact storeVfe_lookup_inside s addr v sl i

/-- Settles O42: the load finds the words the store wrote, and the store wrote no register. -/
theorem storeThenLoadCopiesTheRegister : Obligations.StoreThenLoadCopiesTheRegister := by
  intro fs fd addr s h
  have hload := loadVfe_storeVfe s addr (s.field fs)
  have hvld : exec (.vld fd addr) (s.storeVfe addr (s.field fs)).complete = _ := exec_vld_of_inRange (by simpa using h)
  rw [hload] at hvld
  obtain ⟨u, hu, hwritten, hvalue, hkept, hmem, -⟩ :=
    retire_retires (s.storeVfe addr (s.field fs)).complete fd (s.field fs)
  refine ⟨_, u, exec_vst_of_inRange h, hvld.trans hu, hvalue, hwritten, hmem, fun r hr => ?_⟩
  simpa [keptRegister] using hkept r hr

end Sys2Proof.Machine
end

section
/-! PROOFS. The host's moves, one at a time and in runs (20_memory.md R59, R60; 60_exceptions.md R204), and the
canonical form of the limb memory (20_memory.md R50, R52). -/

namespace Sys2Proof.Machine

/-! ### One step -/

theorem runCommand_of_decode_ok {s : State} {cw : Word} {i : Instr} (hf : s.faulted = false) (hi : decode cw = .ok i) :
    s.runCommand cw = exec i s := by
  simp [State.runCommand, hf, hi]

theorem decode_of_decodeTableWord {nbits w : Nat} {i : Instr} (h : decodeTableWord nbits w = some i) :
    decode (tableWord nbits w) = .ok i := by
  rw [decodeTableWord] at h
  split at h
  · rwa [← Option.some.inj h]
  · cases h

/-- Settles O7: the step performs the next move, and a word the unit accepts is run as the command it decodes to. -/
theorem stepRunsDecodedCommand : Obligations.StepRunsDecodedCommand := by
  refine ⟨fun s cw rest i hp hf hi => ?_, fun s m rest => step_of_port, fun s => step_idle, fun s nbits w i hf hi => ?_⟩
  · rw [step_of_port hp]
    exact runCommand_of_decode_ok (s := { s with port := rest }) hf hi
  · rw [step_withFetchWord, runCommand_of_decode_ok hf (decode_of_decodeTableWord hi)]

/-! ### The host's moves -/

theorem runCommand_answers_next (s : State) (cw : Word) : ∃ t, s.runCommand cw = .next t := by
  cases hf : s.faulted with
  | true => exact ⟨s, runCommand_of_faulted cw hf⟩
  | false =>
    cases hd : decode cw with
    | error e => exact ⟨_, runCommand_of_illegalWord hf (illegalWord_of_decode_error hd)⟩
    | ok i =>
      rw [runCommand_of_decode_ok hf hd]
      exact exec_answers_next i s

/-- Settles O17: only the write of a word has a condition. -/
theorem everyHostMoveAnswers : Obligations.EveryHostMoveAnswers := by
  intro s m
  cases m with
  | issue cw => exact .inl (runCommand_answers_next s cw)
  | writeLm a v =>
    by_cases ha : a < s.cfg.lmWords
    · exact .inl ⟨_, perform_writeLm v ha⟩
    · exact .inr ⟨a, v, rfl, Nat.le_of_not_lt ha, if_neg ha⟩
  | writeStatus n v => exact .inl ⟨s, rfl⟩
  | reset => exact .inl ⟨s.applyReset, rfl⟩

/-- Settles O23: the write is one store into the memory, which no other address sees. -/
theorem hostWriteChangesOneWord : Obligations.HostWriteChangesOneWord := fun s a v ha =>
  ⟨s.hostStore a v, perform_writeLm v ha, hostStore_word_self s a v, Memory.lookup_store_self s.lm a v,
    fun _ hb => Memory.lookup_store_ne hb, fun _ => ⟨rfl, rfl⟩, ⟨rfl, rfl, rfl⟩, ⟨rfl, rfl⟩, rfl⟩

/-! ### Runs of a faulted unit (R204) -/

theorem exists_step_of_run_succ {s t : State} {n : Nat} (h : Host.Core.run core (n + 1) s = .next t) :
    ∃ u, step s = .next u ∧ Host.Core.run core n u = .next t := by
  cases hs : step s with
  | next u => exact ⟨u, rfl, (run_succ n hs).symm.trans h⟩
  | fault r => simp [Host.Core.run, core, hs] at h
  | refused r => simp [Host.Core.run, core, hs] at h

/-- With no reset to come, a step of a faulted unit replaces the memory at most and takes a move from the port. -/
theorem step_of_faulted {s t : State} (hf : s.faulted = true) (hp : HostMove.reset ∉ s.port) (h : step s = .next t) :
    ∃ lm rest, t = { s.withLm lm with port := rest } ∧ HostMove.reset ∉ rest := by
  cases hport : s.port with
  | nil =>
    obtain rfl := Host.Outcome.next.inj ((step_idle hport).symm.trans h)
    exact ⟨s.lm, s.port, rfl, hp⟩
  | cons m rest =>
    rw [hport, List.mem_cons, not_or] at hp
    obtain ⟨hm, hrest⟩ := hp
    rw [step_of_port hport] at h
    obtain ⟨lm, rfl⟩ := perform_of_faulted (s := { s with port := rest }) hf (Ne.symm hm) h
    exact ⟨lm, rest, rfl, hrest⟩

theorem run_of_faulted_without_reset {s t : State} {n : Nat} (hf : s.faulted = true) (hp : HostMove.reset ∉ s.port)
    (h : Host.Core.run core n s = .next t) :
    ∃ lm rest, t = { s.withLm lm with port := rest } ∧ HostMove.reset ∉ rest := by
  induction n generalizing s with
  | zero =>
    obtain rfl := Host.Outcome.next.inj h
    exact ⟨s.lm, s.port, rfl, hp⟩
  | succ n ih =>
    obtain ⟨u, hstep, hrun⟩ := exists_step_of_run_succ h
    obtain ⟨lm, rest, rfl, hrest⟩ := step_of_faulted hf hp hstep
    exact ih (s := { s.withLm lm with port := rest }) hf hrest hrun

/-- Settles O11, by induction on the steps: each replaces the memory at most, and the port keeps no reset. -/
theorem faultedRunsChangeNoRegister : Obligations.FaultedRunsChangeNoRegister := by
  intro n s t hf hp h
  obtain ⟨lm, rest, rfl, hrest⟩ := run_of_faulted_without_reset hf hp h
  exact ⟨hf, ⟨rfl, rfl, rfl⟩, rfl, fun _ => ⟨rfl, rfl⟩, hrest⟩

/-! ### The canonical form of the memory -/

theorem Memory.lookup_cons (a b : Nat) (v : Word) (m : List Cell) :
    Memory.lookup ((a, v) :: m) b = if b = a then some v else Memory.lookup m b := rfl

theorem Memory.wf_cons {a : Nat} {v : Word} {m : List Cell} :
    Memory.wf ((a, v) :: m) = true ↔ Memory.above a m = true ∧ Memory.wf m = true := Bool.and_eq_true_iff

/-- Nothing is listed at or below an address that the whole list is above. -/
theorem Memory.lookup_of_above {m : List Cell} {a b : Nat} (h : Memory.above a m = true) (hb : b ≤ a) :
    Memory.lookup m b = none := by
  induction m with
  | nil => rfl
  | cons cell rest ih =>
    obtain ⟨c, v⟩ := cell
    simp only [Memory.above, Bool.and_eq_true, decide_eq_true_eq] at h
    obtain ⟨hc, hrest⟩ := h
    rw [Memory.lookup_cons, if_neg (by omega)]
    exact ih hrest

/-- The first address of a canonical memory is listed at or after the first address of any other that reads the same. -/
theorem Memory.head_le_head {m m' : List Cell} {a b : Nat} {v u : Word} (hm : Memory.wf ((a, v) :: m) = true)
    (h : ∀ c, Memory.lookup ((a, v) :: m) c = Memory.lookup ((b, u) :: m') c) : a ≤ b := by
  by_contra hlt
  obtain ⟨habove, -⟩ := Memory.wf_cons.1 hm
  have hb := h b
  rw [Memory.lookup_cons, Memory.lookup_cons, if_neg (by omega), if_pos rfl,
    Memory.lookup_of_above habove (by omega)] at hb
  cases hb

theorem Memory.eq_of_lookup_eq {m m' : List Cell} (hm : Memory.wf m = true) (hm' : Memory.wf m' = true)
    (h : ∀ a, Memory.lookup m a = Memory.lookup m' a) : m = m' := by
  induction m generalizing m' with
  | nil =>
    cases m' with
    | nil => rfl
    | cons cell rest =>
      have hfirst := h cell.1
      rw [Memory.lookup_cons, if_pos rfl] at hfirst
      cases hfirst
  | cons cell rest ih =>
    obtain ⟨a, v⟩ := cell
    cases m' with
    | nil =>
      have hfirst := h a
      rw [Memory.lookup_cons, if_pos rfl] at hfirst
      cases hfirst
    | cons cell' rest' =>
      obtain ⟨b, u⟩ := cell'
      obtain rfl : a = b := Nat.le_antisymm (Memory.head_le_head hm h) (Memory.head_le_head hm' fun c => (h c).symm)
      obtain ⟨habove, hrest⟩ := Memory.wf_cons.1 hm
      obtain ⟨habove', hrest'⟩ := Memory.wf_cons.1 hm'
      have hvalue : v = u := by simpa [Memory.lookup_cons] using h a
      have htail (c) : Memory.lookup rest c = Memory.lookup rest' c := by
        by_cases hc : c ≤ a
        · rw [Memory.lookup_of_above habove hc, Memory.lookup_of_above habove' hc]
        · have hne : c ≠ a := by omega
          simpa [Memory.lookup_cons, hne] using h c
      rw [hvalue, ih hrest hrest' htail]

/-- Settles O22, by induction on the lists: the first addresses agree, as nothing is listed before them. -/
theorem equalMemoriesAreEqualLists : Obligations.EqualMemoriesAreEqualLists := fun _ _ hm hm' h =>
  Memory.eq_of_lookup_eq hm hm' h

end Sys2Proof.Machine
end
